-- ==== Sys2Proof/Word.lean ====
section
/-! DEFINITION. The unit's word types: the byte, the command word, the element, its container, the register number. -/

namespace Sys2Proof

/-- One location of the wire buffer: 8 bits (R31, R50). -/
abbrev Byte := BitVec 8

/-- A command word, and the width of STATUS and of FCMD: 32 bits, bit 31 the most significant (R70, R25, R29). -/
abbrev Word := BitVec 32

/-- The 113 meaningful bits of a field element; bit `i` is the coefficient of basis vector `i` (R6, R20). -/
abbrev Element := BitVec 113

/-- The 128-bit storage of one element; bits 113 to 127 are reserved and are zero in a valid one (R20, R21). -/
abbrev Container := BitVec 128

/-- A register number: every 4-bit field names one of the sixteen registers E0 … E15 (R21, R73). -/
abbrev Reg := Fin 16

end Sys2Proof
end

