-- ==== Sys2Proof/Syntax.lean ====
section
/-! DEFINITION. The 22 commands of the GF113 command set (rule R74), one constructor per row of spec/opcode_table.json. -/

namespace Sys2Proof

/-- A decoded command. The operands stand in the order of the assembler (R79): destinations first. -/
inductive Instr where
  /-- ZERO rd (R100). -/
  | zero (rd : Reg)
  /-- ONE rd (R110). -/
  | one (rd : Reg)
  /-- MOV rd, rs1 (R111). -/
  | mov (rd rs1 : Reg)
  /-- VERIFY rs1 (R104). -/
  | verify (rs1 : Reg)
  /-- SER r, addr, len (R105): the element register `r` is the source. -/
  | ser (r : Reg) (addr len : Byte)
  /-- DESER r, addr, len (R106): the element register `r` is the destination. -/
  | deser (r : Reg) (addr len : Byte)
  /-- EQ rs1, rs2 (R107). -/
  | eq (rs1 rs2 : Reg)
  /-- ISZERO rs1 (R108). -/
  | iszero (rs1 : Reg)
  /-- ISONE rs1 (R109). -/
  | isone (rs1 : Reg)
  /-- ADD rd, rs1, rs2 (R120). -/
  | add (rd rs1 rs2 : Reg)
  /-- SUB rd, rs1, rs2 (R121). -/
  | sub (rd rs1 rs2 : Reg)
  /-- NEG rd, rs1 (R122). -/
  | neg (rd rs1 : Reg)
  /-- ADDONE rd, rs1 (R123). -/
  | addone (rd rs1 : Reg)
  /-- SUBONE rd, rs1 (R124). -/
  | subone (rd rs1 : Reg)
  /-- SQR rd, rs1 (R132). -/
  | sqr (rd rs1 : Reg)
  /-- SQRT rd, rs1 (R133). -/
  | sqrt (rd rs1 : Reg)
  /-- MUL rd, rs1, rs2 (R146). -/
  | mul (rd rs1 rs2 : Reg)
  /-- INV rd, rs1 (R161). -/
  | inv (rd rs1 : Reg)
  /-- DIV rd, rs1, rs2 (R162): dividend `rs1`, divisor `rs2`. -/
  | div (rd rs1 rs2 : Reg)
  /-- TRACE rs1 (R171). -/
  | trace (rs1 : Reg)
  /-- QSOLVE rd, rs1 (R183). -/
  | qsolve (rd rs1 : Reg)
  /-- QSOLVE3 rd, rd2, rs1, rs2, rs3 (R186): the sources are A, B, C in that order. -/
  | qsolve3 (rd rd2 rs1 rs2 rs3 : Reg)
  deriving DecidableEq, Repr

/-- The one pseudo-instruction of the assembler (R80): `SER15 Es, addr` expands to `SER Es, addr, 15`. -/
def Instr.ser15 (r : Reg) (addr : Byte) : Instr := .ser r addr 15

end Sys2Proof
end

