-- ==== Sys2Proof/WellFormed.lean ====
section
/-! DEFINITION. Which decoded commands are legal: the check that the operands' types do not already make (R76, R82). -/

namespace Sys2Proof

/-- A legal command. Register numbers, addresses and lengths are in range by their types, and any of them may coincide
(R82), with one exception: QSOLVE3 with `rd = rd2` is an illegal word (R76). -/
def Instr.wellFormed : Instr → Bool
  | .qsolve3 rd rd2 _ _ _ => rd != rd2
  | .zero _ | .one _ | .mov _ _ | .verify _ | .ser _ _ _ | .deser _ _ _ | .eq _ _ | .iszero _ | .isone _
  | .add _ _ _ | .sub _ _ _ | .neg _ _ | .addone _ _ | .subone _ _ | .sqr _ _ | .sqrt _ _ | .mul _ _ _
  | .inv _ _ | .div _ _ _ | .trace _ | .qsolve _ _ => true

end Sys2Proof
end

