-- ==== Sys2Proof/Decode.lean ====
section
/-! DEFINITION. The decoder, total on all 2^32 words and rejecting by name (R70 to R78), and the encoder (R71, R72). -/

namespace Sys2Proof

/-! ## The fields of a command word (R71, R72, R73) -/

/-- The opcode, bits 31:24. -/
def opcodeOf (w : Word) : BitVec 8 := w.extractLsb' 24 8

/-- The 4-bit register field whose lowest bit is `lo`, as the register it selects (R73). -/
def regAt (w : Word) (lo : Nat) : Reg := (w.extractLsb' lo 4).toFin

/-- First destination of format R, and the register of format M: bits 23:20. -/
def rdOf (w : Word) : Reg := regAt w 20
/-- First source, bits 19:16. -/
def rs1Of (w : Word) : Reg := regAt w 16
/-- Second source, bits 15:12. -/
def rs2Of (w : Word) : Reg := regAt w 12
/-- Third source, bits 11:8. -/
def rs3Of (w : Word) : Reg := regAt w 8
/-- Second destination, bits 7:4. -/
def rd2Of (w : Word) : Reg := regAt w 4
/-- Start address of a region, bits 19:12 of format M, unsigned and unscaled (R73). -/
def addrOf (w : Word) : Byte := w.extractLsb' 12 8
/-- Length of a region, bits 11:4 of format M, unsigned and unscaled (R73). -/
def lenOf (w : Word) : Byte := w.extractLsb' 4 8

/-! ## The opcode map (R74) -/

/-- One row of the opcode map: word `w` is this command exactly when `w AND mask = pattern`. -/
structure OpcodeRow where
  pattern : Word
  mask    : Word
  operands : Word → Instr

/-- The opcode map, row for row as R74 prints it. -/
def opcodeMap : List OpcodeRow :=
  [ ⟨0x10000000, 0xFF0FFFFF, fun w => .zero (rdOf w)⟩,
    ⟨0x11000000, 0xFF0FFFFF, fun w => .one (rdOf w)⟩,
    ⟨0x12000000, 0xFF00FFFF, fun w => .mov (rdOf w) (rs1Of w)⟩,
    ⟨0x13000000, 0xFFF0FFFF, fun w => .verify (rs1Of w)⟩,
    ⟨0x14000000, 0xFF00000F, fun w => .ser (rdOf w) (addrOf w) (lenOf w)⟩,
    ⟨0x15000000, 0xFF00000F, fun w => .deser (rdOf w) (addrOf w) (lenOf w)⟩,
    ⟨0x16000000, 0xFFF00FFF, fun w => .eq (rs1Of w) (rs2Of w)⟩,
    ⟨0x17000000, 0xFFF0FFFF, fun w => .iszero (rs1Of w)⟩,
    ⟨0x18000000, 0xFFF0FFFF, fun w => .isone (rs1Of w)⟩,
    ⟨0x20000000, 0xFF000FFF, fun w => .add (rdOf w) (rs1Of w) (rs2Of w)⟩,
    ⟨0x21000000, 0xFF000FFF, fun w => .sub (rdOf w) (rs1Of w) (rs2Of w)⟩,
    ⟨0x22000000, 0xFF00FFFF, fun w => .neg (rdOf w) (rs1Of w)⟩,
    ⟨0x23000000, 0xFF00FFFF, fun w => .addone (rdOf w) (rs1Of w)⟩,
    ⟨0x24000000, 0xFF00FFFF, fun w => .subone (rdOf w) (rs1Of w)⟩,
    ⟨0x30000000, 0xFF00FFFF, fun w => .sqr (rdOf w) (rs1Of w)⟩ ] ++
  [ ⟨0x31000000, 0xFF00FFFF, fun w => .sqrt (rdOf w) (rs1Of w)⟩,
    ⟨0x40000000, 0xFF000FFF, fun w => .mul (rdOf w) (rs1Of w) (rs2Of w)⟩,
    ⟨0x50000000, 0xFF00FFFF, fun w => .inv (rdOf w) (rs1Of w)⟩,
    ⟨0x51000000, 0xFF000FFF, fun w => .div (rdOf w) (rs1Of w) (rs2Of w)⟩,
    ⟨0x60000000, 0xFFF0FFFF, fun w => .trace (rs1Of w)⟩,
    ⟨0x70000000, 0xFF00FFFF, fun w => .qsolve (rdOf w) (rs1Of w)⟩,
    ⟨0x71000000, 0xFF00000F, fun w => .qsolve3 (rdOf w) (rd2Of w) (rs1Of w) (rs2Of w) (rs3Of w)⟩ ]

/-- Does word `w` match this row (R74, R77 step 2)? -/
def OpcodeRow.accepts (r : OpcodeRow) (w : Word) : Bool := w &&& r.mask == r.pattern

/-- Why a word is not a command (R75, R76). The machine raises IllegalCommand for each of them alike. -/
inductive DecodeError where
  /-- The opcode byte selects no command (R74: 234 of the 256 values). -/
  | unknownOpcode
  /-- The opcode selects a command, and a field that the command does not use is not zero (R75). -/
  | nonzeroUnusedField
  /-- QSOLVE3 with `rd = rd2` (R76). -/
  | sameDestinations
  deriving DecidableEq, Repr

/-- Decode a command word: a function of the word alone (R78). -/
def decode (w : Word) : Except DecodeError Instr :=
  match opcodeMap.find? (·.accepts w) with
  | some row => if (row.operands w).wellFormed then .ok (row.operands w) else .error .sameDestinations
  | none =>
    if opcodeMap.any (fun row => opcodeOf row.pattern == opcodeOf w) then .error .nonzeroUnusedField
    else .error .unknownOpcode

/-! ## The encoder -/

/-- A register number as its 4-bit field (R73). -/
def regBits (r : Reg) : BitVec 4 := BitVec.ofFin r

/-- Format R (R71): op, rd, rs1, rs2, rs3, rd2 and the zero field, from bit 31 down. -/
def formatR (op : BitVec 8) (rd rs1 rs2 rs3 rd2 : Reg) : Word :=
  op ++ regBits rd ++ regBits rs1 ++ regBits rs2 ++ regBits rs3 ++ regBits rd2 ++ (0 : BitVec 4)

/-- Format M (R72): op, r, addr, len and the zero field, from bit 31 down. -/
def formatM (op : BitVec 8) (r : Reg) (addr len : Byte) : Word :=
  op ++ regBits r ++ addr ++ len ++ (0 : BitVec 4)

/-- The word of a command: every register field that the command does not use is 0 (R75). -/
def encode : Instr → Word
  | .zero rd => formatR 0x10 rd 0 0 0 0
  | .one rd => formatR 0x11 rd 0 0 0 0
  | .mov rd rs1 => formatR 0x12 rd rs1 0 0 0
  | .verify rs1 => formatR 0x13 0 rs1 0 0 0
  | .ser r addr len => formatM 0x14 r addr len
  | .deser r addr len => formatM 0x15 r addr len
  | .eq rs1 rs2 => formatR 0x16 0 rs1 rs2 0 0
  | .iszero rs1 => formatR 0x17 0 rs1 0 0 0
  | .isone rs1 => formatR 0x18 0 rs1 0 0 0
  | .add rd rs1 rs2 => formatR 0x20 rd rs1 rs2 0 0
  | .sub rd rs1 rs2 => formatR 0x21 rd rs1 rs2 0 0
  | .neg rd rs1 => formatR 0x22 rd rs1 0 0 0
  | .addone rd rs1 => formatR 0x23 rd rs1 0 0 0
  | .subone rd rs1 => formatR 0x24 rd rs1 0 0 0
  | .sqr rd rs1 => formatR 0x30 rd rs1 0 0 0
  | .sqrt rd rs1 => formatR 0x31 rd rs1 0 0 0
  | .mul rd rs1 rs2 => formatR 0x40 rd rs1 rs2 0 0
  | .inv rd rs1 => formatR 0x50 rd rs1 0 0 0
  | .div rd rs1 rs2 => formatR 0x51 rd rs1 rs2 0 0
  | .trace rs1 => formatR 0x60 0 rs1 0 0 0
  | .qsolve rd rs1 => formatR 0x70 rd rs1 0 0 0
  | .qsolve3 rd rd2 rs1 rs2 rs3 => formatR 0x71 rd rs1 rs2 rs3 rd2

/-! ## The host's reading of the opcode table -/

/-- The 32-bit word whose table bits are the low `nbits` bits of `w` and whose other bits are 0. A command word has
no byte order (R70), so the table's bit numbers are the word's own. -/
def tableWord (nbits w : Nat) : Word := BitVec.ofNat 32 (w % 2 ^ nbits)

/-- The command that the decoder reads from the table word `w` of `nbits` bits. -/
def decodeTableWord (nbits w : Nat) : Option Instr := (decode (tableWord nbits w)).toOption

end Sys2Proof
end

