-- ==== Sys2Proof/Config.lean ====
section
/-! DEFINITION. What the spec leaves to the unit's builder (parameters of R5) and the free values: opaque constants, so
that no proof can see what they are. -/

namespace Sys2Proof

/-! ## The multiplication table, parameter MULTAB (R5, R140, R145) -/

/-- MULTAB, the two tables T0 and T1 of the multiplier, held row by row: the index of row 0, the two indices of each row
1, 2, …, the order in which a row's two indices stand in T0 and T1, and the sentinel. Which of a row's two indices goes to T0
has no effect on the product (R144), and the sentinel has none (R142). -/
structure MulTable where
  /-- T0[0], the one index of row 0. -/
  first : Nat
  /-- The two indices of rows 1, 2, …. -/
  rows : List (Nat × Nat)
  /-- Bit `i` set: T0[i] is the second index of row `i` and T1[i] the first one. -/
  flipped : BitVec 113
  /-- T1[0], parameter T1_SENTINEL (R5): stored and never read (R142). -/
  sentinel : Byte
  deriving DecidableEq, Repr

/-- One index of each row from row `i` on: the one that stands in T0, or with `other` the one in T1. -/
def MulTable.column (flipped : BitVec 113) (other : Bool) : Nat → List (Nat × Nat) → List Nat
  | _, [] => []
  | i, row :: rows =>
    (if flipped.getLsbD i ^^ other then row.2 else row.1) :: MulTable.column flipped other (i + 1) rows

/-- The table T0 (R140). -/
def MulTable.t0 (tab : MulTable) : List Nat := tab.first :: MulTable.column tab.flipped false 1 tab.rows

/-- The table T1 (R140), the sentinel first. -/
def MulTable.t1 (tab : MulTable) : List Nat := tab.sentinel.toNat :: MulTable.column tab.flipped true 1 tab.rows

/-- T0 as R145 prints it, in rows of sixteen entries. -/
def Config.t0R145 : List Nat :=
  [1, 45, 9, 38, 53, 69, 14, 17, 35, 81, 30, 36, 16, 52, 4, 56] ++
  [59, 19, 70, 52, 65, 3, 27, 9, 96, 18, 13, 33, 20, 5, 7, 23] ++
  [31, 53, 15, 68, 66, 51, 16, 5, 51, 6, 15, 78, 67, 67, 68, 77] ++
  [13, 86, 32, 22, 42, 27, 90, 8, 4, 60, 26, 31, 80, 94, 73, 82] ++
  [22, 28, 11, 1, 10, 39, 8, 57, 3, 10, 26, 54, 30, 17, 103, 29] ++
  [21, 23, 54, 37, 34, 12, 60, 39, 43, 7, 32, 49, 24, 6, 71, 14] ++
  [36, 75, 71, 18, 65, 28, 2, 40, 90, 43, 24, 20, 74, 57, 41, 11] ++
  [0]

/-- T1 as R145 prints it, T1[0] the default sentinel 0xFF. -/
def Config.t1R145 : List Nat :=
  [255, 112, 44, 89, 95, 79, 66, 76, 50, 102, 35, 104, 80, 74, 93, 64] ++
  [85, 89, 109, 77, 99, 12, 40, 59, 110, 37, 29, 64, 97, 58, 73, 50] ++
  [104, 101, 108, 70, 94, 106, 72, 100, 83, 75, 19, 95, 108, 78, 69, 107] ++
  [93, 98, 55, 25, 48, 56, 97, 84, 42, 98, 63, 38, 109, 100, 76, 105] ++
  [34, 61, 41, 2, 112, 111, 25, 61, 47, 91, 44, 110, 88, 102, 105, 49] ++
  [86, 63, 81, 103, 87, 48, 91, 55, 62, 21, 82, 62, 33, 85, 96, 88] ++
  [106, 101, 79, 107, 87, 92, 47, 45, 111, 58, 83, 72, 84, 99, 92, 46] ++
  [46]

/-- The default of MULTAB (R145): the smaller index of each row in T0, the sentinel 0xFF. -/
def Config.tableR145 : MulTable where
  first := Config.t0R145.headD 0
  rows := Config.t0R145.tail.zip Config.t1R145.tail
  flipped := 0
  sentinel := 0xFF

/-- Two tables have the same rows: the same T0[0], and for every later row the same two indices T0[i] and T1[i] in either order. The
sentinels may differ. -/
def MulTable.SameRows (tab tab' : MulTable) : Prop :=
  tab.t0.headD 0 = tab'.t0.headD 0 ∧
    List.Forall₂ (fun p q => p = q ∨ p = (q.2, q.1)) (tab.t0.tail.zip tab.t1.tail) (tab'.t0.tail.zip tab'.t1.tail)

/-- A table that a model may take as MULTAB: one with the rows of R145, the only ones that the laws of R147 leave (U4). -/
def MulTable.Accepted (tab : MulTable) : Prop := tab.SameRows Config.tableR145

/-- The part of MULTAB that stays open (R145, U4): in which rows the larger index stands in T0. Log entry 4. -/
opaque Config.rowOrder : BitVec 113

/-- Parameter T1_SENTINEL (R5, D17), left open: log entry 4. -/
opaque Config.t1Sentinel : Byte

/-- The unit's MULTAB, fixed for its whole life (R233): an accepted table. The laws of R147, which every MULTAB must
satisfy, leave no other rows (U4); the order inside a row and the sentinel are open. The field functions take the table as
an argument, and the commands give them this one. -/
def Config.multab : MulTable :=
  { Config.tableR145 with flipped := Config.rowOrder, sentinel := Config.t1Sentinel }

/-! ## Parameters that stay open -/

/-- The two values of parameter INV_ZERO (R164): what Inverse yields for Zero. -/
inductive InvZero where
  /-- What the chain itself computes on Zero. -/
  | chain
  /-- Some valid element, not further constrained, chosen afresh at each use. -/
  | draw
  deriving DecidableEq, Repr, Inhabited

/-- Parameter INV_ZERO (R164, D19), left open: log entry 5. -/
opaque Config.invZero : InvZero

/-- Parameter QS_Z0 (R184, D18), bit 0 of the root that the affine solver returns, left open: log entry 6. -/
opaque Config.qsZ0 : Bool

/-! ## Free values -/

/-- The element that INV_ZERO = `draw` chooses at draw number `n` (R164): log entry 5. -/
opaque Config.freeElement : Nat → Element

/-- What the byte of the wire buffer at address `a` holds at power-up, one unknown value per byte, fixed until that byte
is written (R34, R231): log entry 3. -/
opaque Config.powerUpByte : Nat → Byte

/-- A list of 0, 1 or 2 roots, the result of the general solver (R180, R185). -/
inductive Roots (α : Type) where
  | none
  | one (x1 : α)
  | two (x1 x2 : α)
  deriving DecidableEq, Repr, Inhabited

/-- What a field function leaves in its destination when an operand's container has a reserved bit set, at draw `n`
(U3: no rule gives it): log entry 7. -/
opaque Config.freeContainer : Nat → Container

/-- The 15 bytes that Serialize yields for a container with a reserved bit set, as one 120-bit number: log entry 7. -/
opaque Config.freeWire : Nat → BitVec 120

/-- The trace bit of a container with a reserved bit set: log entry 7. -/
opaque Config.freeTrace : Nat → Bool

/-- The outcome of the affine solver on a container with a reserved bit set: log entry 7. -/
opaque Config.freeRoot : Nat → Option Container

/-- The outcome of the general solver when an operand's container has a reserved bit set: log entry 7. -/
opaque Config.freeRoots : Nat → Roots Container

end Sys2Proof
end

