-- ==== Sys2Proof/Machine/State.lean ====
section
/-! DEFINITION. The state of one GF113 unit (R20 to R34) with the host's side of its port, and the state after reset. -/

namespace Sys2Proof.Machine

/-! ## The unit's faults are states, not stops -/

/-- The six fault conditions (R200, R201). A command that fails TAKES its fault: the next state records it (R204). -/
inductive Cause where
  /-- A value outside the valid 113-bit envelope: a reserved bit set. Raised by DESER and VERIFY. -/
  | invalidElement
  /-- Deserialize given other than 15 bytes. Raised by DESER. -/
  | lengthMismatch
  /-- Serialize given fewer than 15 bytes. Raised by SER. -/
  | bufferTooSmall
  /-- The general solver called with leading coefficient Zero. Raised by QSOLVE3. -/
  | invalidArgument
  /-- A word that is not a command. Raised by `Issue` itself. -/
  | illegalCommand
  /-- A region that does not fit in BUF. Raised by SER and DESER. -/
  | addressRange
  deriving DecidableEq, Repr

/-- The number that a fault writes to STATUS.CAUSE (R201). -/
def Cause.code : Cause → BitVec 3
  | .invalidElement => 1
  | .lengthMismatch => 2
  | .bufferTooSmall => 3
  | .invalidArgument => 4
  | .illegalCommand => 5
  | .addressRange => 6

/-- Reasons for which the MODEL stops with a fault. There are none: each of the unit's own six faults is a next state in
which the fault is recorded (R204), and every other command completes (R235). -/
inductive Fault where
  deriving DecidableEq, Repr

/-- Reasons for which the model has no meaning to give. -/
inductive Refusal where
  /-- Raised by an arm of `exec` whose command has no meaning yet (safe); no arm does. -/
  | notModelled (mnemonic : String)
  deriving DecidableEq, Repr

/-! ## The host's side of the port (R33) -/

/-- The six abstract transactions by which the host acts on the unit, and the only ones (R33). -/
inductive Transaction where
  /-- `Issue(w)`: the unit executes command word `w`. -/
  | issue (w : Word)
  /-- `ReadStatus()`. -/
  | readStatus
  /-- `ReadFcmd()`. -/
  | readFcmd
  /-- `BufRead(a)`, `a` an 8-bit address. -/
  | bufRead (a : Byte)
  /-- `BufWrite(a, b)`. -/
  | bufWrite (a b : Byte)
  /-- `Reset()`. -/
  | reset
  deriving DecidableEq, Repr

/-- What a reading transaction returns to the host (R33). -/
inductive Reply where
  | status (w : Word)
  | fcmd (w : Word)
  | byte (b : Byte)
  deriving DecidableEq, Repr

/-! ## The state -/

/-- The wire buffer's written bytes as (address, byte) pairs in rising order of address. An address that is not listed
has not been written since power-up (R34, R231). -/
abbrev Memory := List Host.Cell

/-- The state: the unit's own tuple (x, STATUS, FCMD, BUF), which is all the state a unit has (R20 to R34), then the draw
counter of the free values and the host's side of the port, which are the model's (log entries 1 and 2). -/
structure State where
  /-- The sixteen element registers x[0] … x[15], each one 128-bit container (R21). -/
  regs : Vector Container 16
  /-- STATUS: T bit 0, P bit 1, N bits 3:2, FAULT bit 4, CAUSE bits 7:5, bits 31:8 read as 0 (R25). -/
  status : Word
  /-- FCMD: the command word that raised the recorded fault, 0 while FAULT = 0 (R29). -/
  fcmd : Word
  /-- BUF, the 256-byte wire buffer (R31, R50). -/
  buf : Memory
  /-- How many free values have been drawn: the model's own field, no part of the unit. -/
  draws : Nat
  /-- The host's transactions still to come, in the order in which it makes them (R24, R33, R57). -/
  pending : List Transaction
  /-- What the host's reading transactions have returned, oldest first (R33). -/
  replies : List Reply
  deriving DecidableEq, Repr

/-- The state right after `Reset()` on a unit that has just been powered up (R34, R231): every register Zero, STATUS and
FCMD 0, no byte of BUF written yet. `draws`, `pending` and `replies` are the model's own, empty (log entries 1 and 2). -/
def State.reset : State where
  regs := Vector.replicate 16 0
  status := 0
  fcmd := 0
  buf := []
  draws := 0
  pending := []
  replies := []

end Sys2Proof.Machine
end

