-- ==== Sys2Proof/Machine/Flags.lean ====
section
/-! DEFINITION. The fields of STATUS (R25): reading each, and each write that a command makes (R26, R27, R28, R204). -/

namespace Sys2Proof.Machine

/-! ## Bit fields of a 32-bit word -/

/-- The bits `lo + n - 1 : lo` of a word all set. -/
def fieldMask (lo n : Nat) : Word := (BitVec.allOnes n).setWidth 32 <<< lo

/-- The `n`-bit field of a word whose lowest bit is `lo`. -/
def getField (w : Word) (lo n : Nat) : BitVec n := w.extractLsb' lo n

/-- The word with the `n`-bit field at `lo` replaced by `v` and every other bit kept. -/
def setField (w : Word) (lo : Nat) {n : Nat} (v : BitVec n) : Word :=
  (w &&& ~~~ fieldMask lo n) ||| (v.setWidth 32 <<< lo)

/-! ## The fields of STATUS -/

/-- Flag T, the last trace result (R26). -/
def State.flagT (s : State) : BitVec 1 := getField s.status 0 1
/-- Flag P, the last comparison result (R27). -/
def State.flagP (s : State) : BitVec 1 := getField s.status 1 1
/-- Field N, the root count of the last solver command (R28). -/
def State.fieldN (s : State) : BitVec 2 := getField s.status 2 2
/-- FAULT, 1 when a command has failed since reset (R25). -/
def State.flagFault (s : State) : BitVec 1 := getField s.status 4 1
/-- CAUSE, the cause code of that failure (R201). -/
def State.fieldCause (s : State) : BitVec 3 := getField s.status 5 3
/-- Bits 31:8 of STATUS, read as 0 and never written (R25). -/
def State.statusRest (s : State) : BitVec 24 := getField s.status 8 24

/-- `STATUS.T <- b` (R26). -/
def State.setT (s : State) (b : Bool) : State := { s with status := setField s.status 0 (BitVec.ofBool b) }
/-- `STATUS.P <- b` (R27). -/
def State.setP (s : State) (b : Bool) : State := { s with status := setField s.status 1 (BitVec.ofBool b) }
/-- `STATUS.N <- n` (R28). -/
def State.setN (s : State) (n : BitVec 2) : State := { s with status := setField s.status 2 n }
/-- `STATUS.FAULT <- 1 ; STATUS.CAUSE <- code` (R204). -/
def State.setFault (s : State) (code : BitVec 3) : State :=
  { s with status := setField (setField s.status 4 (1 : BitVec 1)) 5 code }

/-- The output level `fault_out`, equal to STATUS.FAULT at all times (R207). -/
def State.faultOut (s : State) : Bool := s.flagFault == 1

end Sys2Proof.Machine
end

