-- ==== Sys2Proof/Machine/Ops.lean ====
section
/-! DEFINITION. The named operations on registers and on the wire buffer, taking a fault, and `Reset()`. -/

namespace Sys2Proof.Machine

/-- What a meaning and a step answer with. -/
abbrev Result := Host.Outcome State Fault Refusal

/-! ## Containers and elements (R20) -/

/-- A container is a valid element when its reserved bits 113 to 127 are zero (R20). -/
def isValid (c : Container) : Bool := c.extractLsb' 113 15 == 0

/-- The 113 meaningful bits of a container. -/
def elementOf (c : Container) : Element := c.setWidth 113

/-- The container of an element: its reserved bits are zero (R20). -/
def containerOf (e : Element) : Container := e.setWidth 128

/-! ## Element registers (R21) -/

/-- `x[r]` (R7): no register is hardwired, none aliases another. -/
def State.reg (s : State) (r : Reg) : Container := s.regs.get r

/-- `x[r] <- c` (R7). -/
def State.setReg (s : State) (r : Reg) (c : Container) : State := { s with regs := s.regs.set r c }

/-! ## The wire buffer (R50 to R61) -/

/-- BUF_BYTES: addresses 0 … 255 (R31, R50). -/
def bufBytes : Nat := 256

/-- WIRE_BYTES: the length of the wire form (R5, R52). -/
def wireBytes : Nat := 15

/-- The byte written to address `a`, or `none` when nothing has been written there since power-up. -/
def Memory.lookup : Memory → Nat → Option Byte
  | [], _ => none
  | (k, v) :: m, a => if k = a then some v else Memory.lookup m a

/-- Write one byte, keeping the addresses in rising order without repeats. -/
def Memory.write : Memory → Nat → Byte → Memory
  | [], a, b => [(a, b)]
  | (k, v) :: m, a, b =>
    if a < k then (a, b) :: (k, v) :: m
    else if a = k then (a, b) :: m
    else (k, v) :: Memory.write m a b

/-- The canonical form of the buffer's contents: addresses strictly rising and inside the buffer. An unlisted address
holds no written byte, so no listed byte is what an unlisted address holds (log entry 3). -/
def Memory.wf : Memory → Bool
  | [] => true
  | [(k, _)] => k < bufBytes
  | (k, _) :: (k', v') :: m => k < k' && Memory.wf ((k', v') :: m)

/-- `BUF[a]`: the byte last written there, or the unknown power-up byte when none has been (R58 a, R231). -/
def State.byte (s : State) (a : Nat) : Byte := (Memory.lookup s.buf a).getD (Config.powerUpByte a)

/-- `BUF[a] <- b`; nothing else changes (R33, R61). -/
def State.setByte (s : State) (a : Nat) (b : Byte) : State := { s with buf := Memory.write s.buf a b }

/-- `MemRead(a, n)`: the bytes at `a … a + n - 1`, lowest address first (R53). -/
def State.memRead (s : State) (a n : Nat) : List Byte := (List.range n).map (fun j => s.byte (a + j))

/-- `MemWrite(a, n, bs)` with `n` the length of `bs`: the bytes go to `a, a + 1, …` in ascending order (R55). -/
def State.memWrite (s : State) (a : Nat) : List Byte → State
  | [] => s
  | b :: bs => (s.setByte a b).memWrite (a + 1) bs

/-- The region of `len` bytes at `addr` is inside the buffer: `addr + len ≤ 256`, never reduced modulo 256 (R56). -/
def insideBuffer (addr len : Byte) : Bool := addr.toNat + len.toNat ≤ bufBytes

/-! ## Taking a fault (R204) and leaving the faulted state (R208) -/

/-- `raise X(w)`: FAULT, CAUSE and FCMD are written and nothing else changes (R204). Control goes nowhere: the unit has no
handler, no saved program counter and no mode. -/
def State.raise (s : State) (x : Cause) (w : Word) : State := { s.setFault x.code with fcmd := w }

/-- `Reset()` (R34, R230), the only way out of the faulted state (R208): registers Zero, STATUS and FCMD 0, BUF unchanged.
What is the model's or the host's (`draws`, `pending`, `replies`) is untouched. -/
def State.resetUnit (s : State) : State :=
  { s with regs := Vector.replicate 16 0, status := 0, fcmd := 0 }

/-! ## Free values -/

/-- The next free value comes from the next draw. -/
def State.drawn (s : State) : State := { s with draws := s.draws + 1 }

/-- Hand a reading transaction's result to the host (R33). -/
def State.reply (s : State) (r : Reply) : State := { s with replies := s.replies ++ [r] }

end Sys2Proof.Machine
end

