-- ==== Sys2Proof/Machine/Field.lean ====
section
/-! DEFINITION. The field-level functions (R8): pure functions over valid elements, defined once and applied by the
commands. -/

namespace Sys2Proof.Machine

/-! ## Constants (R9) -/

/-- `Zero`, all bits 0. -/
def gfZero : Element := 0

/-- `One`, bits 0 to 112 all set: MASK113. -/
def gfOne : Element := BitVec.allOnes 113

/-! ## Validation and wire form (R101 to R103) -/

/-- `Verify(c)` (R101): fails with InvalidElement when any of the 15 reserved bits is set. -/
def verifyContainer (c : Container) : Except Cause Unit :=
  if isValid c then .ok () else .error .invalidElement

/-- The 120 bits of the wire form as one number: the element with its top 7 wire bits zero (R52). -/
def wireOf (e : Element) : BitVec 120 := e.setWidth 120

/-- The 15 bytes of a wire form, byte `j` being bits `8j + 7 : 8j` (R52). -/
def bytesOfWire (v : BitVec 120) : List Byte := (List.range wireBytes).map (fun j => v.extractLsb' (8 * j) 8)

/-- `Ser(e)` (R102): total, never fails. -/
def serialize (e : Element) : List Byte := bytesOfWire (wireOf e)

/-- The container assembled from a wire form, little-endian: bits `8j + 7 : 8j` are byte `j` (R103). -/
def assemble (bs : List Byte) : Container := bs.foldr (fun b c => (c <<< 8) ||| b.setWidth 128) 0

/-- `Deser(bs)` (R103): the length test first, the validity test second. -/
def deserialize (bs : List Byte) : Except Cause Container :=
  if bs.length ≠ wireBytes then .error .lengthMismatch
  else match verifyContainer (assemble bs) with
    | .ok () => .ok (assemble bs)
    | .error x => .error x

/-! ## The additive group (R120 to R125) -/

/-- `Add(a, b)`: XOR, characteristic 2. -/
def gfAdd (a b : Element) : Element := a ^^^ b
/-- `Subtract(a, b)`, identical to `Add`. -/
def gfSub (a b : Element) : Element := a ^^^ b
/-- `AddOne(a)`: XOR with the constant One. -/
def gfAddOne (a : Element) : Element := a ^^^ gfOne
/-- `SubtractOne(a)`: XOR with the constant One. -/
def gfSubOne (a : Element) : Element := a ^^^ gfOne

/-! ## Frobenius rotations (R130, R131) -/

/-- Cyclic left rotation of the 113-bit ring by one position (R130): bit 112 wraps to bit 0. It is `Square`. The type
holds 113 bits, so the shift's own truncation is the mask MASK113. -/
def rotl113 (v : Element) : Element := (v <<< 1) ||| (v >>> 112)

/-- Cyclic right rotation by one position (R131): bit 0 wraps to bit 112. It is `SquareRoot`. -/
def rotr113 (v : Element) : Element := (v >>> 1) ||| ((v &&& 1) <<< 112)

/-- `rotl113` applied `k` times: one rotation by `k` positions (R134, R160). -/
def rotlBy (k : Nat) (v : Element) : Element := v.rotateLeft k

/-- `rotr113` applied `k` times: one rotation by `k` positions (R134). -/
def rotrBy (k : Nat) (v : Element) : Element := v.rotateRight k

/-! ## The table-driven multiplier (R141) -/

/-- The terms `i, i + 1, …` of the product, one per remaining table row (R141): `A_i` is `a` rotated left `i` times, `M[t]` is
`b` rotated right `t` times. -/
def mulTerms (a b : Element) : Nat → List (Nat × Nat) → Element
  | _, [] => 0
  | i, (t, u) :: rows => (rotlBy i a &&& (rotrBy t b ^^^ rotrBy u b)) ^^^ mulTerms a b (i + 1) rows

/-- `Mul(a, b)` with the table MULTAB (R141). The term of row 0 has the one contributor `M[T0[0]]`; the sentinel T1[0] is not read
(R142). The two indices of a row are T0[i] and T1[i] in one order or the other, and `M[T0[i]] XOR M[T1[i]]` is the same. -/
def gfMul (tab : MulTable) (a b : Element) : Element := (a &&& rotrBy tab.first b) ^^^ mulTerms a b 1 tab.rows

/-! ## The inversion chain (R160) -/

/-- 112 in binary from the second most significant bit down: bit[1 … 6] of R160's table. -/
def chainBits : List Bool := [true, true, false, false, false, false]

/-- One iteration of the chain on (eta, k) for one bit of the table (R160): double, and if the bit is 1 square once and
multiply by `a`. -/
def chainStep (tab : MulTable) (a : Element) (s : Element × Nat) (bit : Bool) : Element × Nat :=
  let eta := gfMul tab (rotlBy s.2 s.1) s.1
  if bit then (gfMul tab (rotl113 eta) a, 2 * s.2 + 1) else (eta, 2 * s.2)

/-- `Inv(a)` as the chain computes it (R160), Zero included. -/
def chainInv (tab : MulTable) (a : Element) : Element := rotl113 (chainBits.foldl (chainStep tab a) (a, 1)).1

/-- `Inverse(a)` with parameter INV_ZERO (R164): for a non-zero element the chain's output; for Zero the chain's output or
the drawn element `fresh`. -/
def gfInv (tab : MulTable) (mode : InvZero) (fresh : Element) (a : Element) : Element :=
  if a = gfZero then
    match mode with
    | .chain => chainInv tab a
    | .draw => fresh
  else chainInv tab a

/-! ## The trace unit (R170) -/

/-- The XOR of bits 0 … n - 1 of `a`. -/
def parityBelow (a : Element) : Nat → Bool
  | 0 => false
  | n + 1 => parityBelow a n ^^ a.getLsbD n

/-- `Tr(a)` (R170): the parity of all 113 bits. -/
def gfTrace (a : Element) : Bool := parityBelow a 113

/-! ## The quadratic solvers (R181, R185) -/

/-- Bits 0 … n of the affine root (R181): `z[0] = QS_Z0`, then `z[n] = z[n-1] XOR β[n]`. -/
def rootUpTo (z0 : Bool) (β : Element) : Nat → Element
  | 0 => (BitVec.ofBool z0).setWidth 113
  | n + 1 =>
    let z := rootUpTo z0 β n
    z ||| ((BitVec.ofBool (z.getLsbD n ^^ β.getLsbD (n + 1))).setWidth 113 <<< (n + 1))

/-- `SolveAffine(β)` (R181), the solver of z² + z = β, with parameter QS_Z0. -/
def solveAffine (z0 : Bool) (β : Element) : Option Element :=
  if gfTrace β then none else some (rootUpTo z0 β 112)

/-- The constant `A·C / B²` of the normalised equation (R185). -/
def betaOf (tab : MulTable) (a b c : Element) : Element := gfMul tab (gfMul tab a c) (chainInv tab (rotl113 b))

/-- `SolveGeneral(A, B, C)` (R185), the solver of A·x² + B·x + C = 0. `Inv` is applied to A and to B² only after both have been
tested non-Zero, so INV_ZERO plays no part (U1). -/
def solveGeneral (tab : MulTable) (z0 : Bool) (a b c : Element) : Except Cause (Roots Element) :=
  if a = gfZero then .error .invalidArgument
  else if b = gfZero then .ok (.one (rotr113 (gfMul tab c (chainInv tab a))))
  else match solveAffine z0 (betaOf tab a b c) with
    | none => .ok .none
    | some z => .ok (.two (gfMul tab (gfMul tab b z) (chainInv tab a)) (gfMul tab (gfMul tab b (z ^^^ gfOne)) (chainInv tab a)))

/-! ## What determines the table's values (R144) -/

/-- λ(u, v) of R144: does basis[0] occur in basis[u]·basis[v]? -/
def lambda (u v : Nat) : Bool :=
  let p := (2 ^ u + 2 ^ v) % 227
  let m := (2 ^ u + 226 * 2 ^ v) % 227
  (p == 1 || p == 226) || (m == 1 || m == 226)

/-- row(i) of R144, its indices in rising order. -/
def tableRow (i : Nat) : List Nat := (List.range 113).filter (fun t => lambda ((113 - i) % 113) t)

/-- The table that R144 constructs: the smaller index of each row in T0, the larger in T1, the sentinel 0xFF in T1[0]. -/
def generatedTable : MulTable where
  first := (tableRow 0).headD 0
  rows := (List.range 112).map (fun i => ((tableRow (i + 1)).headD 0, (tableRow (i + 1)).getD 1 0))
  flipped := 0
  sentinel := 0xFF

end Sys2Proof.Machine
end

