-- ==== Sys2Proof/Machine/Operands.lean ====
section
/-! DEFINITION. Operand forms: reading a source register as an element (R23, R236), writing a result to a destination, and what
becomes of a result that no rule gives (log entry 7). -/

namespace Sys2Proof.Machine

/-! ## Source operands: all read, in full, before any destination is written (R236) -/

/-- The element in source register `r`; `none` when a reserved bit of its container is set, which no reachable state has
(R22). Field functions are defined on valid elements only (R8). -/
def State.element? (s : State) (r : Reg) : Option Element :=
  if isValid (s.reg r) then some (elementOf (s.reg r)) else none

/-- A field function of one source register. -/
def State.apply1 {α : Type} (s : State) (f : Element → α) (r : Reg) : Option α := (s.element? r).map f

/-- A field function of two source registers. -/
def State.apply2 {α : Type} (s : State) (f : Element → Element → α) (r1 r2 : Reg) : Option α :=
  match s.element? r1, s.element? r2 with
  | some a, some b => some (f a b)
  | _, _ => none

/-- A field function of three source registers. -/
def State.apply3 {α : Type} (s : State) (f : Element → Element → Element → α) (r1 r2 r3 : Reg) : Option α :=
  match s.element? r1, s.element? r2, s.element? r3 with
  | some a, some b, some c => some (f a b c)
  | _, _, _ => none

/-! ## Destination operands -/

/-- `x[rd] <-` the result of a field function; a free container where an operand was no valid element (U3). -/
def State.setResult (s : State) (rd : Reg) : Option Element → State
  | some e => s.setReg rd (containerOf e)
  | none => s.drawn.setReg rd (Config.freeContainer s.draws)

/-- `Inverse(a)` as INV and DIV use it, with the state after it: a Zero operand uses up one draw (R164). -/
def State.inverseOf (s : State) (a : Element) : Element × State :=
  (gfInv Config.multab Config.invZero (Config.freeElement s.draws) a, if a = gfZero then s.drawn else s)

/-- The outcome of the affine solver (R183): N tells how many roots there are, and without one `x[rd]` keeps its value. -/
def State.setRoot (s : State) (rd : Reg) : Option Container → State
  | none => s.setN 0
  | some x1 => (s.setReg rd x1).setN 1

/-- The outcome of the general solver (R186): a destination for which there is no root keeps its value (R180). -/
def State.setRoots (s : State) (rd rd2 : Reg) : Roots Container → State
  | .none => s.setN 0
  | .one x1 => (s.setReg rd x1).setN 1
  | .two x1 x2 => ((s.setReg rd x1).setReg rd2 x2).setN 2

/-- The roots in their containers. -/
def rootContainers : Roots Element → Roots Container
  | .none => .none
  | .one x1 => .one (containerOf x1)
  | .two x1 x2 => .two (containerOf x1) (containerOf x2)

/-- The 15 bytes that SER writes: the wire form of the element in `r`, free bytes where it is no valid element (U3). -/
def State.wireOfReg (s : State) (r : Reg) : List Byte :=
  match s.element? r with
  | some e => serialize e
  | none => bytesOfWire (Config.freeWire s.draws)

/-- The state after reading `r` for SER or TRACE: an invalid container uses up one draw. -/
def State.afterRead (s : State) (r : Reg) : State := if isValid (s.reg r) then s else s.drawn

/-- The trace bit of the element in `r`, a free bit where it is no valid element (U3). -/
def State.traceOfReg (s : State) (r : Reg) : Bool :=
  match s.element? r with
  | some e => gfTrace e
  | none => Config.freeTrace s.draws

end Sys2Proof.Machine
end

