-- ==== Sys2Proof/Machine/Additive.lean ====
section
/-! DEFINITION. The additive group: ADD, SUB, NEG, ADDONE, SUBONE (R120 to R125). -/

namespace Sys2Proof.Machine

/-- ADD rd, rs1, rs2 (R120). -/
def execAdd (rd rs1 rs2 : Reg) (s : State) : Result := .next (s.setResult rd (s.apply2 gfAdd rs1 rs2))

/-- SUB rd, rs1, rs2 (R121). -/
def execSub (rd rs1 rs2 : Reg) (s : State) : Result := .next (s.setResult rd (s.apply2 gfSub rs1 rs2))

/-- NEG rd, rs1 (R122): every element is its own negative; NEG and MOV leave the same state. -/
def execNeg (rd rs1 : Reg) (s : State) : Result := .next (s.setReg rd (s.reg rs1))

/-- ADDONE rd, rs1 (R123). -/
def execAddone (rd rs1 : Reg) (s : State) : Result := .next (s.setResult rd (s.apply1 gfAddOne rs1))

/-- SUBONE rd, rs1 (R124). -/
def execSubone (rd rs1 : Reg) (s : State) : Result := .next (s.setResult rd (s.apply1 gfSubOne rs1))

end Sys2Proof.Machine
end

