-- ==== Sys2Proof/Machine/Frobenius.lean ====
section
/-! DEFINITION. Frobenius rotations: SQR, SQRT (R132, R133). -/

namespace Sys2Proof.Machine

/-- SQR rd, rs1 (R132). -/
def execSqr (rd rs1 : Reg) (s : State) : Result := .next (s.setResult rd (s.apply1 rotl113 rs1))

/-- SQRT rd, rs1 (R133): every element has exactly one square root. -/
def execSqrt (rd rs1 : Reg) (s : State) : Result := .next (s.setResult rd (s.apply1 rotr113 rs1))

end Sys2Proof.Machine
end

