-- ==== Sys2Proof/Machine/Inversion.lean ====
section
/-! DEFINITION. The inversion chain: INV, DIV (R161, R162). Neither faults, for any operand, Zero included. -/

namespace Sys2Proof.Machine

/-- INV rd, rs1 (R161); Zero gives the value of R164. -/
def execInv (rd rs1 : Reg) (s : State) : Result :=
  .next (match s.element? rs1 with
    | some a => (s.inverseOf a).2.setReg rd (containerOf (s.inverseOf a).1)
    | none => s.setResult rd none)

/-- DIV rd, rs1, rs2 (R162): `Mul(x[rs1], Inv(x[rs2]))`; a Zero divisor is no fault. -/
def execDiv (rd rs1 rs2 : Reg) (s : State) : Result :=
  .next (match s.element? rs1, s.element? rs2 with
    | some a, some b => (s.inverseOf b).2.setReg rd (containerOf (gfMul Config.multab a (s.inverseOf b).1))
    | _, _ => s.setResult rd none)

end Sys2Proof.Machine
end

