-- ==== Sys2Proof/Machine/Multiply.lean ====
section
/-! DEFINITION. The table-driven multiplier: MUL (R146). -/

namespace Sys2Proof.Machine

/-- MUL rd, rs1, rs2 (R146). -/
def execMul (rd rs1 rs2 : Reg) (s : State) : Result := .next (s.setResult rd (s.apply2 (gfMul Config.multab) rs1 rs2))

end Sys2Proof.Machine
end

