-- ==== Sys2Proof/Machine/Quadratic.lean ====
section
/-! DEFINITION. The quadratic solvers: QSOLVE, QSOLVE3 (R183, R186). "No solution" is a normal outcome (R180). -/

namespace Sys2Proof.Machine

/-- QSOLVE rd, rs1 (R183). -/
def execQsolve (rd rs1 : Reg) (s : State) : Result :=
  .next (match s.apply1 (solveAffine Config.qsZ0) rs1 with
    | some r => s.setRoot rd (r.map containerOf)
    | none => s.drawn.setRoot rd (Config.freeRoot s.draws))

/-- QSOLVE3 rd, rd2, rs1, rs2, rs3 (R186). `rd = rd2` is an illegal word, which the decoder refuses (R76); A = Zero is
InvalidArgument before anything else is looked at. -/
def execQsolve3 (rd rd2 rs1 rs2 rs3 : Reg) (s : State) : Result :=
  .next (if rd = rd2 then s.raise .illegalCommand (encode (.qsolve3 rd rd2 rs1 rs2 rs3))
    else if s.reg rs1 = containerOf gfZero then s.raise .invalidArgument (encode (.qsolve3 rd rd2 rs1 rs2 rs3))
    else match s.apply3 (solveGeneral Config.multab Config.qsZ0) rs1 rs2 rs3 with
      | some (.ok roots) => s.setRoots rd rd2 (rootContainers roots)
      | some (.error x) => s.raise x (encode (.qsolve3 rd rd2 rs1 rs2 rs3))
      | none => s.drawn.setRoots rd rd2 (Config.freeRoots s.draws))

end Sys2Proof.Machine
end

