-- ==== Sys2Proof/Machine/Representation.lean ====
section
/-! DEFINITION. Representation, validation and wire form: ZERO, ONE, MOV, VERIFY, SER, DESER, EQ, ISZERO, ISONE (R100 to R111). -/

namespace Sys2Proof.Machine

/-- ZERO rd (R100). -/
def execZero (rd : Reg) (s : State) : Result := .next (s.setReg rd (containerOf gfZero))

/-- ONE rd (R110). -/
def execOne (rd : Reg) (s : State) : Result := .next (s.setReg rd (containerOf gfOne))

/-- MOV rd, rs1 (R111): the container is copied as it stands. -/
def execMov (rd rs1 : Reg) (s : State) : Result := .next (s.setReg rd (s.reg rs1))

/-- VERIFY rs1 (R104): InvalidElement when a reserved bit of the register is set, else no change. -/
def execVerify (rs1 : Reg) (s : State) : Result :=
  .next (match verifyContainer (s.reg rs1) with
    | .ok () => s
    | .error x => s.raise x (encode (.verify rs1)))

/-- SER r, addr, len (R105): the length test, then the range test, then exactly 15 bytes whatever `len` is. -/
def execSer (r : Reg) (addr len : Byte) (s : State) : Result :=
  .next (if len.toNat < wireBytes then s.raise .bufferTooSmall (encode (.ser r addr len))
    else if insideBuffer addr len then (s.afterRead r).memWrite addr.toNat (s.wireOfReg r)
    else s.raise .addressRange (encode (.ser r addr len)))

/-- DESER r, addr, len (R106): length, range, validity, in that order; on a fault `x[r]` keeps its value. -/
def execDeser (r : Reg) (addr len : Byte) (s : State) : Result :=
  .next (if len.toNat ≠ wireBytes then s.raise .lengthMismatch (encode (.deser r addr len))
    else if insideBuffer addr len then
      match deserialize (s.memRead addr.toNat wireBytes) with
      | .ok c => s.setReg r c
      | .error x => s.raise x (encode (.deser r addr len))
    else s.raise .addressRange (encode (.deser r addr len)))

/-- EQ rs1, rs2 (R107): equality of all 128 container bits. -/
def execEq (rs1 rs2 : Reg) (s : State) : Result := .next (s.setP (s.reg rs1 == s.reg rs2))

/-- ISZERO rs1 (R108). -/
def execIszero (rs1 : Reg) (s : State) : Result := .next (s.setP (s.reg rs1 == containerOf gfZero))

/-- ISONE rs1 (R109): One is the element with bits 0 to 112 set, not the integer 1. -/
def execIsone (rs1 : Reg) (s : State) : Result := .next (s.setP (s.reg rs1 == containerOf gfOne))

end Sys2Proof.Machine
end

