-- ==== Sys2Proof/Machine/Trace.lean ====
section
/-! DEFINITION. The trace unit: TRACE (R171). -/

namespace Sys2Proof.Machine

/-- TRACE rs1 (R171): the result goes to flag T; no register is written. -/
def execTrace (rs1 : Reg) (s : State) : Result := .next ((s.afterRead rs1).setT (s.traceOfReg rs1))

end Sys2Proof.Machine
end

