-- ==== Sys2Proof/Machine/Dispatch.lean ====
section
/-! DEFINITION. The dispatch: one arm per command, each one direct call of its meaning (R77 step 4). -/

namespace Sys2Proof.Machine

def exec (i : Instr) (s : State) : Host.Outcome State Fault Refusal :=
  match i with
  | .zero rd => Sys2Proof.Machine.execZero rd s
  | .one rd => Sys2Proof.Machine.execOne rd s
  | .mov rd rs1 => Sys2Proof.Machine.execMov rd rs1 s
  | .verify rs1 => Sys2Proof.Machine.execVerify rs1 s
  | .ser r addr len => Sys2Proof.Machine.execSer r addr len s
  | .deser r addr len => Sys2Proof.Machine.execDeser r addr len s
  | .eq rs1 rs2 => Sys2Proof.Machine.execEq rs1 rs2 s
  | .iszero rs1 => Sys2Proof.Machine.execIszero rs1 s
  | .isone rs1 => Sys2Proof.Machine.execIsone rs1 s
  | .add rd rs1 rs2 => Sys2Proof.Machine.execAdd rd rs1 rs2 s
  | .sub rd rs1 rs2 => Sys2Proof.Machine.execSub rd rs1 rs2 s
  | .neg rd rs1 => Sys2Proof.Machine.execNeg rd rs1 s
  | .addone rd rs1 => Sys2Proof.Machine.execAddone rd rs1 s
  | .subone rd rs1 => Sys2Proof.Machine.execSubone rd rs1 s
  | .sqr rd rs1 => Sys2Proof.Machine.execSqr rd rs1 s
  | .sqrt rd rs1 => Sys2Proof.Machine.execSqrt rd rs1 s
  | .mul rd rs1 rs2 => Sys2Proof.Machine.execMul rd rs1 rs2 s
  | .inv rd rs1 => Sys2Proof.Machine.execInv rd rs1 s
  | .div rd rs1 rs2 => Sys2Proof.Machine.execDiv rd rs1 rs2 s
  | .trace rs1 => Sys2Proof.Machine.execTrace rs1 s
  | .qsolve rd rs1 => Sys2Proof.Machine.execQsolve rd rs1 s
  | .qsolve3 rd rd2 rs1 rs2 rs3 => Sys2Proof.Machine.execQsolve3 rd rd2 rs1 rs2 rs3 s

end Sys2Proof.Machine
end

