-- ==== Sys2Proof/Machine/Transactions.lean ====
section
/-! DEFINITION. What each of the host's transactions does (R33), `Issue` as R77 writes it. -/

namespace Sys2Proof.Machine

/-- `Issue(w)` (R77): a faulted unit discards `w` undecoded (R205); a word that is no command raises IllegalCommand (R76);
otherwise the command is performed. -/
def issue (w : Word) (s : State) : Result :=
  if s.flagFault = 1 then .next s
  else match decode w with
    | .ok i => exec i s
    | .error _ => .next (s.raise .illegalCommand w)

/-- One transaction of the host (R33). The reading ones have no side effect but the reply; all but `Issue` work as always on a
faulted unit (R205). -/
def transact (t : Transaction) (s : State) : Result :=
  match t with
  | .issue w => issue w s
  | .readStatus => .next (s.reply (.status s.status))
  | .readFcmd => .next (s.reply (.fcmd s.fcmd))
  | .bufRead a => .next (s.reply (.byte (s.byte a.toNat)))
  | .bufWrite a b => .next (s.setByte a.toNat b)
  | .reset => .next s.resetUnit

/-- The state with the host's next transaction taken off its list. -/
def State.take (s : State) : State := { s with pending := s.pending.tail }

/-- One step: the host's next transaction, from beginning to end (R57, R235); with none to come, nothing happens (R33, log
entry 2). -/
def advance (s : State) : Result :=
  match s.pending with
  | [] => .next s
  | t :: _ => transact t s.take

end Sys2Proof.Machine
end

