-- ==== Sys2Proof/Machine/Step.lean ====
section
/-! DEFINITION. The step, and where a command stands for the next step to run it. -/

namespace Sys2Proof.Machine

/-- One step of the machine: one transaction of the host (R33, R57). -/
def step (s : State) : Host.Outcome State Fault Refusal := advance s

/-- The state in which the host's next transaction is `Issue` of the table word `w`. The unit fetches nothing (R24): a program
comes from the host, command by command (log entry 2). -/
def State.withFetchWord (s : State) (nbits w : Nat) : State :=
  { s with pending := .issue (tableWord nbits w) :: s.pending }

end Sys2Proof.Machine
end

