-- ==== Sys2Proof/Machine/Assembly.lean ====
section
/-! DEFINITION. The assembler's text (R79, R80): a command's line, and the command of a line. It is no part of a step. -/

namespace Sys2Proof.Machine

/-! ## A command's line -/

/-- A register in assembly: E0 … E15. -/
def regText (r : Reg) : List Char := 'E' :: (Nat.toDigits 10 r.val)

/-- An immediate in decimal. -/
def immText (v : Byte) : List Char := Nat.toDigits 10 v.toNat

/-- Operands separated by commas. -/
def operandText : List (List Char) → List Char
  | [] => []
  | [x] => x
  | x :: xs => x ++ [',', ' '] ++ operandText xs

/-- The mnemonic of a command (R74) and its operands in the assembler's order (R79). -/
def assemblyParts : Instr → String × List (List Char)
  | .zero rd => ("ZERO", [regText rd])
  | .one rd => ("ONE", [regText rd])
  | .mov rd rs1 => ("MOV", [regText rd, regText rs1])
  | .verify rs1 => ("VERIFY", [regText rs1])
  | .ser r addr len => ("SER", [regText r, immText addr, immText len])
  | .deser r addr len => ("DESER", [regText r, immText addr, immText len])
  | .eq rs1 rs2 => ("EQ", [regText rs1, regText rs2])
  | .iszero rs1 => ("ISZERO", [regText rs1])
  | .isone rs1 => ("ISONE", [regText rs1])
  | .add rd rs1 rs2 => ("ADD", [regText rd, regText rs1, regText rs2])
  | .sub rd rs1 rs2 => ("SUB", [regText rd, regText rs1, regText rs2])
  | .neg rd rs1 => ("NEG", [regText rd, regText rs1])
  | .addone rd rs1 => ("ADDONE", [regText rd, regText rs1])
  | .subone rd rs1 => ("SUBONE", [regText rd, regText rs1])
  | .sqr rd rs1 => ("SQR", [regText rd, regText rs1])
  | .sqrt rd rs1 => ("SQRT", [regText rd, regText rs1])
  | .mul rd rs1 rs2 => ("MUL", [regText rd, regText rs1, regText rs2])
  | .inv rd rs1 => ("INV", [regText rd, regText rs1])
  | .div rd rs1 rs2 => ("DIV", [regText rd, regText rs1, regText rs2])
  | .trace rs1 => ("TRACE", [regText rs1])
  | .qsolve rd rs1 => ("QSOLVE", [regText rd, regText rs1])
  | .qsolve3 rd rd2 rs1 rs2 rs3 =>
    ("QSOLVE3", [regText rd, regText rd2, regText rs1, regText rs2, regText rs3])

/-- The line of a command: the mnemonic, a space, the operands (R79). -/
def assemblyText (i : Instr) : List Char :=
  (assemblyParts i).1.toList ++ [' '] ++ operandText (assemblyParts i).2

/-! ## The command of a line -/

/-- The value of a digit in base 16; both cases of the letters (log entry 9). -/
def digitValue (c : Char) : Option Nat :=
  if '0' ≤ c ∧ c ≤ '9' then some (c.toNat - 48)
  else if 'A' ≤ c ∧ c ≤ 'F' then some (c.toNat - 55)
  else if 'a' ≤ c ∧ c ≤ 'f' then some (c.toNat - 87)
  else none

/-- The rest of a number in a base, `acc` being what has been read. -/
def readDigits (base : Nat) : Nat → List Char → Option Nat
  | acc, [] => some acc
  | acc, c :: cs =>
    match digitValue c with
    | some d => if d < base then readDigits base (acc * base + d) cs else none
    | none => none

/-- An immediate: decimal, or hexadecimal with the prefix `0x`; 8 bits (R73, R79). -/
def readImm (cs : List Char) : Option Byte :=
  let n := match cs with
    | [] => none
    | ['0', 'x'] => none
    | '0' :: 'x' :: ds => readDigits 16 0 ds
    | ds => readDigits 10 0 ds
  match n with
  | some v => if v < 256 then some (BitVec.ofNat 8 v) else none
  | none => none

/-- A register written E0 … E15. -/
def readReg (cs : List Char) : Option Reg := (List.finRange 16).find? (fun r => regText r == cs)

/-- The text before the comment, if any (R79). -/
def uncomment (cs : List Char) : List Char := cs.takeWhile (· != ';')

/-- The text without the spaces at its two ends. -/
def trim (cs : List Char) : List Char := ((cs.dropWhile (· == ' ')).reverse.dropWhile (· == ' ')).reverse

/-- The pieces of a text between its commas. -/
def splitCommas : List Char → List (List Char)
  | [] => [[]]
  | c :: cs =>
    match splitCommas cs with
    | [] => [[c]]
    | x :: xs => if c == ',' then [] :: x :: xs else (c :: x) :: xs

/-- A command from its mnemonic and its operands' texts (R79); SER15 is the one pseudo-instruction (R80). DESIGN CHOICE: a QSOLVE3 with
equal destinations is read as its command term, which is not well-formed and whose word is illegal (R76); R79 is silent on
whether an assembler refuses the line (log entry 9). -/
def readCommand (mnemonic : String) (ops : List (List Char)) : Option Instr :=
  match ops with
  | [a] =>
    match readReg a with
    | some a =>
      if mnemonic = "ZERO" then some (.zero a) else if mnemonic = "ONE" then some (.one a)
      else if mnemonic = "VERIFY" then some (.verify a) else if mnemonic = "ISZERO" then some (.iszero a)
      else if mnemonic = "ISONE" then some (.isone a) else if mnemonic = "TRACE" then some (.trace a) else none
    | none => none
  | [a, b] =>
    match readReg a, readReg b, readImm b with
    | some a, some b, _ =>
      if mnemonic = "MOV" then some (.mov a b) else if mnemonic = "NEG" then some (.neg a b)
      else if mnemonic = "ADDONE" then some (.addone a b) else if mnemonic = "SUBONE" then some (.subone a b)
      else if mnemonic = "SQR" then some (.sqr a b) else if mnemonic = "SQRT" then some (.sqrt a b)
      else if mnemonic = "INV" then some (.inv a b) else if mnemonic = "QSOLVE" then some (.qsolve a b)
      else if mnemonic = "EQ" then some (.eq a b) else none
    | some a, none, some v => if mnemonic = "SER15" then some (.ser15 a v) else none
    | _, _, _ => none
  | [a, b, c] =>
    match readReg a, readReg b, readReg c, readImm b, readImm c with
    | some a, some b, some c, _, _ =>
      if mnemonic = "ADD" then some (.add a b c) else if mnemonic = "SUB" then some (.sub a b c)
      else if mnemonic = "MUL" then some (.mul a b c) else if mnemonic = "DIV" then some (.div a b c) else none
    | some a, none, none, some v, some n =>
      if mnemonic = "SER" then some (.ser a v n) else if mnemonic = "DESER" then some (.deser a v n) else none
    | _, _, _, _, _ => none
  | [a, b, c, d, e] =>
    match readReg a, readReg b, readReg c, readReg d, readReg e with
    | some a, some b, some c, some d, some e =>
      if mnemonic = "QSOLVE3" then some (.qsolve3 a b c d e) else none
    | _, _, _, _, _ => none
  | _ => none

/-- The command of a line of assembly (R79), `none` for a line that is none. -/
def assembleLine (line : List Char) : Option Instr :=
  let cs := trim (uncomment line)
  readCommand (String.ofList (cs.takeWhile (· != ' '))) ((splitCommas (cs.dropWhile (· != ' '))).map trim)

end Sys2Proof.Machine
end

