-- ==== Sys2Proof/Safety.lean ====
section
/-! DEFINITION. The terms in which claims are stated: the invariant of reachable states, a healthy unit, and what a command
leaves unchanged. -/

namespace Sys2Proof.Machine

/-- Every register is a valid element (R22). -/
abbrev State.regsValid (s : State) : Prop := ∀ r : Reg, isValid (s.reg r) = true

/-- STATUS and FCMD agree with each other and with R25, R28, R29 and R201: N is never 3; bits 31:8 are 0; while FAULT = 0 both
CAUSE and FCMD are 0; while FAULT = 1 CAUSE is one of the codes 1 to 6. -/
abbrev State.statusLegal (s : State) : Prop :=
  s.fieldN ≠ 3 ∧ s.statusRest = 0 ∧ (s.flagFault = 0 → s.fieldCause = 0 ∧ s.fcmd = 0) ∧
    (s.flagFault = 1 → s.fieldCause ≠ 0 ∧ s.fieldCause ≠ 7)

/-- The invariant of every state that transactions can reach from reset: valid registers, a legal STATUS, and the buffer in its
canonical form with every address inside 0 … 255. -/
abbrev State.Inv (s : State) : Prop := s.regsValid ∧ s.statusLegal ∧ Memory.wf s.buf = true

/-- A unit on which no command has failed since reset; a state with FAULT = 1 is never a good final state (R205). -/
abbrev State.healthy (s : State) : Prop := s.flagFault = 0

/-- Every byte of BUF reads as before. -/
abbrev sameBuf (s t : State) : Prop := ∀ a : Nat, t.byte a = s.byte a

/-- Every register reads as before. -/
abbrev sameRegs (s t : State) : Prop := ∀ r : Reg, t.reg r = s.reg r

/-- Every register but `rd` reads as before. -/
abbrev sameRegsBut (rd : Reg) (s t : State) : Prop := ∀ r : Reg, r ≠ rd → t.reg r = s.reg r

/-- The host's side of the port is as before: no command reads or writes it. -/
abbrev samePort (s t : State) : Prop := t.pending = s.pending ∧ t.replies = s.replies

/-- STATUS and FCMD, all of both, are as before. -/
abbrev sameStatus (s t : State) : Prop := t.status = s.status ∧ t.fcmd = s.fcmd

/-- The frame of a command that writes the one register `rd` and nothing else: every other register, STATUS and FCMD whole,
every byte of BUF and the host's side are as before. -/
abbrev onlyReg (rd : Reg) (s t : State) : Prop :=
  sameRegsBut rd s t ∧ sameStatus s t ∧ sameBuf s t ∧ samePort s t

/-- Every field of STATUS but T is as before, and so is FCMD. -/
abbrev statusButT (s t : State) : Prop :=
  t.flagP = s.flagP ∧ t.fieldN = s.fieldN ∧ t.flagFault = s.flagFault ∧ t.fieldCause = s.fieldCause ∧
    t.statusRest = s.statusRest ∧ t.fcmd = s.fcmd

/-- Every field of STATUS but P is as before, and so is FCMD. -/
abbrev statusButP (s t : State) : Prop :=
  t.flagT = s.flagT ∧ t.fieldN = s.fieldN ∧ t.flagFault = s.flagFault ∧ t.fieldCause = s.fieldCause ∧
    t.statusRest = s.statusRest ∧ t.fcmd = s.fcmd

/-- Every field of STATUS but N is as before, and so is FCMD. -/
abbrev statusButN (s t : State) : Prop :=
  t.flagT = s.flagT ∧ t.flagP = s.flagP ∧ t.flagFault = s.flagFault ∧ t.fieldCause = s.fieldCause ∧
    t.statusRest = s.statusRest ∧ t.fcmd = s.fcmd

/-- `t` is `s` after taking fault `x` on command word `w` (R204): FAULT is 1, CAUSE is the code of `x`, FCMD is `w`, and no register,
no byte of BUF, none of the flags T, P, N and nothing of the host's side has changed. -/
abbrev tookFault (x : Cause) (w : Word) (s t : State) : Prop :=
  t.flagFault = 1 ∧ t.fieldCause = x.code ∧ t.fcmd = w ∧ t.flagT = s.flagT ∧ t.flagP = s.flagP ∧ t.fieldN = s.fieldN ∧
    t.statusRest = s.statusRest ∧ sameRegs s t ∧ sameBuf s t ∧ samePort s t

/-- The frame of a solver: STATUS but N, FCMD, every byte of BUF and the host's side are as before; the registers are spoken of
apart. -/
abbrev onlyRegsAndN (s t : State) : Prop := statusButN s t ∧ sameBuf s t ∧ samePort s t

/-! ## The spec's tables, as claims use them -/

/-- The opcode map as R74 prints it: mnemonic, match, mask. -/
def opcodeTableR74 : List (String × Word × Word) :=
  [ ("ZERO", 0x10000000, 0xFF0FFFFF), ("ONE", 0x11000000, 0xFF0FFFFF), ("MOV", 0x12000000, 0xFF00FFFF),
    ("VERIFY", 0x13000000, 0xFFF0FFFF), ("SER", 0x14000000, 0xFF00000F), ("DESER", 0x15000000, 0xFF00000F),
    ("EQ", 0x16000000, 0xFFF00FFF), ("ISZERO", 0x17000000, 0xFFF0FFFF), ("ISONE", 0x18000000, 0xFFF0FFFF),
    ("ADD", 0x20000000, 0xFF000FFF), ("SUB", 0x21000000, 0xFF000FFF), ("NEG", 0x22000000, 0xFF00FFFF) ] ++
  [ ("ADDONE", 0x23000000, 0xFF00FFFF), ("SUBONE", 0x24000000, 0xFF00FFFF), ("SQR", 0x30000000, 0xFF00FFFF),
    ("SQRT", 0x31000000, 0xFF00FFFF), ("MUL", 0x40000000, 0xFF000FFF), ("INV", 0x50000000, 0xFF00FFFF),
    ("DIV", 0x51000000, 0xFF000FFF), ("TRACE", 0x60000000, 0xFFF0FFFF), ("QSOLVE", 0x70000000, 0xFF00FFFF),
    ("QSOLVE3", 0x71000000, 0xFF00000F) ]

/-- The mnemonic of a command. -/
def mnemonicOf (i : Instr) : String := (assemblyParts i).1

/-- An illegal word (R76): it matches no row of R74, or it matches the QSOLVE3 row and its two destinations are the same. -/
def illegalWord (w : Word) : Prop :=
  (∀ row ∈ opcodeTableR74, w &&& row.2.2 ≠ row.2.1) ∨
    (w &&& 0xFF00000F = 0x71000000 ∧ w.extractLsb' 20 4 = w.extractLsb' 4 4)

/-- When a decoded command raises which fault, row by row of R202, the earlier checks of R203 having passed. No other command
raises anything. -/
def faultCondition (s : State) (i : Instr) (x : Cause) : Prop :=
  match i, x with
  | .ser _ _ len, .bufferTooSmall => len.toNat < 15
  | .ser _ addr len, .addressRange => 15 ≤ len.toNat ∧ 256 < addr.toNat + len.toNat
  | .deser _ _ len, .lengthMismatch => len.toNat ≠ 15
  | .deser _ addr len, .addressRange => len.toNat = 15 ∧ 256 < addr.toNat + 15
  | .deser _ addr len, .invalidElement =>
    len.toNat = 15 ∧ addr.toNat + 15 ≤ 256 ∧ s.byte (addr.toNat + 14) &&& 0xFE ≠ 0
  | .verify rs1, .invalidElement => (s.reg rs1).extractLsb' 113 15 ≠ 0
  | .qsolve3 _ _ rs1 _ _, .invalidArgument => s.reg rs1 = 0
  | _, _ => False

/-- The registers that a command reads (R23). -/
def sourcesOf : Instr → List Reg
  | .zero _ | .one _ | .deser _ _ _ => []
  | .mov _ a | .neg _ a | .addone _ a | .subone _ a | .sqr _ a | .sqrt _ a | .inv _ a | .qsolve _ a => [a]
  | .add _ a b | .sub _ a b | .mul _ a b | .div _ a b | .eq a b => [a, b]
  | .verify a | .iszero a | .isone a | .trace a | .ser a _ _ => [a]
  | .qsolve3 _ _ a b c => [a, b, c]

/-- The registers that a command may write (R23). -/
def destinationsOf : Instr → List Reg
  | .zero d | .one d | .mov d _ | .neg d _ | .addone d _ | .subone d _ | .sqr d _ | .sqrt d _ | .inv d _ | .qsolve d _ => [d]
  | .add d _ _ | .sub d _ _ | .mul d _ _ | .div d _ _ | .deser d _ _ => [d]
  | .verify _ | .iszero _ | .isone _ | .trace _ | .eq _ _ | .ser _ _ _ => []
  | .qsolve3 d d2 _ _ _ => [d, d2]

/-- How many of bits 0 to 112 of an element are 1. -/
def onesOf (a : Element) : Nat := (List.range 113).countP (fun i => a.getLsbD i)

/-- The element with only bit `i` set, basis vector `i`. -/
def basis (i : Nat) : Element := 1 <<< i

/-- `a` to the power `n` in the field. -/
def gfPow (tab : MulTable) (a : Element) : Nat → Element
  | 0 => gfOne
  | n + 1 => gfMul tab (gfPow tab a n) a

/-! ## Which command writes which field of STATUS (R26, R27, R28) -/

/-- TRACE writes T, and no other command does (R26). -/
def writesT (i : Instr) : Prop := ∃ a, i = .trace a

/-- EQ, ISZERO and ISONE write P, and no other command does (R27). -/
def writesP (i : Instr) : Prop := (∃ a b, i = .eq a b) ∨ (∃ a, i = .iszero a) ∨ ∃ a, i = .isone a

/-- QSOLVE and QSOLVE3 write N, unless they raise a fault, and no other command does (R28, R204). -/
def writesN (i : Instr) : Prop := (∃ d a, i = .qsolve d a) ∨ ∃ d d2 a b c, i = .qsolve3 d d2 a b c

/-- `exec` takes a fault: by a row of R202, or on a term that is no legal command (log entry 10). -/
def raisesFault (s : State) (i : Instr) : Prop := i.wellFormed = false ∨ ∃ x, faultCondition s i x

/-- Of two runs from `s` to `t` and from `s'` to `t'`: a part `f` of the state that is written is the same in both, and one that is
not is that of its own start state. -/
def writtenOrKept {α : Type} (written : Prop) (f : State → α) (s s' t t' : State) : Prop :=
  (written → f t' = f t) ∧ (¬ written → f t = f s ∧ f t' = f s')

/-- A run that raises no fault: after each of the first `n` steps the unit is healthy. -/
def safeRun : Nat → State → Prop
  | 0, s => s.healthy
  | n + 1, s => s.healthy ∧ ∃ t, step s = .next t ∧ safeRun n t

end Sys2Proof.Machine
end

