-- ==== Sys2Proof/Certificates/Slice0/Obligations.lean ====
section
/-! DEFINITION. The statements for the provers, one per numbered rule or group of rules of the spec. -/

open Sys2Proof Sys2Proof.Machine

/-! ## Reset, the host's transactions, issuing a command -/

/-- R34: the state that `Reset()` leaves, as the state after reset and as what the transaction does in any state, a faulted one
included; BUF is untouched, and a byte never written reads as its one unknown power-up value. -/
def Obligations.ResetPutsEveryPieceOfStateAtItsResetValue : Prop :=
  ((∀ r, State.reset.reg r = 0) ∧ State.reset.status = 0 ∧ State.reset.fcmd = 0 ∧ State.reset.faultOut = false ∧
    (∀ a, State.reset.byte a = Config.powerUpByte a)) ∧
  ∀ (s : State) (rest : List Transaction), s.pending = .reset :: rest →
    ∃ t, step s = .next t ∧ (∀ r, t.reg r = 0) ∧ t.status = 0 ∧ t.fcmd = 0 ∧ t.faultOut = false ∧ sameBuf s t

/-- R77: a step runs the decoded command. The host's next transaction is taken off its list (the list is the model's, log entry 2), and
the rest of the step is `exec`. -/
def Obligations.StepRunsTheDecodedCommand : Prop :=
  ∀ (s : State) (w : Word) (rest : List Transaction) (i : Instr),
    s.pending = .issue w :: rest → s.flagFault = 0 → decode w = .ok i →
      step s = exec i { s with pending := rest }

/-- R76: on a unit that is not faulted an illegal word raises IllegalCommand and changes nothing else; the all-zero and the all-ones
word are illegal. -/
def Obligations.IllegalWordsRaiseIllegalCommand : Prop :=
  (illegalWord 0x00000000 ∧ illegalWord 0xFFFFFFFF) ∧
  ∀ (s : State) (w : Word) (rest : List Transaction),
    s.pending = .issue w :: rest → s.flagFault = 0 → illegalWord w →
      ∃ t, step s = .next t ∧ tookFault .illegalCommand w { s with pending := rest } t

/-- R205: a faulted unit discards every word, undecoded; the host's reads and buffer writes work as always. -/
def Obligations.FaultedUnitDiscardsEveryCommand : Prop :=
  ∀ (s : State) (t : Transaction) (rest : List Transaction), s.pending = t :: rest → s.flagFault = 1 →
    match t with
    | .issue _ => step s = .next { s with pending := rest }
    | .readStatus => step s = .next { s with pending := rest, replies := s.replies ++ [.status s.status] }
    | .readFcmd => step s = .next { s with pending := rest, replies := s.replies ++ [.fcmd s.fcmd] }
    | .bufRead a => step s = .next { s with pending := rest, replies := s.replies ++ [.byte (s.byte a.toNat)] }
    | .bufWrite a b =>
      ∃ u, step s = .next u ∧ u.byte a.toNat = b ∧ (∀ a', a' ≠ a.toNat → u.byte a' = s.byte a') ∧ sameRegs s u ∧
        sameStatus s u ∧ u.pending = rest ∧ u.replies = s.replies
    | .reset => ∃ u, step s = .next u ∧ u.flagFault = 0

/-- R208, along a whole run: without a `Reset()` among the host's transactions a faulted unit keeps its registers, STATUS and FCMD for
ever; a `Reset()` clears FAULT, CAUSE and FCMD. -/
def Obligations.OnlyResetLeavesTheFaultedState : Prop :=
  (∀ (k : Nat) (s t : State), s.flagFault = 1 → .reset ∉ s.pending → Host.Core.run Sys2Proof.core k s = .next t →
    t.flagFault = 1 ∧ sameRegs s t ∧ sameStatus s t) ∧
  ∀ (s : State) (rest : List Transaction), s.flagFault = 1 → s.pending = .reset :: rest →
    ∃ t, step s = .next t ∧ t.flagFault = 0 ∧ t.fieldCause = 0 ∧ t.fcmd = 0

/-- R33: what each of the host's transactions does, `Issue` as R77 says, that the reading ones have no side effect, and that the output level
`fault_out` equals STATUS.FAULT. That a step with no transaction to come leaves the state as it is is the model's reading of "in no other
way" (DEDUCED), and the lists `pending` and `replies` are the model's own (DESIGN CHOICE): log entry 2. -/
def Obligations.TransactionsDoWhatTheHostIsPromised : Prop :=
  (∀ s : State, s.pending = [] → step s = .next s) ∧
  ∀ (s : State) (rest : List Transaction),
    (∀ w, s.pending = .issue w :: rest →
      (s.flagFault = 1 → step s = .next { s with pending := rest }) ∧
      (∀ i, s.flagFault = 0 → decode w = .ok i → step s = exec i { s with pending := rest }) ∧
      (s.flagFault = 0 → illegalWord w →
        ∃ t, step s = .next t ∧ tookFault .illegalCommand w { s with pending := rest } t)) ∧
    (s.pending = .readStatus :: rest →
      step s = .next { s with pending := rest, replies := s.replies ++ [.status s.status] }) ∧
    (s.pending = .readFcmd :: rest → step s = .next { s with pending := rest, replies := s.replies ++ [.fcmd s.fcmd] }) ∧
    (∀ a, s.pending = .bufRead a :: rest →
      step s = .next { s with pending := rest, replies := s.replies ++ [.byte (s.byte a.toNat)] }) ∧
    (∀ a b, s.pending = .bufWrite a b :: rest →
      ∃ t, step s = .next t ∧ t.byte a.toNat = b ∧ (∀ a', a' ≠ a.toNat → t.byte a' = s.byte a') ∧ sameRegs s t ∧
        sameStatus s t ∧ t.pending = rest ∧ t.replies = s.replies) ∧
    (s.faultOut = true ↔ s.flagFault = 1) ∧
    (s.pending = .reset :: rest →
      ∃ t, step s = .next t ∧ sameRegs State.reset t ∧ sameStatus State.reset t ∧ sameBuf s t ∧ t.pending = rest ∧
        t.replies = s.replies)

/-! ## Encoding -/

/-- R74: a decoded command's word matches the row of its mnemonic; a word that matches a row decodes to that row's command, but for a
QSOLVE3 with equal destinations; and no word matches two rows. -/
def Obligations.DecodeFollowsTheOpcodeMap : Prop :=
  (∀ (w : Word) (i : Instr), decode w = .ok i →
    ∃ row ∈ opcodeTableR74, row.1 = mnemonicOf i ∧ w &&& row.2.2 = row.2.1) ∧
  (∀ w : Word, ∀ row ∈ opcodeTableR74, w &&& row.2.2 = row.2.1 →
    (∃ i, decode w = .ok i ∧ mnemonicOf i = row.1) ∨
      (decode w = .error .sameDestinations ∧ row.1 = "QSOLVE3" ∧ rdOf w = rd2Of w)) ∧
  ∀ w : Word, ∀ row ∈ opcodeTableR74, ∀ row' ∈ opcodeTableR74, w &&& row.2.2 = row.2.1 → w &&& row'.2.2 = row'.2.1 → row = row'

/-- Decode and encode agree on every legal command, every operand at every value. -/
def Obligations.DecodeOfEncodeIsTheCommand : Prop :=
  ∀ i : Instr, i.wellFormed = true → decode (encode i) = .ok i

/-- R75: a word whose opcode selects a command and whose unused fields are not all zero is refused; encode and decode agree on every legal
word, so each command has exactly one encoding for each choice of its operands. -/
def Obligations.EncodeOfDecodeIsTheWord : Prop :=
  (∀ w : Word, ∀ row ∈ opcodeTableR74, opcodeOf w = opcodeOf row.2.1 → w &&& row.2.2 ≠ row.2.1 →
    decode w = .error .nonzeroUnusedField) ∧
  (∀ (w : Word) (i : Instr), decode w = .ok i → i.wellFormed = true ∧ encode i = w) ∧
  ∀ (w w' : Word) (i : Instr), decode w = .ok i → decode w' = .ok i → w = w'

/-- The worked encodings of R79, from the assembler's line to the word and from the word to the command. -/
def Obligations.WorkedEncodingsDecode : Prop :=
  (assembleLine "ADD E3, E1, E2".toList = some (.add 3 1 2) ∧ encode (.add 3 1 2) = 0x20312000 ∧
    decode 0x20312000 = .ok (.add 3 1 2)) ∧
  (assembleLine "ZERO E7".toList = some (.zero 7) ∧ encode (.zero 7) = 0x10700000 ∧ decode 0x10700000 = .ok (.zero 7)) ∧
  (assembleLine "DESER E1, 0x10, 15".toList = some (.deser 1 0x10 15) ∧ encode (.deser 1 0x10 15) = 0x151100F0 ∧
    decode 0x151100F0 = .ok (.deser 1 0x10 15)) ∧
  (assembleLine "SER E3, 0x40, 15".toList = some (.ser 3 0x40 15) ∧ encode (.ser 3 0x40 15) = 0x143400F0 ∧
    decode 0x143400F0 = .ok (.ser 3 0x40 15)) ∧
  (assembleLine "QSOLVE3 E4, E5, E1, E2, E3".toList = some (.qsolve3 4 5 1 2 3) ∧
    encode (.qsolve3 4 5 1 2 3) = 0x71412350 ∧ decode 0x71412350 = .ok (.qsolve3 4 5 1 2 3)) ∧
  (assembleLine "TRACE E9".toList = some (.trace 9) ∧ encode (.trace 9) = 0x60090000 ∧ decode 0x60090000 = .ok (.trace 9)) ∧
  (assembleLine "EQ E2, E10".toList = some (.eq 2 10) ∧ encode (.eq 2 10) = 0x1602A000 ∧
    decode 0x1602A000 = .ok (.eq 2 10))

/-! ## Representation -/

/-- R100, R110: ZERO and ONE write the constants, whatever the destination held, and nothing else changes. -/
def Obligations.ZeroAndOneWriteTheConstants : Prop :=
  ∀ (rd : Reg) (s : State),
    (∃ t, exec (.zero rd) s = .next t ∧ t.reg rd = 0 ∧ onlyReg rd s t) ∧
    (∃ t, exec (.one rd) s = .next t ∧ t.reg rd = 0x1FFFFFFFFFFFFFFFFFFFFFFFFFFFF ∧ onlyReg rd s t)

/-- R111, R122: MOV and NEG copy the source, and nothing else changes. -/
def Obligations.MovAndNegCopyTheSource : Prop :=
  ∀ (rd rs1 : Reg) (s : State),
    (∃ t, exec (.mov rd rs1) s = .next t ∧ t.reg rd = s.reg rs1 ∧ onlyReg rd s t) ∧
    (∃ t, exec (.neg rd rs1) s = .next t ∧ t.reg rd = s.reg rs1 ∧ onlyReg rd s t)

/-- R104: VERIFY completes with no change when the reserved bits are zero, and raises InvalidElement when any is set. -/
def Obligations.VerifyTestsTheReservedBits : Prop :=
  ∀ (rs1 : Reg) (s : State),
    ((s.reg rs1).extractLsb' 113 15 = 0 → exec (.verify rs1) s = .next s) ∧
    ((s.reg rs1).extractLsb' 113 15 ≠ 0 →
      ∃ t, exec (.verify rs1) s = .next t ∧ tookFault .invalidElement (encode (.verify rs1)) s t)

/-- R105: SER tests the length, then the range; then it writes exactly the 15 bytes of the wire form, bit `8j + k` of the element at bit `k`
of byte `addr + j`, and nothing else changes. -/
def Obligations.SerStoresTheWireFormOrFaults : Prop :=
  ∀ (r : Reg) (addr len : Byte) (s : State),
    (len.toNat < 15 → ∃ t, exec (.ser r addr len) s = .next t ∧ tookFault .bufferTooSmall (encode (.ser r addr len)) s t) ∧
    (15 ≤ len.toNat → 256 < addr.toNat + len.toNat →
      ∃ t, exec (.ser r addr len) s = .next t ∧ tookFault .addressRange (encode (.ser r addr len)) s t) ∧
    (15 ≤ len.toNat → addr.toNat + len.toNat ≤ 256 → (s.reg r).extractLsb' 113 15 = 0 →
      ∃ t, exec (.ser r addr len) s = .next t ∧
        (∀ j < 15, ∀ k < 8, (t.byte (addr.toNat + j)).getLsbD k = (s.reg r).getLsbD (8 * j + k)) ∧
        (∀ a, ¬ (addr.toNat ≤ a ∧ a < addr.toNat + 15) → t.byte a = s.byte a) ∧
        sameRegs s t ∧ sameStatus s t ∧ samePort s t)

/-- R106: DESER tests the length, then the range, then the validity; then it loads the 15 bytes, and nothing else changes. -/
def Obligations.DeserLoadsTheWireFormOrFaults : Prop :=
  ∀ (r : Reg) (addr len : Byte) (s : State),
    (len.toNat ≠ 15 → ∃ t, exec (.deser r addr len) s = .next t ∧ tookFault .lengthMismatch (encode (.deser r addr len)) s t) ∧
    (len.toNat = 15 → 256 < addr.toNat + 15 →
      ∃ t, exec (.deser r addr len) s = .next t ∧ tookFault .addressRange (encode (.deser r addr len)) s t) ∧
    (len.toNat = 15 → addr.toNat + 15 ≤ 256 → s.byte (addr.toNat + 14) &&& 0xFE ≠ 0 →
      ∃ t, exec (.deser r addr len) s = .next t ∧ tookFault .invalidElement (encode (.deser r addr len)) s t) ∧
    (len.toNat = 15 → addr.toNat + 15 ≤ 256 → s.byte (addr.toNat + 14) &&& 0xFE = 0 →
      ∃ t, exec (.deser r addr len) s = .next t ∧
        (∀ j < 15, ∀ k < 8, (t.reg r).getLsbD (8 * j + k) = (s.byte (addr.toNat + j)).getLsbD k) ∧
        (∀ n, 120 ≤ n → (t.reg r).getLsbD n = false) ∧ onlyReg r s t)

/-- The round trip of the wire form: what SER stores from a valid register, DESER loads back unchanged. -/
def Obligations.DeserAfterSerRestoresTheElement : Prop :=
  ∀ (r r' : Reg) (addr len : Byte) (s : State), 15 ≤ len.toNat → addr.toNat + len.toNat ≤ 256 →
    (s.reg r).extractLsb' 113 15 = 0 →
      ∃ t u, exec (.ser r addr len) s = .next t ∧ exec (.deser r' addr 15) t = .next u ∧ u.reg r' = s.reg r

/-- R107, R108, R109: EQ, ISZERO and ISONE write P with the exact bitwise comparison, and nothing else changes. -/
def Obligations.ComparisonsWriteP : Prop :=
  ∀ (rs1 rs2 : Reg) (s : State),
    (∃ t, exec (.eq rs1 rs2) s = .next t ∧ t.flagP = (if s.reg rs1 = s.reg rs2 then 1 else 0) ∧ statusButP s t ∧
      sameRegs s t ∧ sameBuf s t ∧ samePort s t) ∧
    (∃ t, exec (.iszero rs1) s = .next t ∧ t.flagP = (if s.reg rs1 = 0 then 1 else 0) ∧ statusButP s t ∧
      sameRegs s t ∧ sameBuf s t ∧ samePort s t) ∧
    (∃ t, exec (.isone rs1) s = .next t ∧
      t.flagP = (if s.reg rs1 = 0x1FFFFFFFFFFFFFFFFFFFFFFFFFFFF then 1 else 0) ∧ statusButP s t ∧
      sameRegs s t ∧ sameBuf s t ∧ samePort s t)

/-! ## The additive group -/

/-- R120, R121: ADD and SUB write the XOR of two valid elements, and nothing else changes; for all register contents they leave the same
state. -/
def Obligations.AddAndSubWriteTheXor : Prop :=
  (∀ (rd rs1 rs2 : Reg) (s : State), exec (.sub rd rs1 rs2) s = exec (.add rd rs1 rs2) s) ∧
  ∀ (rd rs1 rs2 : Reg) (s : State), isValid (s.reg rs1) = true → isValid (s.reg rs2) = true →
    (∃ t, exec (.add rd rs1 rs2) s = .next t ∧ t.reg rd = s.reg rs1 ^^^ s.reg rs2 ∧ onlyReg rd s t) ∧
    (∃ t, exec (.sub rd rs1 rs2) s = .next t ∧ t.reg rd = s.reg rs1 ^^^ s.reg rs2 ∧ onlyReg rd s t)

/-- R123, R124: ADDONE and SUBONE complement bits 0 to 112 of a valid element, and nothing else changes; for all register contents they
leave the same state. -/
def Obligations.AddoneAndSuboneComplement : Prop :=
  (∀ (rd rs1 : Reg) (s : State), exec (.subone rd rs1) s = exec (.addone rd rs1) s) ∧
  ∀ (rd rs1 : Reg) (s : State), isValid (s.reg rs1) = true →
    (∃ t, exec (.addone rd rs1) s = .next t ∧ t.reg rd = s.reg rs1 ^^^ 0x1FFFFFFFFFFFFFFFFFFFFFFFFFFFF ∧ onlyReg rd s t) ∧
    (∃ t, exec (.subone rd rs1) s = .next t ∧ t.reg rd = s.reg rs1 ^^^ 0x1FFFFFFFFFFFFFFFFFFFFFFFFFFFF ∧ onlyReg rd s t)

/-! ## Frobenius rotations -/

/-- R130: SQR moves bit `n` to bit `n + 1` in the ring of 113 bits and leaves bits 113 to 127 zero; nothing else changes. -/
def Obligations.SqrRotatesTheRingLeft : Prop :=
  ∀ (rd rs1 : Reg) (s : State), isValid (s.reg rs1) = true →
    ∃ t, exec (.sqr rd rs1) s = .next t ∧ onlyReg rd s t ∧ (t.reg rd).getLsbD 0 = (s.reg rs1).getLsbD 112 ∧
      (∀ n, 1 ≤ n → n ≤ 112 → (t.reg rd).getLsbD n = (s.reg rs1).getLsbD (n - 1)) ∧
      (∀ n, 113 ≤ n → (t.reg rd).getLsbD n = false)

/-- R131: SQRT moves bit `n + 1` to bit `n` in the ring of 113 bits and leaves bits 113 to 127 zero; nothing else changes. -/
def Obligations.SqrtRotatesTheRingRight : Prop :=
  ∀ (rd rs1 : Reg) (s : State), isValid (s.reg rs1) = true →
    ∃ t, exec (.sqrt rd rs1) s = .next t ∧ onlyReg rd s t ∧ (t.reg rd).getLsbD 112 = (s.reg rs1).getLsbD 0 ∧
      (∀ n, n ≤ 111 → (t.reg rd).getLsbD n = (s.reg rs1).getLsbD (n + 1)) ∧
      (∀ n, 113 ≤ n → (t.reg rd).getLsbD n = false)

/-- R134: the laws of the rotations. -/
def Obligations.RotationsAreInverseLinearAndOfOrder113 : Prop :=
  ∀ a b : Element,
    (isValid (containerOf (rotl113 a)) = true ∧ isValid (containerOf (rotr113 a)) = true) ∧
    (rotl113 (rotr113 a) = a ∧ rotr113 (rotl113 a) = a) ∧
    (rotl113^[113] a = a ∧ rotr113^[113] a = a) ∧
    (rotl113 (a ^^^ b) = rotl113 a ^^^ rotl113 b ∧ rotr113 (a ^^^ b) = rotr113 a ^^^ rotr113 b) ∧
    (∀ k j, j < 113 → (rotl113^[k] a).getLsbD ((j + k) % 113) = a.getLsbD j) ∧
    (∀ k, k ≤ 113 → rotl113^[k] a = rotr113^[113 - k] a) ∧
    (onesOf (rotl113 a) = onesOf a ∧ onesOf (rotr113 a) = onesOf a) ∧
    (gfTrace (rotl113 a) = gfTrace a ∧ gfTrace (rotr113 a) = gfTrace a)

/-! ## The multiplier -/

/-- R143: the product bit by bit, over the entries T0[i] and T1[i] of any table of 113 rows; and, with an accepted table, what an entry
means. -/
def Obligations.ProductBitsFollowTheTable : Prop :=
  (∀ (tab : MulTable) (a b : Element) (n : Nat), tab.rows.length = 112 → n < 113 →
    (gfMul tab a b).getLsbD n =
      ((a.getLsbD n && b.getLsbD ((n + tab.t0.getD 0 0) % 113)) ^^
        (List.range 112).foldl (fun x i =>
          x ^^ (a.getLsbD ((n + 113 - (i + 1)) % 113) &&
            (b.getLsbD ((n + tab.t0.getD (i + 1) 0) % 113) ^^
              b.getLsbD ((n + tab.t1.getD (i + 1) 0) % 113)))) false)) ∧
  ∀ (tab : MulTable) (i t : Nat), tab.Accepted → i < 113 → t < 113 →
    ((t = tab.t0.getD i 0 ∨ (1 ≤ i ∧ t = tab.t1.getD i 0)) ↔
      (gfMul tab (basis ((113 - i) % 113)) (basis t)).getLsbD 0 = true)

/-- R146: MUL writes the product of two valid elements, and nothing else changes; a source Zero gives Zero, a source One gives the other
source, equal sources give the square. -/
def Obligations.MulWritesTheProduct : Prop :=
  ∀ (rd rs1 rs2 : Reg) (s : State), isValid (s.reg rs1) = true → isValid (s.reg rs2) = true →
    ∃ t, exec (.mul rd rs1 rs2) s = .next t ∧ onlyReg rd s t ∧
      t.reg rd = containerOf (gfMul Config.multab (elementOf (s.reg rs1)) (elementOf (s.reg rs2))) ∧
      (s.reg rs1 = 0 ∨ s.reg rs2 = 0 → t.reg rd = 0) ∧
      (s.reg rs1 = containerOf gfOne → t.reg rd = s.reg rs2) ∧
      (s.reg rs2 = containerOf gfOne → t.reg rd = s.reg rs1) ∧
      (s.reg rs1 = s.reg rs2 → t.reg rd = containerOf (rotl113 (elementOf (s.reg rs1))))

/-- R147: distributivity on both sides and `Mul(Zero, a) = Zero` hold for any table whatever. -/
def Obligations.ProductIsBilinearForAnyTable : Prop :=
  ∀ (tab : MulTable) (a b c : Element),
    gfMul tab (gfAdd a b) c = gfAdd (gfMul tab a c) (gfMul tab b c) ∧
    gfMul tab a (gfAdd b c) = gfAdd (gfMul tab a b) (gfMul tab a c) ∧
    gfMul tab gfZero a = gfZero ∧ gfMul tab a gfZero = gfZero

/-- R147: with an accepted table the product is commutative. -/
def Obligations.ProductIsCommutative : Prop :=
  ∀ tab : MulTable, tab.Accepted → ∀ a b : Element, gfMul tab a b = gfMul tab b a

/-- R147: with an accepted table the product is associative. -/
def Obligations.ProductIsAssociative : Prop :=
  ∀ tab : MulTable, tab.Accepted → ∀ a b c : Element, gfMul tab (gfMul tab a b) c = gfMul tab a (gfMul tab b c)

/-- R147: with an accepted table One is the identity, the product of an element with itself is its left rotation, and squaring respects
the product. -/
def Obligations.OneIsTheIdentityAndSquaringIsTheRotation : Prop :=
  ∀ tab : MulTable, tab.Accepted → ∀ a b : Element,
    gfMul tab gfOne a = a ∧ gfMul tab a gfOne = a ∧ gfMul tab a a = rotl113 a ∧
    gfMul tab (rotl113 a) (rotl113 b) = rotl113 (gfMul tab a b)

/-- R147: with an accepted table a product is Zero only when a factor is. -/
def Obligations.ProductHasNoZeroDivisors : Prop :=
  ∀ tab : MulTable, tab.Accepted → ∀ a b : Element, gfMul tab a b = gfZero → a = gfZero ∨ b = gfZero

/-- R144, R145: the default of MULTAB is the table that R144 constructs, its T0 and T1 are the printed ones, and they pass the checks
printed under them. -/
def Obligations.TableIsTheConstructedOne : Prop :=
  Config.tableR145 = generatedTable ∧ Config.tableR145.t0 = Config.t0R145 ∧ Config.tableR145.t1 = Config.t1R145 ∧
  Config.t0R145.length = 113 ∧ Config.t1R145.length = 113 ∧
  Config.t0R145.sum = 4248 ∧ Config.t1R145.tail.sum = 8408 ∧
  Config.t0R145.foldl Nat.xor 0 = 84 ∧ Config.t1R145.tail.foldl Nat.xor 0 = 84 ∧
  (∀ p ∈ Config.t0R145.tail.zip Config.t1R145.tail, p.1 < p.2 ∧ p.2 < 113) ∧
  (Config.t0R145 ++ Config.t1R145.tail).count 0 = 1 ∧ Config.t0R145.getD 112 1 = 0 ∧
  ∀ t ∈ List.range 112, (Config.t0R145 ++ Config.t1R145.tail).count (t + 1) = 2

/-! ## The inversion chain -/

/-- R161: INV completes without a fault on every valid operand and changes nothing but its destination; One gives One, and Zero gives the
value of INV_ZERO (R164, log entry 5), a drawn element being the one that the model's draw counter names (DESIGN CHOICE, log entry 1). -/
def Obligations.InvWritesTheInverse : Prop :=
  ∀ (rd rs1 : Reg) (s : State), isValid (s.reg rs1) = true →
    ∃ t, exec (.inv rd rs1) s = .next t ∧ onlyReg rd s t ∧
      (s.reg rs1 ≠ 0 → t.reg rd = containerOf (chainInv Config.multab (elementOf (s.reg rs1)))) ∧
      (s.reg rs1 = containerOf gfOne → t.reg rd = containerOf gfOne) ∧
      (s.reg rs1 = 0 → t.reg rd = containerOf (gfInv Config.multab Config.invZero (Config.freeElement s.draws) gfZero))

/-- R164: under INV_ZERO = `chain` the inverse of Zero is what the chain computes, Zero, and DIV by Zero gives Zero; under `draw` it is the
drawn element; the parameter plays no part for any other operand; all of it with any table. INV of Zero raises no fault and writes a valid
element. That it advances the draw counter, under either value of INV_ZERO, is the model's own choice (DESIGN CHOICE): log entry 1. -/
def Obligations.InverseOfZeroIsTheParameter : Prop :=
  (∀ (tab : MulTable) (f : Element), gfInv tab .chain f gfZero = gfZero ∧ gfInv tab .draw f gfZero = f) ∧
  (∀ (tab : MulTable) (f a : Element), gfMul tab a (gfInv tab .chain f gfZero) = gfZero) ∧
  (∀ (tab : MulTable) (m : InvZero) (f a : Element), a ≠ gfZero → gfInv tab m f a = chainInv tab a) ∧
  ∀ (rd rs1 : Reg) (s : State), s.reg rs1 = 0 →
    ∃ t, exec (.inv rd rs1) s = .next t ∧ t.flagFault = s.flagFault ∧ isValid (t.reg rd) = true ∧ t.draws = s.draws + 1

/-- R163: `Mul(a, Inv(a)) = One` for every non-zero element, as a law of the field functions and as what INV leaves for MUL. -/
def Obligations.ElementTimesItsInverseIsOne : Prop :=
  (∀ tab : MulTable, tab.Accepted → ∀ a : Element, a ≠ gfZero →
    gfMul tab a (chainInv tab a) = gfOne ∧ chainInv tab (chainInv tab a) = a) ∧
  ∀ (rd rs1 : Reg) (s : State), isValid (s.reg rs1) = true → s.reg rs1 ≠ 0 →
    ∃ t y, exec (.inv rd rs1) s = .next t ∧ t.reg rd = containerOf y ∧
      gfMul Config.multab (elementOf (s.reg rs1)) y = gfOne

/-- R163: at the top of the loop and after each iteration `eta = a^(2^k - 1)`; k takes the values 1, 3, 7, 14, 28, 56, 112; the result is
`a^(2^113 - 2)`. -/
def Obligations.ChainComputesThePower : Prop :=
  ∀ tab : MulTable, tab.Accepted → ∀ a : Element,
    (∀ n ≤ 6, ((chainBits.take n).foldl (chainStep tab a) (a, 1)).1 =
      gfPow tab a (2 ^ ((chainBits.take n).foldl (chainStep tab a) (a, 1)).2 - 1)) ∧
    ((List.range 7).map (fun n => ((chainBits.take n).foldl (chainStep tab a) (a, 1)).2) = [1, 3, 7, 14, 28, 56, 112]) ∧
    chainInv tab a = gfPow tab a (2 ^ 113 - 2)

/-- R162: DIV completes without a fault on every pair of valid operands and changes nothing but its destination; the result is
`Mul(a, Inv(b))`; divisor One gives the dividend, dividend Zero gives Zero, equal non-zero operands give One. For divisor Zero `Inv(b)` is the
value of INV_ZERO (R164, log entry 5), a drawn element being the one that the model's draw counter names (DESIGN CHOICE, log entry 1). -/
def Obligations.DivWritesTheQuotient : Prop :=
  ∀ (rd rs1 rs2 : Reg) (s : State), isValid (s.reg rs1) = true → isValid (s.reg rs2) = true →
    ∃ t, exec (.div rd rs1 rs2) s = .next t ∧ onlyReg rd s t ∧
      t.reg rd = containerOf (gfMul Config.multab (elementOf (s.reg rs1))
        (gfInv Config.multab Config.invZero (Config.freeElement s.draws) (elementOf (s.reg rs2)))) ∧
      (s.reg rs2 = containerOf gfOne → t.reg rd = s.reg rs1) ∧
      (s.reg rs1 = 0 → t.reg rd = 0) ∧
      (s.reg rs1 = s.reg rs2 → s.reg rs1 ≠ 0 → t.reg rd = containerOf gfOne)

/-- R163: the quotient that DIV leaves, times the divisor it read, is the dividend, whenever the divisor is not Zero and whatever the
destination, the divisor's own register included; and MUL with a divisor register that DIV has not overwritten gives the dividend back. -/
def Obligations.MulUndoesDiv : Prop :=
  ∀ (rd rs1 rs2 : Reg) (s : State), isValid (s.reg rs1) = true → isValid (s.reg rs2) = true → s.reg rs2 ≠ 0 →
    ∃ t q, exec (.div rd rs1 rs2) s = .next t ∧ t.reg rd = containerOf q ∧
      gfMul Config.multab q (elementOf (s.reg rs2)) = elementOf (s.reg rs1) ∧
      (rd ≠ rs2 → ∃ u, exec (.mul rd rd rs2) t = .next u ∧ u.reg rd = s.reg rs1)

/-! ## The trace unit -/

/-- R170, R171: TRACE writes T with the parity of the 113 bits of a valid element, and nothing else changes. -/
def Obligations.TraceWritesTheParity : Prop :=
  ∀ (rs1 : Reg) (s : State), isValid (s.reg rs1) = true →
    ∃ t, exec (.trace rs1) s = .next t ∧
      (t.flagT = 1 ↔ onesOf (elementOf (s.reg rs1)) % 2 = 1) ∧ (t.flagT = 0 ↔ onesOf (elementOf (s.reg rs1)) % 2 = 0) ∧
      (s.reg rs1 = 0 → t.flagT = 0) ∧ (s.reg rs1 = containerOf gfOne → t.flagT = 1) ∧
      (∀ i < 113, s.reg rs1 = containerOf (basis i) → t.flagT = 1) ∧
      statusButT s t ∧ sameRegs s t ∧ sameBuf s t ∧ samePort s t

/-- R172: the trace is linear, is kept by the rotations and so by squaring, and is the parity of all 128 container bits of a valid
element. -/
def Obligations.TraceIsLinearAndKeptBySquaring : Prop :=
  ∀ tab : MulTable, tab.Accepted → ∀ a b : Element,
    gfTrace (a ^^^ b) = (gfTrace a ^^ gfTrace b) ∧ gfTrace (rotl113 a) = gfTrace a ∧ gfTrace (rotr113 a) = gfTrace a ∧
    gfTrace (gfMul tab a a) = gfTrace a ∧
    gfTrace a = (List.range 128).foldl (fun x i => x ^^ (containerOf a).getLsbD i) false

/-! ## The quadratic solvers -/

/-- R183: QSOLVE on a valid element. Trace 1: N is 0 and no register changes. Trace 0: N is 1 and the destination holds the root of
z² + z = β whose bit 0 is QS_Z0. STATUS but N, BUF and the host's side are as before. -/
def Obligations.QsolveWritesARootOrNone : Prop :=
  ∀ (rd rs1 : Reg) (s : State), isValid (s.reg rs1) = true →
    (gfTrace (elementOf (s.reg rs1)) = true →
      ∃ t, exec (.qsolve rd rs1) s = .next t ∧ t.fieldN = 0 ∧ sameRegs s t ∧ onlyRegsAndN s t) ∧
    (gfTrace (elementOf (s.reg rs1)) = false →
      ∃ t z, exec (.qsolve rd rs1) s = .next t ∧ t.fieldN = 1 ∧ t.reg rd = containerOf z ∧
        gfAdd (rotl113 z) z = elementOf (s.reg rs1) ∧ z.getLsbD 0 = Config.qsZ0 ∧ sameRegsBut rd s t ∧ onlyRegsAndN s t)

/-- R182: when the trace of β is 0, z² + z = β has exactly two solutions, the solver's and its complement, with bit 0 as QS_Z0 says; when it is
1, none. -/
def Obligations.AffineEquationHasTwoRootsOrNone : Prop :=
  ∀ β : Element,
    (gfTrace β = true → (∀ z0, solveAffine z0 β = none) ∧ ∀ z, gfAdd (rotl113 z) z ≠ β) ∧
    (gfTrace β = false → ∀ z0, ∃ z, solveAffine z0 β = some z ∧ z.getLsbD 0 = z0 ∧
      ∀ y, gfAdd (rotl113 y) y = β ↔ y = z ∨ y = z ^^^ gfOne)

/-- R184: the two values of QS_Z0 give complementary roots, and the general solver's two roots change places, whatever the table. -/
def Obligations.TheRootParameterOnlySwapsRoots : Prop :=
  (∀ β : Element, solveAffine true β = (solveAffine false β).map (· ^^^ gfOne)) ∧
  ∀ (tab : MulTable) (a b c : Element), solveGeneral tab true a b c =
    match solveGeneral tab false a b c with
    | .ok (.two x1 x2) => .ok (.two x2 x1)
    | r => r

/-- R202: QSOLVE3 with A = Zero takes InvalidArgument whatever B and C are. That the command term with equal destinations, which the decoder
never yields since R76 makes its word illegal, takes IllegalCommand in `exec` too is the model's own choice (DEDUCED): log entry 10. -/
def Obligations.QsolveThreeFaults : Prop :=
  ∀ (rd rd2 rs1 rs2 rs3 : Reg) (s : State),
    (rd ≠ rd2 → s.reg rs1 = 0 → ∃ t, exec (.qsolve3 rd rd2 rs1 rs2 rs3) s = .next t ∧
      tookFault .invalidArgument (encode (.qsolve3 rd rd2 rs1 rs2 rs3)) s t) ∧
    (rd = rd2 → ∃ t, exec (.qsolve3 rd rd2 rs1 rs2 rs3) s = .next t ∧
      tookFault .illegalCommand (encode (.qsolve3 rd rd2 rs1 rs2 rs3)) s t)

/-- R186, R187: QSOLVE3 with A non-zero and B = Zero writes the one root of A·x² = C, the square root of C/A, to rd, and N = 1; nothing else
changes, rd2 included. -/
def Obligations.QsolveThreeWithoutLinearTerm : Prop :=
  ∀ (rd rd2 rs1 rs2 rs3 : Reg) (s : State), rd ≠ rd2 → isValid (s.reg rs1) = true → isValid (s.reg rs3) = true →
    s.reg rs1 ≠ 0 → s.reg rs2 = 0 →
    let a := elementOf (s.reg rs1)
    let c := elementOf (s.reg rs3)
      ∃ t x, exec (.qsolve3 rd rd2 rs1 rs2 rs3) s = .next t ∧ t.fieldN = 1 ∧ t.reg rd = containerOf x ∧
        x = rotr113 (gfMul Config.multab c (chainInv Config.multab a)) ∧
        (∀ y, gfMul Config.multab a (gfMul Config.multab y y) = c ↔ y = x) ∧
        sameRegsBut rd s t ∧ onlyRegsAndN s t

/-- R185, R186, R188: QSOLVE3 with A and B non-zero. Trace of A·C/B² 1: N is 0, no register changes, and the equation has no root. Trace 0: N
is 2; rd holds x1 = B·z/A and rd2 holds x2 = B·(z+1)/A, in that order, z being the affine solver's root, whose bit 0 is QS_Z0; x1 and x2
are two different elements, they are all the roots of A·x² + B·x + C = 0, and their sum is B/A. -/
def Obligations.QsolveThreeFindsAllRoots : Prop :=
  ∀ (rd rd2 rs1 rs2 rs3 : Reg) (s : State), rd ≠ rd2 →
    isValid (s.reg rs1) = true → isValid (s.reg rs2) = true → isValid (s.reg rs3) = true → s.reg rs1 ≠ 0 → s.reg rs2 ≠ 0 →
    let mul := gfMul Config.multab
    let inv := chainInv Config.multab
    let a := elementOf (s.reg rs1)
    let b := elementOf (s.reg rs2)
    let c := elementOf (s.reg rs3)
    let isRoot := fun x : Element => gfAdd (gfAdd (mul a (mul x x)) (mul b x)) c = gfZero
    let β := mul (mul a c) (inv (mul b b))
    (gfTrace β = true → ∃ t, exec (.qsolve3 rd rd2 rs1 rs2 rs3) s = .next t ∧ t.fieldN = 0 ∧ sameRegs s t ∧
      onlyRegsAndN s t ∧ ∀ x, ¬ isRoot x) ∧
    (gfTrace β = false → ∃ t z x1 x2, exec (.qsolve3 rd rd2 rs1 rs2 rs3) s = .next t ∧ t.fieldN = 2 ∧
      solveAffine Config.qsZ0 β = some z ∧ z.getLsbD 0 = Config.qsZ0 ∧ gfAdd (rotl113 z) z = β ∧
      x1 = mul (mul b z) (inv a) ∧ x2 = mul (mul b (z ^^^ gfOne)) (inv a) ∧
      t.reg rd = containerOf x1 ∧ t.reg rd2 = containerOf x2 ∧ x1 ≠ x2 ∧ (∀ x, isRoot x ↔ x = x1 ∨ x = x2) ∧
      gfAdd x1 x2 = mul b (inv a) ∧ (∀ r, r ≠ rd → r ≠ rd2 → t.reg r = s.reg r) ∧ onlyRegsAndN s t)

/-! ## Faults -/

/-- R204: taking a fault writes FAULT, the code of its cause and the command word, and changes nothing else. -/
def Obligations.TakingAFaultWritesTheRecordOnly : Prop :=
  (Cause.code .invalidElement = 1 ∧ Cause.code .lengthMismatch = 2 ∧ Cause.code .bufferTooSmall = 3 ∧
    Cause.code .invalidArgument = 4 ∧ Cause.code .illegalCommand = 5 ∧ Cause.code .addressRange = 6) ∧
  ∀ (s : State) (x : Cause) (w : Word), tookFault x w s (s.raise x w)

/-- R202: which legal command raises which fault and exactly when; every other command, for any register contents, leaves FAULT, CAUSE and
FCMD as they were. -/
def Obligations.CommandsFaultExactlyWhenTheTableSays : Prop :=
  ∀ (i : Instr) (s : State), i.wellFormed = true →
    (∀ x, faultCondition s i x → ∃ t, exec i s = .next t ∧ tookFault x (encode i) s t) ∧
    ((∀ x, ¬ faultCondition s i x) →
      ∃ t, exec i s = .next t ∧ t.flagFault = s.flagFault ∧ t.fieldCause = s.fieldCause ∧ t.fcmd = s.fcmd)

/-! ## Whole-machine rules -/

/-- The state after reset meets the invariant. -/
def Obligations.ResetMeetsTheInvariant : Prop := State.reset.Inv

/-- From every state that meets the invariant, whatever transaction the host makes, the step answers a next state, and it meets the invariant:
registers stay valid elements (R22), STATUS and FCMD stay legal (R25, R28, R29), the buffer keeps its canonical form. -/
def Obligations.EveryStepCompletesAndKeepsTheInvariant : Prop :=
  ∀ s : State, s.Inv → ∃ t, step s = .next t ∧ t.Inv

/-- R22: in every state reachable from reset by any sequence of transactions, every register is a valid element, so VERIFY never faults. -/
def Obligations.ReachableRegistersAreValid : Prop :=
  ∀ (ts : List Transaction) (k : Nat) (s : State),
    Host.Core.run Sys2Proof.core k { State.reset with pending := ts } = .next s →
      ∀ r : Reg, (s.reg r).extractLsb' 113 15 = 0 ∧ exec (.verify r) s = .next s

/-- R23: a command writes no register but its destinations, and what it writes there and everywhere else depends on no register but its
sources. -/
def Obligations.CommandsReadSourcesAndWriteDestinations : Prop :=
  (∀ (i : Instr) (s t : State), exec i s = .next t → ∀ r, r ∉ destinationsOf i → t.reg r = s.reg r) ∧
  ∀ (i : Instr) (s s' t t' : State), (∀ r ∈ sourcesOf i, s'.reg r = s.reg r) → s' = { s with regs := s'.regs } →
    exec i s = .next t → exec i s' = .next t' →
      t' = { t with regs := t'.regs } ∧
      ∀ r ∈ destinationsOf i, t'.reg r = t.reg r ∨ (t.reg r = s.reg r ∧ t'.reg r = s'.reg r)

/-- R50: of all commands only SER changes a byte of the buffer. That no command touches the lists `pending` and `replies`, which are the
model's form of the host's side of the port, is DEDUCED: log entry 2. -/
def Obligations.OnlySerChangesTheBuffer : Prop :=
  ∀ (i : Instr) (s t : State), exec i s = .next t →
    ((∀ r addr len, i ≠ .ser r addr len) → sameBuf s t) ∧ samePort s t

/-- R26, R27, R28: nothing a command does depends on STATUS. Two states that differ in STATUS alone go, under every command, to states with the
same registers, buffer, draws, FCMD and host's side; a field of STATUS that the command writes is the same in both, and each other field is that
of its own start state. FAULT is one of the varied fields: that `exec` does not read it, `Issue` doing so (R77, R205), is the model's own choice
(DEDUCED): log entry 10. -/
def Obligations.NoCommandReadsStatus : Prop :=
  ∀ (i : Instr) (s s' t t' : State), s' = { s with status := s'.status } → exec i s = .next t → exec i s' = .next t' →
    (t'.regs = t.regs ∧ t'.buf = t.buf ∧ t'.draws = t.draws ∧ t'.fcmd = t.fcmd ∧ samePort t t') ∧
    writtenOrKept (writesT i) State.flagT s s' t t' ∧
    writtenOrKept (writesP i) State.flagP s s' t t' ∧
    writtenOrKept (writesN i ∧ ¬ raisesFault s i) State.fieldN s s' t t' ∧
    writtenOrKept (raisesFault s i) State.flagFault s s' t t' ∧
    writtenOrKept (raisesFault s i) State.fieldCause s s' t t' ∧
    writtenOrKept False State.statusRest s s' t t'

/-- The model's own choice (log entry 7, for the case that U3 leaves without a rule): a field function whose operand has a reserved bit set
still completes, writes its destination with a free container, and changes nothing else. -/
def Obligations.InvalidOperandsGiveFreeResults : Prop :=
  (∀ (rd rs1 : Reg) (s : State), isValid (s.reg rs1) = false →
    ∀ i ∈ [Instr.addone rd rs1, .subone rd rs1, .sqr rd rs1, .sqrt rd rs1, .inv rd rs1],
      ∃ t, exec i s = .next t ∧ t.reg rd = Config.freeContainer s.draws ∧ t.draws = s.draws + 1 ∧ onlyReg rd s t) ∧
  (∀ (rd rs1 rs2 : Reg) (s : State), isValid (s.reg rs1) = false ∨ isValid (s.reg rs2) = false →
    ∀ i ∈ [Instr.add rd rs1 rs2, .sub rd rs1 rs2, .mul rd rs1 rs2, .div rd rs1 rs2],
      ∃ t, exec i s = .next t ∧ t.reg rd = Config.freeContainer s.draws ∧ t.draws = s.draws + 1 ∧ onlyReg rd s t)

/-- The model's own choice (log entry 7): SER, TRACE, QSOLVE and QSOLVE3 on an operand with a reserved bit set complete; they change
only what they change on a valid one. -/
def Obligations.InvalidOperandsKeepTheFrame : Prop :=
  (∀ (r : Reg) (addr len : Byte) (s : State), isValid (s.reg r) = false → 15 ≤ len.toNat → addr.toNat + len.toNat ≤ 256 →
    ∃ t, exec (.ser r addr len) s = .next t ∧ (∀ a, ¬ (addr.toNat ≤ a ∧ a < addr.toNat + 15) → t.byte a = s.byte a) ∧
      sameRegs s t ∧ sameStatus s t ∧ samePort s t) ∧
  (∀ (rs1 : Reg) (s : State), isValid (s.reg rs1) = false →
    ∃ t, exec (.trace rs1) s = .next t ∧ statusButT s t ∧ sameRegs s t ∧ sameBuf s t ∧ samePort s t) ∧
  (∀ (rd rs1 : Reg) (s : State), isValid (s.reg rs1) = false →
    ∃ t, exec (.qsolve rd rs1) s = .next t ∧ sameRegsBut rd s t ∧ onlyRegsAndN s t ∧ (t.fieldN = 0 → sameRegs s t) ∧
      (t.fieldN = 0 ∨ t.fieldN = 1)) ∧
  (∀ (rd rd2 rs1 rs2 rs3 : Reg) (s : State), rd ≠ rd2 → s.reg rs1 ≠ 0 →
    isValid (s.reg rs1) = false ∨ isValid (s.reg rs2) = false ∨ isValid (s.reg rs3) = false →
    ∃ t, exec (.qsolve3 rd rd2 rs1 rs2 rs3) s = .next t ∧ (∀ r, r ≠ rd → r ≠ rd2 → t.reg r = s.reg r) ∧
      onlyRegsAndN s t ∧ t.fieldN ≠ 3 ∧ (t.fieldN = 0 → sameRegs s t) ∧ (t.fieldN ≠ 2 → t.reg rd2 = s.reg rd2))

/-! ## The table as a parameter -/

/-- R142, R145, U4: MULTAB is a parameter. Tables with the same rows, whatever the order inside a row and the sentinel, give the same product,
the same inverse and the same roots; and the unit's table, whose order and sentinel are open (log entry 4), is an accepted one. -/
def Obligations.OnlyTheRowsOfTheTableMatter : Prop :=
  (∀ tab tab' : MulTable, tab.SameRows tab' → ∀ (z0 : Bool) (m : InvZero) (a b c : Element),
    gfMul tab a b = gfMul tab' a b ∧ gfInv tab m c a = gfInv tab' m c a ∧
    solveGeneral tab z0 a b c = solveGeneral tab' z0 a b c) ∧
  Config.multab.Accepted ∧ Config.multab.sentinel = Config.t1Sentinel
end

