-- ==== Sys2Proof/Laws/Decode.lean ====
section
/-! SUPPORT. A command word as its seven fields: what each field of an encoded word reads, and ANDs field by field. -/

namespace Sys2Proof

/-- A word from the opcode byte and the six nibbles below it (R71). -/
def packWord (op : BitVec 8) (a b c d e f : BitVec 4) : Word := op ++ a ++ b ++ c ++ d ++ e ++ f

/-- AND works field by field. -/
theorem packWord_and (op op' : BitVec 8) (a b c d e f a' b' c' d' e' f' : BitVec 4) :
    packWord op a b c d e f &&& packWord op' a' b' c' d' e' f' =
      packWord (op &&& op') (a &&& a') (b &&& b') (c &&& c') (d &&& d') (e &&& e') (f &&& f') := by
  show (op ++ a ++ b ++ c ++ d ++ e ++ f : BitVec (8 + 4 + 4 + 4 + 4 + 4 + 4)) &&&
    (op' ++ a' ++ b' ++ c' ++ d' ++ e' ++ f') = _
  simp only [BitVec.and_append]
  rfl

/-- The word as a number. -/
theorem packWord_toNat (op : BitVec 8) (a b c d e f : BitVec 4) :
    (packWord op a b c d e f).toNat = op.toNat * 2 ^ 24 + a.toNat * 2 ^ 20 + b.toNat * 2 ^ 16 + c.toNat * 2 ^ 12 +
      d.toNat * 2 ^ 8 + e.toNat * 2 ^ 4 + f.toNat := by
  show (op ++ a ++ b ++ c ++ d ++ e ++ f : BitVec (8 + 4 + 4 + 4 + 4 + 4 + 4)).toNat = _
  simp only [BitVec.toNat_append]
  rw [← Nat.shiftLeft_add_eq_or_of_lt f.isLt, ← Nat.shiftLeft_add_eq_or_of_lt e.isLt,
    ← Nat.shiftLeft_add_eq_or_of_lt d.isLt, ← Nat.shiftLeft_add_eq_or_of_lt c.isLt,
    ← Nat.shiftLeft_add_eq_or_of_lt b.isLt, ← Nat.shiftLeft_add_eq_or_of_lt a.isLt]
  simp only [Nat.shiftLeft_eq]
  omega

section Fields
variable (op : BitVec 8) (a b c d e f : BitVec 4)

/-- Each field of the word reads as it was packed. -/
theorem packWord_fields :
    (packWord op a b c d e f).extractLsb' 24 8 = op ∧ (packWord op a b c d e f).extractLsb' 20 4 = a ∧
      (packWord op a b c d e f).extractLsb' 16 4 = b ∧ (packWord op a b c d e f).extractLsb' 12 4 = c ∧
      (packWord op a b c d e f).extractLsb' 8 4 = d ∧ (packWord op a b c d e f).extractLsb' 4 4 = e ∧
      (packWord op a b c d e f).extractLsb' 0 4 = f := by
  have := op.isLt; have := a.isLt; have := b.isLt; have := c.isLt; have := d.isLt; have := e.isLt; have := f.isLt
  refine ⟨?_, ?_, ?_, ?_, ?_, ?_, ?_⟩ <;> apply BitVec.eq_of_toNat_eq <;>
    simp only [BitVec.extractLsb'_toNat, packWord_toNat, Nat.shiftRight_eq_div_pow] <;> omega

@[simp] theorem regAt_packWord_rd : regAt (packWord op a b c d e f) 20 = a.toFin := by
  simp only [regAt, (packWord_fields op a b c d e f).2.1]
@[simp] theorem regAt_packWord_rs1 : regAt (packWord op a b c d e f) 16 = b.toFin := by
  simp only [regAt, (packWord_fields op a b c d e f).2.2.1]
@[simp] theorem regAt_packWord_rs2 : regAt (packWord op a b c d e f) 12 = c.toFin := by
  simp only [regAt, (packWord_fields op a b c d e f).2.2.2.1]
@[simp] theorem regAt_packWord_rs3 : regAt (packWord op a b c d e f) 8 = d.toFin := by
  simp only [regAt, (packWord_fields op a b c d e f).2.2.2.2.1]
@[simp] theorem regAt_packWord_rd2 : regAt (packWord op a b c d e f) 4 = e.toFin := by
  simp only [regAt, (packWord_fields op a b c d e f).2.2.2.2.2.1]

end Fields

/-- Every word is packed from its own fields. -/
theorem packWord_self (w : Word) :
    packWord (opcodeOf w) (w.extractLsb' 20 4) (w.extractLsb' 16 4) (w.extractLsb' 12 4) (w.extractLsb' 8 4)
      (w.extractLsb' 4 4) (w.extractLsb' 0 4) = w := by
  have := w.isLt
  apply BitVec.eq_of_toNat_eq
  simp only [packWord_toNat, opcodeOf, BitVec.extractLsb'_toNat, Nat.shiftRight_eq_div_pow]
  omega

/-- Format R by its fields (R71). -/
theorem formatR_eq (op : BitVec 8) (rd rs1 rs2 rs3 rd2 : Reg) :
    formatR op rd rs1 rs2 rs3 rd2 =
      packWord op (regBits rd) (regBits rs1) (regBits rs2) (regBits rs3) (regBits rd2) 0 := rfl

/-- Format M as a number (R72). -/
theorem formatM_toNat (op : BitVec 8) (r : Reg) (addr len : Byte) :
    (formatM op r addr len).toNat =
      op.toNat * 2 ^ 24 + (regBits r).toNat * 2 ^ 20 + addr.toNat * 2 ^ 12 + len.toNat * 2 ^ 4 := by
  show (op ++ regBits r ++ addr ++ len ++ (0 : BitVec 4) : BitVec (8 + 4 + 8 + 8 + 4)).toNat = _
  simp only [BitVec.toNat_append]
  rw [← Nat.shiftLeft_add_eq_or_of_lt (0 : BitVec 4).isLt, ← Nat.shiftLeft_add_eq_or_of_lt len.isLt,
    ← Nat.shiftLeft_add_eq_or_of_lt addr.isLt, ← Nat.shiftLeft_add_eq_or_of_lt (regBits r).isLt]
  simp only [Nat.shiftLeft_eq, show (0 : BitVec 4).toNat = 0 from rfl]
  omega

/-- Format M nibble by nibble. -/
theorem formatM_eq (op : BitVec 8) (r : Reg) (addr len : Byte) :
    formatM op r addr len = packWord op (regBits r) (addr.extractLsb' 4 4) (addr.extractLsb' 0 4)
      (len.extractLsb' 4 4) (len.extractLsb' 0 4) 0 := by
  have := addr.isLt; have := len.isLt
  apply BitVec.eq_of_toNat_eq
  simp only [packWord_toNat, formatM_toNat, BitVec.extractLsb'_toNat, Nat.shiftRight_eq_div_pow, show (0 : BitVec 4).toNat = 0 from rfl]
  omega

/-- The fields of a format M word (R72). -/
theorem formatM_fields (op : BitVec 8) (r : Reg) (addr len : Byte) :
    rdOf (formatM op r addr len) = r ∧ addrOf (formatM op r addr len) = addr ∧ lenOf (formatM op r addr len) = len := by
  have := op.isLt; have := (regBits r).isLt; have := addr.isLt; have := len.isLt
  refine ⟨?_, ?_, ?_⟩
  · simp [rdOf, formatM_eq, regBits]
  · apply BitVec.eq_of_toNat_eq
    simp only [addrOf, BitVec.extractLsb'_toNat, formatM_toNat, Nat.shiftRight_eq_div_pow]
    omega
  · apply BitVec.eq_of_toNat_eq
    simp only [lenOf, BitVec.extractLsb'_toNat, formatM_toNat, Nat.shiftRight_eq_div_pow]
    omega

/-- A register that is zero has a zero field. -/
@[simp] theorem regBits_zero : regBits 0 = 0 := rfl

@[simp] theorem regBits_toFin (r : Reg) : (regBits r).toFin = r := rfl

end Sys2Proof
end

