-- ==== Sys2Proof/Laws/State.lean ====
section
/-! SUPPORT. One lemma per field per update of the state, and what each accessor reads after each update. -/

namespace Sys2Proof.Machine

section Fields
variable (s : State) (r : Reg) (c : Container) (b : Bool) (n : BitVec 2) (k : BitVec 3) (a : Nat) (v : Byte) (x : Cause) (w : Word)

@[simp] theorem setReg_status : (s.setReg r c).status = s.status := rfl
@[simp] theorem setReg_fcmd : (s.setReg r c).fcmd = s.fcmd := rfl
@[simp] theorem setReg_buf : (s.setReg r c).buf = s.buf := rfl
@[simp] theorem setReg_draws : (s.setReg r c).draws = s.draws := rfl
@[simp] theorem setReg_pending : (s.setReg r c).pending = s.pending := rfl
@[simp] theorem setReg_replies : (s.setReg r c).replies = s.replies := rfl

@[simp] theorem setByte_regs : (s.setByte a v).regs = s.regs := rfl
@[simp] theorem setByte_status : (s.setByte a v).status = s.status := rfl
@[simp] theorem setByte_fcmd : (s.setByte a v).fcmd = s.fcmd := rfl
@[simp] theorem setByte_buf : (s.setByte a v).buf = Memory.write s.buf a v := rfl
@[simp] theorem setByte_draws : (s.setByte a v).draws = s.draws := rfl
@[simp] theorem setByte_pending : (s.setByte a v).pending = s.pending := rfl
@[simp] theorem setByte_replies : (s.setByte a v).replies = s.replies := rfl

@[simp] theorem setT_regs : (s.setT b).regs = s.regs := rfl
@[simp] theorem setT_status : (s.setT b).status = setField s.status 0 (BitVec.ofBool b) := rfl
@[simp] theorem setT_fcmd : (s.setT b).fcmd = s.fcmd := rfl
@[simp] theorem setT_buf : (s.setT b).buf = s.buf := rfl
@[simp] theorem setT_draws : (s.setT b).draws = s.draws := rfl
@[simp] theorem setT_pending : (s.setT b).pending = s.pending := rfl
@[simp] theorem setT_replies : (s.setT b).replies = s.replies := rfl

@[simp] theorem setP_regs : (s.setP b).regs = s.regs := rfl
@[simp] theorem setP_status : (s.setP b).status = setField s.status 1 (BitVec.ofBool b) := rfl
@[simp] theorem setP_fcmd : (s.setP b).fcmd = s.fcmd := rfl
@[simp] theorem setP_buf : (s.setP b).buf = s.buf := rfl
@[simp] theorem setP_draws : (s.setP b).draws = s.draws := rfl
@[simp] theorem setP_pending : (s.setP b).pending = s.pending := rfl
@[simp] theorem setP_replies : (s.setP b).replies = s.replies := rfl

@[simp] theorem setN_regs : (s.setN n).regs = s.regs := rfl
@[simp] theorem setN_status : (s.setN n).status = setField s.status 2 n := rfl
@[simp] theorem setN_fcmd : (s.setN n).fcmd = s.fcmd := rfl
@[simp] theorem setN_buf : (s.setN n).buf = s.buf := rfl
@[simp] theorem setN_draws : (s.setN n).draws = s.draws := rfl
@[simp] theorem setN_pending : (s.setN n).pending = s.pending := rfl
@[simp] theorem setN_replies : (s.setN n).replies = s.replies := rfl

@[simp] theorem raise_regs : (s.raise x w).regs = s.regs := rfl
@[simp] theorem raise_status :
    (s.raise x w).status = setField (setField s.status 4 (1 : BitVec 1)) 5 x.code := rfl
@[simp] theorem raise_fcmd : (s.raise x w).fcmd = w := rfl
@[simp] theorem raise_buf : (s.raise x w).buf = s.buf := rfl
@[simp] theorem raise_draws : (s.raise x w).draws = s.draws := rfl
@[simp] theorem raise_pending : (s.raise x w).pending = s.pending := rfl
@[simp] theorem raise_replies : (s.raise x w).replies = s.replies := rfl

@[simp] theorem drawn_regs : s.drawn.regs = s.regs := rfl
@[simp] theorem drawn_status : s.drawn.status = s.status := rfl
@[simp] theorem drawn_fcmd : s.drawn.fcmd = s.fcmd := rfl
@[simp] theorem drawn_buf : s.drawn.buf = s.buf := rfl
@[simp] theorem drawn_draws : s.drawn.draws = s.draws + 1 := rfl
@[simp] theorem drawn_pending : s.drawn.pending = s.pending := rfl
@[simp] theorem drawn_replies : s.drawn.replies = s.replies := rfl

@[simp] theorem resetUnit_regs : s.resetUnit.regs = Vector.replicate 16 0 := rfl
@[simp] theorem resetUnit_status : s.resetUnit.status = 0 := rfl
@[simp] theorem resetUnit_fcmd : s.resetUnit.fcmd = 0 := rfl
@[simp] theorem resetUnit_buf : s.resetUnit.buf = s.buf := rfl
@[simp] theorem resetUnit_draws : s.resetUnit.draws = s.draws := rfl
@[simp] theorem resetUnit_pending : s.resetUnit.pending = s.pending := rfl
@[simp] theorem resetUnit_replies : s.resetUnit.replies = s.replies := rfl

@[simp] theorem take_regs : s.take.regs = s.regs := rfl
@[simp] theorem take_status : s.take.status = s.status := rfl
@[simp] theorem take_fcmd : s.take.fcmd = s.fcmd := rfl
@[simp] theorem take_buf : s.take.buf = s.buf := rfl
@[simp] theorem take_draws : s.take.draws = s.draws := rfl
@[simp] theorem take_pending : s.take.pending = s.pending.tail := rfl
@[simp] theorem take_replies : s.take.replies = s.replies := rfl

@[simp] theorem reply_regs (y : Reply) : (s.reply y).regs = s.regs := rfl
@[simp] theorem reply_status (y : Reply) : (s.reply y).status = s.status := rfl
@[simp] theorem reply_fcmd (y : Reply) : (s.reply y).fcmd = s.fcmd := rfl
@[simp] theorem reply_buf (y : Reply) : (s.reply y).buf = s.buf := rfl
@[simp] theorem reply_draws (y : Reply) : (s.reply y).draws = s.draws := rfl
@[simp] theorem reply_pending (y : Reply) : (s.reply y).pending = s.pending := rfl
@[simp] theorem reply_replies (y : Reply) : (s.reply y).replies = s.replies ++ [y] := rfl

/-! ## Registers -/

@[simp] theorem setReg_reg_same : (s.setReg r c).reg r = c := by
  simp [State.reg, State.setReg, Vector.get_eq_getElem]

theorem setReg_reg_ne {r' : Reg} (h : r' ≠ r) : (s.setReg r c).reg r' = s.reg r' := by
  have : (r : Nat) ≠ r' := fun e => h (Fin.ext e.symm)
  simp [State.reg, State.setReg, Vector.get_eq_getElem, Vector.getElem_set_ne, this]

theorem setReg_reg (r' : Reg) : (s.setReg r c).reg r' = if r' = r then c else s.reg r' := by
  by_cases h : r' = r
  · subst h; simp
  · simp [h, setReg_reg_ne]

end Fields

/-- A register reads alike in two states with the same register file. -/
theorem reg_congr {s t : State} (h : t.regs = s.regs) (r : Reg) : t.reg r = s.reg r := by simp [State.reg, h]

/-- A byte reads alike in two states with the same buffer. -/
theorem byte_congr {s t : State} (h : t.buf = s.buf) (a : Nat) : t.byte a = s.byte a := by simp [State.byte, h]

@[simp] theorem setByte_reg (s : State) (a : Nat) (v : Byte) (r : Reg) : (s.setByte a v).reg r = s.reg r := rfl
@[simp] theorem setT_reg (s : State) (b : Bool) (r : Reg) : (s.setT b).reg r = s.reg r := rfl
@[simp] theorem setP_reg (s : State) (b : Bool) (r : Reg) : (s.setP b).reg r = s.reg r := rfl
@[simp] theorem setN_reg (s : State) (n : BitVec 2) (r : Reg) : (s.setN n).reg r = s.reg r := rfl
@[simp] theorem raise_reg (s : State) (x : Cause) (w : Word) (r : Reg) : (s.raise x w).reg r = s.reg r := rfl
@[simp] theorem drawn_reg (s : State) (r : Reg) : s.drawn.reg r = s.reg r := rfl
@[simp] theorem take_reg (s : State) (r : Reg) : s.take.reg r = s.reg r := rfl
@[simp] theorem reply_reg (s : State) (y : Reply) (r : Reg) : (s.reply y).reg r = s.reg r := rfl
@[simp] theorem resetUnit_reg (s : State) (r : Reg) : s.resetUnit.reg r = 0 := by
  simp [State.reg, State.resetUnit, Vector.get_eq_getElem]

@[simp] theorem setReg_byte (s : State) (r : Reg) (c : Container) (a : Nat) : (s.setReg r c).byte a = s.byte a := rfl
@[simp] theorem setT_byte (s : State) (b : Bool) (a : Nat) : (s.setT b).byte a = s.byte a := rfl
@[simp] theorem setP_byte (s : State) (b : Bool) (a : Nat) : (s.setP b).byte a = s.byte a := rfl
@[simp] theorem setN_byte (s : State) (n : BitVec 2) (a : Nat) : (s.setN n).byte a = s.byte a := rfl
@[simp] theorem raise_byte (s : State) (x : Cause) (w : Word) (a : Nat) : (s.raise x w).byte a = s.byte a := rfl
@[simp] theorem drawn_byte (s : State) (a : Nat) : s.drawn.byte a = s.byte a := rfl
@[simp] theorem take_byte (s : State) (a : Nat) : s.take.byte a = s.byte a := rfl
@[simp] theorem reply_byte (s : State) (y : Reply) (a : Nat) : (s.reply y).byte a = s.byte a := rfl
@[simp] theorem resetUnit_byte (s : State) (a : Nat) : s.resetUnit.byte a = s.byte a := rfl

@[simp] theorem reset_reg (r : Reg) : State.reset.reg r = 0 := by
  simp [State.reg, State.reset, Vector.get_eq_getElem]

end Sys2Proof.Machine
end

