-- ==== Sys2Proof/Laws/Flags.lean ====
section
/-! SUPPORT. The fields of a word after a field write, and the fields of STATUS after each update. -/

namespace Sys2Proof.Machine

/-- One bit of a word after a field write: the field's own bit inside it, the old bit outside. -/
theorem getLsbD_setField (w : Word) (lo : Nat) {n : Nat} (v : BitVec n) (i : Nat) (hi : i < 32) :
    (setField w lo v).getLsbD i = if lo ≤ i ∧ i < lo + n then v.getLsbD (i - lo) else w.getLsbD i := by
  unfold setField fieldMask
  by_cases h : lo ≤ i
  · by_cases h2 : i < lo + n
    · have : i - lo < n := by omega
      have h4 : ¬ i < lo := by omega
      simp [h, h2, hi, this, h4]
    · have : ¬ i - lo < n := by omega
      have h4 : ¬ i < lo := by omega
      simp [h, h2, hi, this, h4, BitVec.getLsbD_of_ge v (i - lo) (by omega)]
  · have h4 : i < lo := by omega
    simp [h, hi, h4]

/-- The field that was written reads as written. -/
theorem getField_setField_same (w : Word) (lo : Nat) {n : Nat} (v : BitVec n) (h : lo + n ≤ 32) :
    getField (setField w lo v) lo n = v := by
  apply BitVec.eq_of_getLsbD_eq
  intro i hi
  have := getLsbD_setField w lo v (lo + i) (by omega)
  simp [getField, hi, this]

/-- A field that does not overlap the written one reads as before. -/
theorem getField_setField_ne (w : Word) (lo : Nat) {n : Nat} (v : BitVec n) (lo' n' : Nat)
    (h : lo' + n' ≤ 32) (hd : lo' + n' ≤ lo ∨ lo + n ≤ lo') :
    getField (setField w lo v) lo' n' = getField w lo' n' := by
  apply BitVec.eq_of_getLsbD_eq
  intro i hi
  have := getLsbD_setField w lo v (lo' + i) (by omega)
  have hout : ¬ (lo ≤ lo' + i ∧ lo' + i < lo + n) := by omega
  simp [getField, hi, this, hout]

section Status
variable (s : State) (b : Bool) (n : BitVec 2) (x : Cause) (w : Word)

@[simp] theorem setT_flagT : (s.setT b).flagT = BitVec.ofBool b := getField_setField_same _ _ _ (by omega)
@[simp] theorem setT_flagP : (s.setT b).flagP = s.flagP := getField_setField_ne _ _ _ _ _ (by omega) (by omega)
@[simp] theorem setT_fieldN : (s.setT b).fieldN = s.fieldN := getField_setField_ne _ _ _ _ _ (by omega) (by omega)
@[simp] theorem setT_flagFault : (s.setT b).flagFault = s.flagFault := getField_setField_ne _ _ _ _ _ (by omega) (by omega)
@[simp] theorem setT_fieldCause : (s.setT b).fieldCause = s.fieldCause := getField_setField_ne _ _ _ _ _ (by omega) (by omega)
@[simp] theorem setT_statusRest : (s.setT b).statusRest = s.statusRest := getField_setField_ne _ _ _ _ _ (by omega) (by omega)

@[simp] theorem setP_flagT : (s.setP b).flagT = s.flagT := getField_setField_ne _ _ _ _ _ (by omega) (by omega)
@[simp] theorem setP_flagP : (s.setP b).flagP = BitVec.ofBool b := getField_setField_same _ _ _ (by omega)
@[simp] theorem setP_fieldN : (s.setP b).fieldN = s.fieldN := getField_setField_ne _ _ _ _ _ (by omega) (by omega)
@[simp] theorem setP_flagFault : (s.setP b).flagFault = s.flagFault := getField_setField_ne _ _ _ _ _ (by omega) (by omega)
@[simp] theorem setP_fieldCause : (s.setP b).fieldCause = s.fieldCause := getField_setField_ne _ _ _ _ _ (by omega) (by omega)
@[simp] theorem setP_statusRest : (s.setP b).statusRest = s.statusRest := getField_setField_ne _ _ _ _ _ (by omega) (by omega)

@[simp] theorem setN_flagT : (s.setN n).flagT = s.flagT := getField_setField_ne _ _ _ _ _ (by omega) (by omega)
@[simp] theorem setN_flagP : (s.setN n).flagP = s.flagP := getField_setField_ne _ _ _ _ _ (by omega) (by omega)
@[simp] theorem setN_fieldN : (s.setN n).fieldN = n := getField_setField_same _ _ _ (by omega)
@[simp] theorem setN_flagFault : (s.setN n).flagFault = s.flagFault := getField_setField_ne _ _ _ _ _ (by omega) (by omega)
@[simp] theorem setN_fieldCause : (s.setN n).fieldCause = s.fieldCause := getField_setField_ne _ _ _ _ _ (by omega) (by omega)
@[simp] theorem setN_statusRest : (s.setN n).statusRest = s.statusRest := getField_setField_ne _ _ _ _ _ (by omega) (by omega)

/-- A field outside bits 7:4 reads as before after taking a fault. -/
theorem raise_getField (lo n : Nat) (h : lo + n ≤ 32) (hd : lo + n ≤ 4 ∨ 8 ≤ lo) :
    getField (s.raise x w).status lo n = getField s.status lo n := by
  rw [raise_status, getField_setField_ne _ _ _ _ _ h (by omega),
    getField_setField_ne _ _ _ _ _ h (by omega)]

@[simp] theorem raise_flagT : (s.raise x w).flagT = s.flagT := raise_getField s x w 0 1 (by omega) (by omega)
@[simp] theorem raise_flagP : (s.raise x w).flagP = s.flagP := raise_getField s x w 1 1 (by omega) (by omega)
@[simp] theorem raise_fieldN : (s.raise x w).fieldN = s.fieldN := raise_getField s x w 2 2 (by omega) (by omega)
@[simp] theorem raise_statusRest : (s.raise x w).statusRest = s.statusRest := raise_getField s x w 8 24 (by omega) (by omega)
@[simp] theorem raise_flagFault : (s.raise x w).flagFault = 1 := by
  show getField (s.raise x w).status 4 1 = 1
  rw [raise_status, getField_setField_ne _ _ _ _ _ (by omega) (by omega)]
  exact getField_setField_same _ _ _ (by omega)
@[simp] theorem raise_fieldCause : (s.raise x w).fieldCause = x.code := getField_setField_same _ _ _ (by omega)

@[simp] theorem setReg_flagT (r : Reg) (c : Container) : (s.setReg r c).flagT = s.flagT := rfl
@[simp] theorem setReg_flagP (r : Reg) (c : Container) : (s.setReg r c).flagP = s.flagP := rfl
@[simp] theorem setReg_fieldN (r : Reg) (c : Container) : (s.setReg r c).fieldN = s.fieldN := rfl
@[simp] theorem setReg_flagFault (r : Reg) (c : Container) : (s.setReg r c).flagFault = s.flagFault := rfl
@[simp] theorem setReg_fieldCause (r : Reg) (c : Container) : (s.setReg r c).fieldCause = s.fieldCause := rfl
@[simp] theorem setReg_statusRest (r : Reg) (c : Container) : (s.setReg r c).statusRest = s.statusRest := rfl
@[simp] theorem setByte_flagT (a : Nat) (v : Byte) : (s.setByte a v).flagT = s.flagT := rfl
@[simp] theorem setByte_flagP (a : Nat) (v : Byte) : (s.setByte a v).flagP = s.flagP := rfl
@[simp] theorem setByte_fieldN (a : Nat) (v : Byte) : (s.setByte a v).fieldN = s.fieldN := rfl
@[simp] theorem setByte_flagFault (a : Nat) (v : Byte) : (s.setByte a v).flagFault = s.flagFault := rfl
@[simp] theorem setByte_fieldCause (a : Nat) (v : Byte) : (s.setByte a v).fieldCause = s.fieldCause := rfl
@[simp] theorem setByte_statusRest (a : Nat) (v : Byte) : (s.setByte a v).statusRest = s.statusRest := rfl
@[simp] theorem drawn_flagT : (s.drawn).flagT = s.flagT := rfl
@[simp] theorem drawn_flagP : (s.drawn).flagP = s.flagP := rfl
@[simp] theorem drawn_fieldN : (s.drawn).fieldN = s.fieldN := rfl
@[simp] theorem drawn_flagFault : (s.drawn).flagFault = s.flagFault := rfl
@[simp] theorem drawn_fieldCause : (s.drawn).fieldCause = s.fieldCause := rfl
@[simp] theorem drawn_statusRest : (s.drawn).statusRest = s.statusRest := rfl
@[simp] theorem take_flagT : (s.take).flagT = s.flagT := rfl
@[simp] theorem take_flagP : (s.take).flagP = s.flagP := rfl
@[simp] theorem take_fieldN : (s.take).fieldN = s.fieldN := rfl
@[simp] theorem take_flagFault : (s.take).flagFault = s.flagFault := rfl
@[simp] theorem take_fieldCause : (s.take).fieldCause = s.fieldCause := rfl
@[simp] theorem take_statusRest : (s.take).statusRest = s.statusRest := rfl

/-- A field of STATUS reads alike in two states with the same STATUS. -/
theorem field_congr {s t : State} (h : t.status = s.status) :
    t.flagT = s.flagT ∧ t.flagP = s.flagP ∧ t.fieldN = s.fieldN ∧ t.flagFault = s.flagFault ∧
      t.fieldCause = s.fieldCause ∧ t.statusRest = s.statusRest := by
  simp [State.flagT, State.flagP, State.fieldN, State.flagFault, State.fieldCause, State.statusRest, h]

/-- FAULT is one bit: it is 0 when it is not 1. -/
theorem flagFault_eq_zero_or_one (s : State) : s.flagFault = 0 ∨ s.flagFault = 1 := by
  have h := s.flagFault.isLt
  rcases (show s.flagFault.toNat = 0 ∨ s.flagFault.toNat = 1 by omega) with h | h
  · exact .inl (BitVec.eq_of_toNat_eq h)
  · exact .inr (BitVec.eq_of_toNat_eq h)

end Status

end Sys2Proof.Machine
end

