-- ==== Sys2Proof/Laws/Memory.lean ====
section
/-! SUPPORT. The wire buffer: reads over writes, and every memory operation keeps the canonical form. -/

namespace Sys2Proof.Machine

/-- A byte read after a write: the byte written at its own address, the old contents at every other. -/
theorem lookup_write (m : Memory) (a : Nat) (b : Byte) (a' : Nat) :
    Memory.lookup (Memory.write m a b) a' = if a' = a then some b else Memory.lookup m a' := by
  induction m with
  | nil =>
    by_cases he : a' = a
    · simp [Memory.write, Memory.lookup, he]
    · have : a ≠ a' := fun e => he e.symm
      simp [Memory.write, Memory.lookup, he, this]
  | cons hd tl ih =>
    obtain ⟨k, v⟩ := hd
    simp only [Memory.write]
    split
    · by_cases he : a' = a
      · simp [Memory.lookup, he]
      · have : a ≠ a' := fun e => he e.symm
        simp [Memory.lookup, he, this]
    · split
      · subst_vars
        by_cases he : a' = k
        · simp [Memory.lookup, he]
        · have : k ≠ a' := fun e => he e.symm
          simp [Memory.lookup, he, this]
      · by_cases he : a' = a
        · subst he
          have : k ≠ a' := by omega
          simp [Memory.lookup, this, ih]
        · simp [Memory.lookup, he, ih]

/-- A lower bound on the addresses of a canonical buffer's tail. -/
theorem wf_cons_iff (k : Nat) (v : Byte) (m : Memory) :
    Memory.wf ((k, v) :: m) = true ↔ k < bufBytes ∧ Memory.wf m = true ∧ ∀ c ∈ m, k < c.1 := by
  induction m generalizing k v with
  | nil => simp [Memory.wf]
  | cons hd tl ih =>
    obtain ⟨k', v'⟩ := hd
    simp only [Memory.wf, Bool.and_eq_true, decide_eq_true_eq, ih, List.mem_cons]
    constructor
    · rintro ⟨hk, h1, h2, h3⟩
      refine ⟨by omega, ⟨h1, h2, h3⟩, ?_⟩
      rintro c (rfl | hc)
      · exact hk
      · exact lt_trans hk (h3 c hc)
    · rintro ⟨_, h, h4⟩
      exact ⟨h4 _ (.inl rfl), h⟩

/-- The addresses listed after a write are the old ones and the written one. -/
theorem mem_write {m : Memory} {a : Nat} {b : Byte} {c : Host.Cell} (h : c ∈ Memory.write m a b) : c.1 = a ∨ c ∈ m := by
  induction m with
  | nil => simp_all [Memory.write]
  | cons hd tl ih =>
    obtain ⟨k, v⟩ := hd
    simp only [Memory.write] at h
    split at h
    · rcases List.mem_cons.1 h with rfl | h
      · exact .inl rfl
      · exact .inr h
    · split at h
      · rcases List.mem_cons.1 h with rfl | h
        · exact .inl rfl
        · exact .inr (List.mem_cons_of_mem _ h)
      · rcases List.mem_cons.1 h with rfl | h
        · exact .inr List.mem_cons_self
        · exact (ih h).imp id (List.mem_cons_of_mem _)

/-- A write inside the buffer keeps the canonical form. -/
theorem write_wf (m : Memory) (a : Nat) (b : Byte) (ha : a < bufBytes) (h : Memory.wf m = true) :
    Memory.wf (Memory.write m a b) = true := by
  induction m with
  | nil => simpa [Memory.write, Memory.wf] using ha
  | cons hd tl ih =>
    obtain ⟨k, v⟩ := hd
    obtain ⟨hk, htl, hlt⟩ := (wf_cons_iff k v tl).1 h
    simp only [Memory.write]
    split
    · rename_i hak
      refine (wf_cons_iff a b _).2 ⟨ha, h, ?_⟩
      intro c hc
      rcases List.mem_cons.1 hc with rfl | hc
      · exact hak
      · exact lt_trans hak (hlt c hc)
    · split
      · rename_i hak
        subst hak
        exact (wf_cons_iff _ _ _).2 ⟨ha, htl, hlt⟩
      · refine (wf_cons_iff _ _ _).2 ⟨hk, ih htl, ?_⟩
        intro c hc
        rcases mem_write hc with rfl | hc
        · omega
        · exact hlt c hc

/-- `BUF[a]` after `BUF[a'] <- b`. -/
theorem setByte_byte (s : State) (a' : Nat) (b : Byte) (a : Nat) :
    (s.setByte a' b).byte a = if a = a' then b else s.byte a := by
  simp only [State.byte, setByte_buf, lookup_write]
  split <;> rfl

/-- What MemWrite leaves alone. -/
theorem memWrite_frame (s : State) (a : Nat) (bs : List Byte) :
    (s.memWrite a bs).regs = s.regs ∧ (s.memWrite a bs).status = s.status ∧ (s.memWrite a bs).fcmd = s.fcmd ∧
      (s.memWrite a bs).draws = s.draws ∧ (s.memWrite a bs).pending = s.pending ∧
      (s.memWrite a bs).replies = s.replies := by
  induction bs generalizing s a with
  | nil => simp [State.memWrite]
  | cons b bs ih => simpa [State.memWrite] using ih (s.setByte a b) (a + 1)

/-- MemWrite inside the buffer keeps the canonical form. -/
theorem memWrite_wf (s : State) (a : Nat) (bs : List Byte) (h : Memory.wf s.buf = true) (hin : a + bs.length ≤ bufBytes) :
    Memory.wf (s.memWrite a bs).buf = true := by
  induction bs generalizing s a with
  | nil => simpa [State.memWrite] using h
  | cons b bs ih =>
    simp only [List.length_cons] at hin
    exact ih _ _ (write_wf _ _ _ (by omega) h) (by omega)

/-- `BUF[a']` after MemWrite: byte `a' - a` of the list inside the region, the old byte outside (R55). -/
theorem memWrite_byte (s : State) (a : Nat) (bs : List Byte) (a' : Nat) :
    (s.memWrite a bs).byte a' = if a ≤ a' ∧ a' < a + bs.length then bs.getD (a' - a) 0 else s.byte a' := by
  induction bs generalizing s a with
  | nil =>
    have : ¬ (a ≤ a' ∧ a' < a + ([] : List Byte).length) := by simp
    simp only [State.memWrite, if_neg this]
  | cons b bs ih =>
    rw [State.memWrite, ih, setByte_byte, List.length_cons]
    by_cases h1 : a' = a
    · subst h1; simp
    · by_cases h2 : a ≤ a' ∧ a' < a + (bs.length + 1)
      · have h3 : a + 1 ≤ a' ∧ a' < a + 1 + bs.length := by omega
        have h4 : a' - a = a' - (a + 1) + 1 := by omega
        simp [h2, h3, h4]
      · have h3 : ¬ (a + 1 ≤ a' ∧ a' < a + 1 + bs.length) := by omega
        simp only [if_neg h2, if_neg h3, if_neg h1]

end Sys2Proof.Machine
end

