-- ==== Sys2Proof/Laws/Operands.lean ====
section
/-! SUPPORT. Containers and elements, reading operands, writing results: what each shared operation can do. -/

namespace Sys2Proof.Machine

/-! ## Containers and elements -/

/-- The container of an element is valid (R20). -/
@[simp] theorem isValid_containerOf (e : Element) : isValid (containerOf e) = true := by
  simp only [isValid, containerOf, beq_iff_eq]
  apply BitVec.eq_of_getLsbD_eq
  intro i hi
  simp [hi]

/-- An element survives its container. -/
@[simp] theorem elementOf_containerOf (e : Element) : elementOf (containerOf e) = e := by
  apply BitVec.eq_of_getLsbD_eq
  intro i hi
  simp [elementOf, containerOf, hi]

/-- A valid container is its element's container. -/
theorem containerOf_elementOf {c : Container} (h : isValid c = true) : containerOf (elementOf c) = c := by
  apply BitVec.eq_of_getLsbD_eq
  intro i hi
  by_cases h1 : i < 113
  · simp [elementOf, containerOf, hi, h1]
  · have h2 : c.extractLsb' 113 15 = 0 := by simpa [isValid] using h
    have h3 : (c.extractLsb' 113 15).getLsbD (i - 113) = c.getLsbD i := by
      simp [show i - 113 < 15 by omega, show 113 + (i - 113) = i by omega]
    have h4 : c.getLsbD i = false := by rw [← h3, h2]; exact BitVec.getLsbD_zero
    simp [elementOf, containerOf, hi, h1, h4, -BitVec.getLsbD_eq_getElem]

/-- Different elements have different containers. -/
theorem containerOf_inj {a b : Element} (h : containerOf a = containerOf b) : a = b := by
  simpa using congrArg elementOf h

@[simp] theorem containerOf_zero : containerOf gfZero = 0 := by decide

/-- A valid container is 0 exactly when its element is Zero. -/
theorem elementOf_eq_zero_iff {c : Container} (h : isValid c = true) : elementOf c = gfZero ↔ c = 0 := by
  constructor
  · intro he
    rw [← containerOf_elementOf h, he, containerOf_zero]
  · rintro rfl
    decide

/-! ## Source operands -/

theorem element?_of_valid {s : State} {r : Reg} (h : isValid (s.reg r) = true) :
    s.element? r = some (elementOf (s.reg r)) := by simp [State.element?, h]

theorem element?_of_invalid {s : State} {r : Reg} (h : isValid (s.reg r) = false) : s.element? r = none := by
  simp [State.element?, h]

theorem apply1_of_valid {α : Type} {s : State} (f : Element → α) {r : Reg} (h : isValid (s.reg r) = true) :
    s.apply1 f r = some (f (elementOf (s.reg r))) := by simp [State.apply1, element?_of_valid h]

theorem apply2_of_valid {α : Type} {s : State} (f : Element → Element → α) {r1 r2 : Reg} (h1 : isValid (s.reg r1) = true)
    (h2 : isValid (s.reg r2) = true) : s.apply2 f r1 r2 = some (f (elementOf (s.reg r1)) (elementOf (s.reg r2))) := by
  simp [State.apply2, element?_of_valid h1, element?_of_valid h2]

theorem apply3_of_valid {α : Type} {s : State} (f : Element → Element → Element → α) {r1 r2 r3 : Reg}
    (h1 : isValid (s.reg r1) = true) (h2 : isValid (s.reg r2) = true) (h3 : isValid (s.reg r3) = true) :
    s.apply3 f r1 r2 r3 = some (f (elementOf (s.reg r1)) (elementOf (s.reg r2)) (elementOf (s.reg r3))) := by
  simp [State.apply3, element?_of_valid h1, element?_of_valid h2, element?_of_valid h3]

/-! ## Destinations: what each writer leaves alone -/

/-- Writing a result leaves everything but the destination and the draw counter as it was. -/
theorem setResult_frame (s : State) (rd : Reg) (v : Option Element) : onlyReg rd s (s.setResult rd v) := by
  cases v <;> exact ⟨fun r h => setReg_reg_ne _ _ _ h, ⟨rfl, rfl⟩, fun _ => rfl, ⟨rfl, rfl⟩⟩

/-- A result that is an element stands in its container. -/
@[simp] theorem setResult_some_reg (s : State) (rd : Reg) (e : Element) :
    (s.setResult rd (some e)).reg rd = containerOf e := by simp [State.setResult]

/-- `Inverse` changes nothing but the draw counter. -/
theorem inverseOf_state (s : State) (a : Element) : (s.inverseOf a).2 = s ∨ (s.inverseOf a).2 = s.drawn := by
  simp only [State.inverseOf]
  split
  · exact .inr rfl
  · exact .inl rfl

/-- Writing the outcome of the affine solver: N, and the destination when there is a root. -/
theorem setRoot_frame (s : State) (rd : Reg) (o : Option Container) :
    sameRegsBut rd s (s.setRoot rd o) ∧ statusButN s (s.setRoot rd o) ∧ sameBuf s (s.setRoot rd o) ∧
      samePort s (s.setRoot rd o) := by
  cases o with
  | none => simp [State.setRoot, sameRegsBut, statusButN, sameBuf, samePort]
  | some x1 => simp +contextual [State.setRoot, sameRegsBut, statusButN, sameBuf, samePort, setReg_reg_ne]

/-- Writing the outcome of the general solver: N, and the destinations that there are roots for. -/
theorem setRoots_frame (s : State) (rd rd2 : Reg) (o : Roots Container) :
    (∀ r, r ≠ rd → r ≠ rd2 → (s.setRoots rd rd2 o).reg r = s.reg r) ∧ onlyRegsAndN s (s.setRoots rd rd2 o) := by
  cases o <;>
    simp +contextual [State.setRoots, onlyRegsAndN, statusButN, sameBuf, samePort, setReg_reg_ne]

/-- A read for SER or TRACE changes nothing but the draw counter. -/
theorem afterRead_state (s : State) (r : Reg) : s.afterRead r = s ∨ s.afterRead r = s.drawn := by
  simp only [State.afterRead]
  split
  · exact .inl rfl
  · exact .inr rfl

theorem afterRead_of_valid {s : State} {r : Reg} (h : isValid (s.reg r) = true) : s.afterRead r = s := by
  simp [State.afterRead, h]

/-- The wire form has 15 bytes (R52). -/
@[simp] theorem length_bytesOfWire (v : BitVec 120) : (bytesOfWire v).length = wireBytes := by simp [bytesOfWire]

/-- Byte `j` of a wire form is its bits `8j + 7 : 8j` (R52). -/
theorem getD_bytesOfWire (v : BitVec 120) (j : Nat) (h : j < wireBytes) :
    (bytesOfWire v).getD j 0 = v.extractLsb' (8 * j) 8 := by
  simp [bytesOfWire, h]

theorem length_wireOfReg (s : State) (r : Reg) : (s.wireOfReg r).length = wireBytes := by
  simp only [State.wireOfReg]
  split <;> simp [serialize]

/-- MemRead returns `n` bytes (R53). -/
@[simp] theorem length_memRead (s : State) (a n : Nat) : (s.memRead a n).length = n := by simp [State.memRead]

end Sys2Proof.Machine
end

