-- ==== Sys2Proof/Laws/Field.lean ====
section
/-! SUPPORT. The field functions bit by bit: rotations, the parity, the affine root. -/

namespace Sys2Proof.Machine

/-- Bits of the left rotation (R130). -/
theorem getLsbD_rotl113 (v : Element) (n : Nat) (h : n < 113) :
    (rotl113 v).getLsbD n = if n = 0 then v.getLsbD 112 else v.getLsbD (n - 1) := by
  by_cases h0 : n = 0
  · subst h0; simp [rotl113]
  · have h1 : ¬ n < 1 := by omega
    have h2 : v.getLsbD (112 + n) = false := BitVec.getLsbD_of_ge _ _ (by omega)
    simp [rotl113, h0, h, h2, -BitVec.getLsbD_eq_getElem]

/-- Bits of the right rotation (R131). -/
theorem getLsbD_rotr113 (v : Element) (n : Nat) (h : n < 113) :
    (rotr113 v).getLsbD n = if n = 112 then v.getLsbD 0 else v.getLsbD (n + 1) := by
  by_cases h1 : n = 112
  · subst h1; simp [rotr113]
  · have h2 : n < 112 := by omega
    simp [rotr113, h1, h2, Nat.add_comm]

/-- Bits of a rotation left by `k`: bit `j` goes to bit `(j + k) mod 113` (R134). -/
theorem getLsbD_rotlBy (k : Nat) (v : Element) (n : Nat) (h : n < 113) :
    (rotlBy k v).getLsbD n = v.getLsbD ((n + (113 - k % 113)) % 113) := by
  have hk : k % 113 < 113 := Nat.mod_lt _ (by omega)
  simp only [rotlBy, BitVec.getLsbD_rotateLeft]
  by_cases h1 : n < k % 113
  · simp only [h1, decide_true, cond_true]
    congr 1; omega
  · simp only [h1, decide_false, cond_false, h, decide_true, Bool.true_and]
    congr 1; omega

/-- Bits of a rotation right by `k`: `M[k][n] = b[n + k]` (R143). -/
theorem getLsbD_rotrBy (k : Nat) (v : Element) (n : Nat) (h : n < 113) :
    (rotrBy k v).getLsbD n = v.getLsbD ((n + k) % 113) := by
  have hk : k % 113 < 113 := Nat.mod_lt _ (by omega)
  simp only [rotrBy, BitVec.getLsbD_rotateRight]
  by_cases h1 : n < 113 - k % 113
  · simp only [h1, decide_true, cond_true]
    congr 1; omega
  · simp only [h1, decide_false, cond_false, h, decide_true, Bool.true_and]
    congr 1; omega

/-- One more left rotation. -/
theorem rotlBy_succ (k : Nat) (v : Element) : rotlBy (k + 1) v = rotl113 (rotlBy k v) := by
  apply BitVec.eq_of_getLsbD_eq
  intro n hn
  rw [getLsbD_rotl113 _ _ hn]
  split
  · subst_vars
    rw [getLsbD_rotlBy _ _ _ (by omega), getLsbD_rotlBy _ _ _ (by omega)]
    congr 1; omega
  · rw [getLsbD_rotlBy _ _ _ hn, getLsbD_rotlBy _ _ _ (by omega)]
    congr 1; omega

/-- One more right rotation. -/
theorem rotrBy_succ (k : Nat) (v : Element) : rotrBy (k + 1) v = rotr113 (rotrBy k v) := by
  apply BitVec.eq_of_getLsbD_eq
  intro n hn
  rw [getLsbD_rotr113 _ _ hn]
  split
  · subst_vars
    rw [getLsbD_rotrBy _ _ _ (by omega), getLsbD_rotrBy _ _ _ (by omega)]
    congr 1; omega
  · rw [getLsbD_rotrBy _ _ _ hn, getLsbD_rotrBy _ _ _ (by omega)]
    congr 1; omega

@[simp] theorem rotlBy_zero_count (v : Element) : rotlBy 0 v = v := by
  apply BitVec.eq_of_getLsbD_eq
  intro n hn
  rw [getLsbD_rotlBy _ _ _ hn]
  congr 1; omega

@[simp] theorem rotrBy_zero_count (v : Element) : rotrBy 0 v = v := by
  apply BitVec.eq_of_getLsbD_eq
  intro n hn
  rw [getLsbD_rotrBy _ _ _ hn]
  congr 1; omega

/-- `rotlBy k` is `rotl113` applied `k` times (R134, R160). -/
theorem rotlBy_eq_iterate (k : Nat) (v : Element) : rotlBy k v = rotl113^[k] v := by
  induction k with
  | zero => simp
  | succ k ih => rw [rotlBy_succ, ih, Function.iterate_succ_apply']

/-- `rotrBy k` is `rotr113` applied `k` times (R134). -/
theorem rotrBy_eq_iterate (k : Nat) (v : Element) : rotrBy k v = rotr113^[k] v := by
  induction k with
  | zero => simp
  | succ k ih => rw [rotrBy_succ, ih, Function.iterate_succ_apply']

/-- The affine root's bits above `n` are still clear after bit `n` has been placed. -/
theorem rootUpTo_above (z0 : Bool) (β : Element) (n i : Nat) (h : n < i) : (rootUpTo z0 β n).getLsbD i = false := by
  induction n with
  | zero =>
    have : ¬ i < 1 := by omega
    simp [rootUpTo, BitVec.getLsbD_of_ge (BitVec.ofBool z0) i (by omega)]
  | succ n ih =>
    simp only [rootUpTo, BitVec.getLsbD_or, ih (by omega), Bool.false_or, BitVec.getLsbD_shiftLeft]
    simp [BitVec.getLsbD_of_ge (BitVec.ofBool _) (i - (n + 1)) (by omega)]

/-- Bit 0 of the affine root is QS_Z0 (R181). -/
theorem rootUpTo_zero (z0 : Bool) (β : Element) (n : Nat) : (rootUpTo z0 β n).getLsbD 0 = z0 := by
  induction n with
  | zero => cases z0 <;> simp [rootUpTo]
  | succ n ih => simp [rootUpTo, ih, -BitVec.getLsbD_eq_getElem]

/-- The recurrence of the affine root: `z[n] = z[n-1] XOR β[n]` (R181). -/
theorem rootUpTo_rec (z0 : Bool) (β : Element) (n i : Nat) (hi : i < n) (hn : n < 113) :
    (rootUpTo z0 β n).getLsbD (i + 1) = ((rootUpTo z0 β n).getLsbD i ^^ β.getLsbD (i + 1)) := by
  induction n with
  | zero => omega
  | succ n ih =>
    have key : ∀ j, j ≤ n → (rootUpTo z0 β (n + 1)).getLsbD j = (rootUpTo z0 β n).getLsbD j := by
      intro j hj
      have : j < n + 1 := by omega
      simp [rootUpTo, this]
    by_cases h : i < n
    · rw [key _ (by omega), key _ (by omega), ih h (by omega)]
    · have he : i = n := by omega
      subst he
      rw [key i le_rfl]
      have habove : (rootUpTo z0 β i).getLsbD (i + 1) = false := rootUpTo_above z0 β i (i + 1) (Nat.lt_succ_self i)
      simp [rootUpTo, habove, hn, -BitVec.getLsbD_eq_getElem]

/-! ## The table: only its rows matter -/

/-- The product over the unit's table is the product over the default: the order inside a row and the sentinel play no part. -/
theorem gfMul_multab : gfMul Config.multab = gfMul Config.tableR145 := rfl

/-- Exchanging the two indices of rows changes no product (R144). -/
theorem mulTerms_congr {rows rows' : List (Nat × Nat)} (h : List.Forall₂ (fun p q => p = q ∨ p = (q.2, q.1)) rows rows')
    (a b : Element) (i : Nat) : mulTerms a b i rows = mulTerms a b i rows' := by
  induction h generalizing i with
  | nil => rfl
  | cons hpq _ ih =>
    obtain rfl | rfl := hpq
    · simp only [mulTerms, ih]
    · simp only [mulTerms, ih, BitVec.xor_comm]

@[simp] theorem length_column (flipped : BitVec 113) (other : Bool) (i : Nat) (rows : List (Nat × Nat)) :
    (MulTable.column flipped other i rows).length = rows.length := by
  induction rows generalizing i with
  | nil => rfl
  | cons row rows ih => simp [MulTable.column, ih]

@[simp] theorem length_t0 (tab : MulTable) : tab.t0.length = tab.rows.length + 1 := by simp [MulTable.t0]
@[simp] theorem length_t1 (tab : MulTable) : tab.t1.length = tab.rows.length + 1 := by simp [MulTable.t1]

/-- T0 and T1 hold the rows' indices, each row's two in one order or the other (R140). -/
theorem column_zip (flipped : BitVec 113) (i : Nat) (rows : List (Nat × Nat)) :
    List.Forall₂ (fun p q => p = q ∨ p = (q.2, q.1))
      ((MulTable.column flipped false i rows).zip (MulTable.column flipped true i rows)) rows := by
  induction rows generalizing i with
  | nil => exact .nil
  | cons row rows ih =>
    refine .cons ?_ (ih (i + 1))
    cases flipped.getLsbD i <;> simp

/-- The product from T0 and T1 themselves, as R141 writes it: `M[T0[i]] XOR M[T1[i]]` in row `i`. -/
theorem gfMul_eq_tables (tab : MulTable) (a b : Element) :
    gfMul tab a b = (a &&& rotrBy (tab.t0.headD 0) b) ^^^ mulTerms a b 1 (tab.t0.tail.zip tab.t1.tail) := by
  simp only [gfMul, MulTable.t0, MulTable.t1, List.headD_cons, List.tail_cons, mulTerms_congr (column_zip _ _ _)]

end Sys2Proof.Machine
end

