-- ==== Sys2Proof/Laws/PerInstr.lean ====
section
/-! SUPPORT. The per-command family MatchesRow: the encoded word of a command is accepted by a row of the opcode map (R74),
and that row reads the command's own operands back from it (R71, R72, R73). -/

namespace Sys2Proof.Laws

/-- Some row of the opcode map accepts the encoded command and reads its operands back. -/
def MatchesRow.Statement (i : Instr) : Prop :=
  ∃ row ∈ opcodeMap, row.accepts (encode i) = true ∧ row.operands (encode i) = i

/-- A word whose masked fields are the pattern's is accepted. -/
theorem accepts_of_fields {row : OpcodeRow} {op op' : BitVec 8} {a b c d e f a' b' c' d' e' f' : BitVec 4}
    (hm : row.mask = packWord op' a' b' c' d' e' f')
    (hp : row.pattern = packWord (op &&& op') (a &&& a') (b &&& b') (c &&& c') (d &&& d') (e &&& e') (f &&& f')) :
    row.accepts (packWord op a b c d e f) = true := by
  simp only [OpcodeRow.accepts, hm, packWord_and, hp, beq_self_eq_true]

theorem MatchesRow.zero (rd : Reg) : MatchesRow.Statement (.zero rd) := by
  refine ⟨opcodeMap[0], List.getElem_mem _, ?_, ?_⟩
  · rw [show encode (.zero rd) = formatR 0x10 rd 0 0 0 0 from rfl, formatR_eq]
    exact accepts_of_fields (op' := 0xFF) (a' := 0) (b' := 15) (c' := 15) (d' := 15) (e' := 15) (f' := 15) rfl (by simp; rfl)
  · show Instr.zero (rdOf (encode (.zero rd))) = _
    simp [encode, formatR_eq, rdOf]

theorem MatchesRow.one (rd : Reg) : MatchesRow.Statement (.one rd) := by
  refine ⟨opcodeMap[1], List.getElem_mem _, ?_, ?_⟩
  · rw [show encode (.one rd) = formatR 0x11 rd 0 0 0 0 from rfl, formatR_eq]
    exact accepts_of_fields (op' := 0xFF) (a' := 0) (b' := 15) (c' := 15) (d' := 15) (e' := 15) (f' := 15) rfl (by simp; rfl)
  · show Instr.one (rdOf (encode (.one rd))) = _
    simp [encode, formatR_eq, rdOf]

theorem MatchesRow.mov (rd rs1 : Reg) : MatchesRow.Statement (.mov rd rs1) := by
  refine ⟨opcodeMap[2], List.getElem_mem _, ?_, ?_⟩
  · rw [show encode (.mov rd rs1) = formatR 0x12 rd rs1 0 0 0 from rfl, formatR_eq]
    exact accepts_of_fields (op' := 0xFF) (a' := 0) (b' := 0) (c' := 15) (d' := 15) (e' := 15) (f' := 15) rfl (by simp; rfl)
  · show Instr.mov (rdOf (encode (.mov rd rs1))) (rs1Of (encode (.mov rd rs1))) = _
    simp [encode, formatR_eq, rdOf, rs1Of]

theorem MatchesRow.verify (rs1 : Reg) : MatchesRow.Statement (.verify rs1) := by
  refine ⟨opcodeMap[3], List.getElem_mem _, ?_, ?_⟩
  · rw [show encode (.verify rs1) = formatR 0x13 0 rs1 0 0 0 from rfl, formatR_eq]
    exact accepts_of_fields (op' := 0xFF) (a' := 15) (b' := 0) (c' := 15) (d' := 15) (e' := 15) (f' := 15) rfl (by simp; rfl)
  · show Instr.verify (rs1Of (encode (.verify rs1))) = _
    simp [encode, formatR_eq, rs1Of]

theorem MatchesRow.ser (r : Reg) (addr len : Byte) : MatchesRow.Statement (.ser r addr len) := by
  refine ⟨opcodeMap[4], List.getElem_mem _, ?_, ?_⟩
  · rw [show encode (.ser r addr len) = formatM 0x14 r addr len from rfl, formatM_eq]
    exact accepts_of_fields (op' := 0xFF) (a' := 0) (b' := 0) (c' := 0) (d' := 0) (e' := 0) (f' := 15) rfl (by simp; rfl)
  · obtain ⟨hr, ha, hl⟩ := formatM_fields 0x14 r addr len
    show Instr.ser (rdOf (formatM 0x14 r addr len)) (addrOf (formatM 0x14 r addr len)) (lenOf (formatM 0x14 r addr len)) = _
    rw [hr, ha, hl]

theorem MatchesRow.deser (r : Reg) (addr len : Byte) : MatchesRow.Statement (.deser r addr len) := by
  refine ⟨opcodeMap[5], List.getElem_mem _, ?_, ?_⟩
  · rw [show encode (.deser r addr len) = formatM 0x15 r addr len from rfl, formatM_eq]
    exact accepts_of_fields (op' := 0xFF) (a' := 0) (b' := 0) (c' := 0) (d' := 0) (e' := 0) (f' := 15) rfl (by simp; rfl)
  · obtain ⟨hr, ha, hl⟩ := formatM_fields 0x15 r addr len
    show Instr.deser (rdOf (formatM 0x15 r addr len)) (addrOf (formatM 0x15 r addr len)) (lenOf (formatM 0x15 r addr len)) = _
    rw [hr, ha, hl]

theorem MatchesRow.eq (rs1 rs2 : Reg) : MatchesRow.Statement (.eq rs1 rs2) := by
  refine ⟨opcodeMap[6], List.getElem_mem _, ?_, ?_⟩
  · rw [show encode (.eq rs1 rs2) = formatR 0x16 0 rs1 rs2 0 0 from rfl, formatR_eq]
    exact accepts_of_fields (op' := 0xFF) (a' := 15) (b' := 0) (c' := 0) (d' := 15) (e' := 15) (f' := 15) rfl (by simp; rfl)
  · show Instr.eq (rs1Of (encode (.eq rs1 rs2))) (rs2Of (encode (.eq rs1 rs2))) = _
    simp [encode, formatR_eq, rs1Of, rs2Of]

theorem MatchesRow.iszero (rs1 : Reg) : MatchesRow.Statement (.iszero rs1) := by
  refine ⟨opcodeMap[7], List.getElem_mem _, ?_, ?_⟩
  · rw [show encode (.iszero rs1) = formatR 0x17 0 rs1 0 0 0 from rfl, formatR_eq]
    exact accepts_of_fields (op' := 0xFF) (a' := 15) (b' := 0) (c' := 15) (d' := 15) (e' := 15) (f' := 15) rfl (by simp; rfl)
  · show Instr.iszero (rs1Of (encode (.iszero rs1))) = _
    simp [encode, formatR_eq, rs1Of]

theorem MatchesRow.isone (rs1 : Reg) : MatchesRow.Statement (.isone rs1) := by
  refine ⟨opcodeMap[8], List.getElem_mem _, ?_, ?_⟩
  · rw [show encode (.isone rs1) = formatR 0x18 0 rs1 0 0 0 from rfl, formatR_eq]
    exact accepts_of_fields (op' := 0xFF) (a' := 15) (b' := 0) (c' := 15) (d' := 15) (e' := 15) (f' := 15) rfl (by simp; rfl)
  · show Instr.isone (rs1Of (encode (.isone rs1))) = _
    simp [encode, formatR_eq, rs1Of]

theorem MatchesRow.add (rd rs1 rs2 : Reg) : MatchesRow.Statement (.add rd rs1 rs2) := by
  refine ⟨opcodeMap[9], List.getElem_mem _, ?_, ?_⟩
  · rw [show encode (.add rd rs1 rs2) = formatR 0x20 rd rs1 rs2 0 0 from rfl, formatR_eq]
    exact accepts_of_fields (op' := 0xFF) (a' := 0) (b' := 0) (c' := 0) (d' := 15) (e' := 15) (f' := 15) rfl (by simp; rfl)
  · show Instr.add (rdOf (encode (.add rd rs1 rs2))) (rs1Of (encode (.add rd rs1 rs2))) (rs2Of (encode (.add rd rs1 rs2))) = _
    simp [encode, formatR_eq, rdOf, rs1Of, rs2Of]

theorem MatchesRow.sub (rd rs1 rs2 : Reg) : MatchesRow.Statement (.sub rd rs1 rs2) := by
  refine ⟨opcodeMap[10], List.getElem_mem _, ?_, ?_⟩
  · rw [show encode (.sub rd rs1 rs2) = formatR 0x21 rd rs1 rs2 0 0 from rfl, formatR_eq]
    exact accepts_of_fields (op' := 0xFF) (a' := 0) (b' := 0) (c' := 0) (d' := 15) (e' := 15) (f' := 15) rfl (by simp; rfl)
  · show Instr.sub (rdOf (encode (.sub rd rs1 rs2))) (rs1Of (encode (.sub rd rs1 rs2))) (rs2Of (encode (.sub rd rs1 rs2))) = _
    simp [encode, formatR_eq, rdOf, rs1Of, rs2Of]

theorem MatchesRow.neg (rd rs1 : Reg) : MatchesRow.Statement (.neg rd rs1) := by
  refine ⟨opcodeMap[11], List.getElem_mem _, ?_, ?_⟩
  · rw [show encode (.neg rd rs1) = formatR 0x22 rd rs1 0 0 0 from rfl, formatR_eq]
    exact accepts_of_fields (op' := 0xFF) (a' := 0) (b' := 0) (c' := 15) (d' := 15) (e' := 15) (f' := 15) rfl (by simp; rfl)
  · show Instr.neg (rdOf (encode (.neg rd rs1))) (rs1Of (encode (.neg rd rs1))) = _
    simp [encode, formatR_eq, rdOf, rs1Of]

theorem MatchesRow.addone (rd rs1 : Reg) : MatchesRow.Statement (.addone rd rs1) := by
  refine ⟨opcodeMap[12], List.getElem_mem _, ?_, ?_⟩
  · rw [show encode (.addone rd rs1) = formatR 0x23 rd rs1 0 0 0 from rfl, formatR_eq]
    exact accepts_of_fields (op' := 0xFF) (a' := 0) (b' := 0) (c' := 15) (d' := 15) (e' := 15) (f' := 15) rfl (by simp; rfl)
  · show Instr.addone (rdOf (encode (.addone rd rs1))) (rs1Of (encode (.addone rd rs1))) = _
    simp [encode, formatR_eq, rdOf, rs1Of]

theorem MatchesRow.subone (rd rs1 : Reg) : MatchesRow.Statement (.subone rd rs1) := by
  refine ⟨opcodeMap[13], List.getElem_mem _, ?_, ?_⟩
  · rw [show encode (.subone rd rs1) = formatR 0x24 rd rs1 0 0 0 from rfl, formatR_eq]
    exact accepts_of_fields (op' := 0xFF) (a' := 0) (b' := 0) (c' := 15) (d' := 15) (e' := 15) (f' := 15) rfl (by simp; rfl)
  · show Instr.subone (rdOf (encode (.subone rd rs1))) (rs1Of (encode (.subone rd rs1))) = _
    simp [encode, formatR_eq, rdOf, rs1Of]

theorem MatchesRow.sqr (rd rs1 : Reg) : MatchesRow.Statement (.sqr rd rs1) := by
  refine ⟨opcodeMap[14], List.getElem_mem _, ?_, ?_⟩
  · rw [show encode (.sqr rd rs1) = formatR 0x30 rd rs1 0 0 0 from rfl, formatR_eq]
    exact accepts_of_fields (op' := 0xFF) (a' := 0) (b' := 0) (c' := 15) (d' := 15) (e' := 15) (f' := 15) rfl (by simp; rfl)
  · show Instr.sqr (rdOf (encode (.sqr rd rs1))) (rs1Of (encode (.sqr rd rs1))) = _
    simp [encode, formatR_eq, rdOf, rs1Of]

theorem MatchesRow.sqrt (rd rs1 : Reg) : MatchesRow.Statement (.sqrt rd rs1) := by
  refine ⟨opcodeMap[15], List.getElem_mem _, ?_, ?_⟩
  · rw [show encode (.sqrt rd rs1) = formatR 0x31 rd rs1 0 0 0 from rfl, formatR_eq]
    exact accepts_of_fields (op' := 0xFF) (a' := 0) (b' := 0) (c' := 15) (d' := 15) (e' := 15) (f' := 15) rfl (by simp; rfl)
  · show Instr.sqrt (rdOf (encode (.sqrt rd rs1))) (rs1Of (encode (.sqrt rd rs1))) = _
    simp [encode, formatR_eq, rdOf, rs1Of]

theorem MatchesRow.mul (rd rs1 rs2 : Reg) : MatchesRow.Statement (.mul rd rs1 rs2) := by
  refine ⟨opcodeMap[16], List.getElem_mem _, ?_, ?_⟩
  · rw [show encode (.mul rd rs1 rs2) = formatR 0x40 rd rs1 rs2 0 0 from rfl, formatR_eq]
    exact accepts_of_fields (op' := 0xFF) (a' := 0) (b' := 0) (c' := 0) (d' := 15) (e' := 15) (f' := 15) rfl (by simp; rfl)
  · show Instr.mul (rdOf (encode (.mul rd rs1 rs2))) (rs1Of (encode (.mul rd rs1 rs2))) (rs2Of (encode (.mul rd rs1 rs2))) = _
    simp [encode, formatR_eq, rdOf, rs1Of, rs2Of]

theorem MatchesRow.inv (rd rs1 : Reg) : MatchesRow.Statement (.inv rd rs1) := by
  refine ⟨opcodeMap[17], List.getElem_mem _, ?_, ?_⟩
  · rw [show encode (.inv rd rs1) = formatR 0x50 rd rs1 0 0 0 from rfl, formatR_eq]
    exact accepts_of_fields (op' := 0xFF) (a' := 0) (b' := 0) (c' := 15) (d' := 15) (e' := 15) (f' := 15) rfl (by simp; rfl)
  · show Instr.inv (rdOf (encode (.inv rd rs1))) (rs1Of (encode (.inv rd rs1))) = _
    simp [encode, formatR_eq, rdOf, rs1Of]

theorem MatchesRow.div (rd rs1 rs2 : Reg) : MatchesRow.Statement (.div rd rs1 rs2) := by
  refine ⟨opcodeMap[18], List.getElem_mem _, ?_, ?_⟩
  · rw [show encode (.div rd rs1 rs2) = formatR 0x51 rd rs1 rs2 0 0 from rfl, formatR_eq]
    exact accepts_of_fields (op' := 0xFF) (a' := 0) (b' := 0) (c' := 0) (d' := 15) (e' := 15) (f' := 15) rfl (by simp; rfl)
  · show Instr.div (rdOf (encode (.div rd rs1 rs2))) (rs1Of (encode (.div rd rs1 rs2))) (rs2Of (encode (.div rd rs1 rs2))) = _
    simp [encode, formatR_eq, rdOf, rs1Of, rs2Of]

theorem MatchesRow.trace (rs1 : Reg) : MatchesRow.Statement (.trace rs1) := by
  refine ⟨opcodeMap[19], List.getElem_mem _, ?_, ?_⟩
  · rw [show encode (.trace rs1) = formatR 0x60 0 rs1 0 0 0 from rfl, formatR_eq]
    exact accepts_of_fields (op' := 0xFF) (a' := 15) (b' := 0) (c' := 15) (d' := 15) (e' := 15) (f' := 15) rfl (by simp; rfl)
  · show Instr.trace (rs1Of (encode (.trace rs1))) = _
    simp [encode, formatR_eq, rs1Of]

theorem MatchesRow.qsolve (rd rs1 : Reg) : MatchesRow.Statement (.qsolve rd rs1) := by
  refine ⟨opcodeMap[20], List.getElem_mem _, ?_, ?_⟩
  · rw [show encode (.qsolve rd rs1) = formatR 0x70 rd rs1 0 0 0 from rfl, formatR_eq]
    exact accepts_of_fields (op' := 0xFF) (a' := 0) (b' := 0) (c' := 15) (d' := 15) (e' := 15) (f' := 15) rfl (by simp; rfl)
  · show Instr.qsolve (rdOf (encode (.qsolve rd rs1))) (rs1Of (encode (.qsolve rd rs1))) = _
    simp [encode, formatR_eq, rdOf, rs1Of]

theorem MatchesRow.qsolve3 (rd rd2 rs1 rs2 rs3 : Reg) : MatchesRow.Statement (.qsolve3 rd rd2 rs1 rs2 rs3) := by
  refine ⟨opcodeMap[21], List.getElem_mem _, ?_, ?_⟩
  · rw [show encode (.qsolve3 rd rd2 rs1 rs2 rs3) = formatR 0x71 rd rs1 rs2 rs3 rd2 from rfl, formatR_eq]
    exact accepts_of_fields (op' := 0xFF) (a' := 0) (b' := 0) (c' := 0) (d' := 0) (e' := 0) (f' := 15) rfl (by simp; rfl)
  · show Instr.qsolve3 (rdOf (encode (.qsolve3 rd rd2 rs1 rs2 rs3))) (rd2Of (encode (.qsolve3 rd rd2 rs1 rs2 rs3))) (rs1Of (encode (.qsolve3 rd rd2 rs1 rs2 rs3))) (rs2Of (encode (.qsolve3 rd rd2 rs1 rs2 rs3))) (rs3Of (encode (.qsolve3 rd rd2 rs1 rs2 rs3))) = _
    simp [encode, formatR_eq, rdOf, rd2Of, rs1Of, rs2Of, rs3Of]

end Sys2Proof.Laws
end

