-- ==== Sys2Proof/Laws/Step.lean ====
section
/-! SUPPORT. What a step and a command can do, said once. -/

namespace Sys2Proof.Machine

/-- Taking a fault does what R204 says and nothing else. -/
theorem raise_frame (s : State) (x : Cause) (w : Word) : sameRegs s (s.raise x w) ∧ sameBuf s (s.raise x w) ∧
    samePort s (s.raise x w) := ⟨fun _ => rfl, fun _ => rfl, rfl, rfl⟩

/-- A step with a transaction to come performs it. -/
theorem step_cons {s : State} {t : Transaction} {rest : List Transaction} (h : s.pending = t :: rest) :
    step s = transact t { s with pending := rest } := by
  simp [step, advance, h, State.take]

/-- A step with no transaction to come changes nothing. -/
theorem step_idle {s : State} (h : s.pending = []) : step s = .next s := by simp [step, advance, h]

/-- Every command answers a next state. -/
theorem exec_next (i : Instr) (s : State) : ∃ t, exec i s = .next t := by
  cases i <;> exact ⟨_, rfl⟩

/-- Everything that a faultless command can do, case by case of what it writes: nothing but the draw counter, one register,
one flag, bytes of the buffer, or the outcome of a solver. -/
inductive Effect (s : State) : State → Prop where
  | raised (x : Cause) (w : Word) : Effect s (s.raise x w)
  | unchanged : Effect s s
  | register (rd : Reg) (c : Container) (u : State) (h : u = s ∨ u = s.drawn) : Effect s (u.setReg rd c)
  | predicate (b : Bool) : Effect s (s.setP b)
  | traceFlag (b : Bool) (u : State) (h : u = s ∨ u = s.drawn) : Effect s (u.setT b)
  | stored (a : Nat) (bs : List Byte) (u : State) (h : u = s ∨ u = s.drawn) (hin : a + bs.length ≤ bufBytes) :
    Effect s (u.memWrite a bs)
  | root (rd : Reg) (o : Option Container) (u : State) (h : u = s ∨ u = s.drawn) : Effect s (u.setRoot rd o)
  | roots (rd rd2 : Reg) (o : Roots Container) (u : State) (h : u = s ∨ u = s.drawn) : Effect s (u.setRoots rd rd2 o)

/-- Writing a result is an effect on one register. -/
theorem setResult_effect (s : State) (rd : Reg) (v : Option Element) : Effect s (s.setResult rd v) := by
  cases v with
  | none => exact .register rd _ s.drawn (.inr rfl)
  | some e => exact .register rd _ s (.inl rfl)

/-- One inversion lemma for every command: what it can do. -/
theorem exec_effect (i : Instr) (s t : State) (h : exec i s = .next t) : Effect s t := by
  cases i <;> (injection h with h; subst h)
  case zero rd => exact .register rd _ s (.inl rfl)
  case one rd => exact .register rd _ s (.inl rfl)
  case mov rd rs1 => exact .register rd _ s (.inl rfl)
  case neg rd rs1 => exact .register rd _ s (.inl rfl)
  case verify rs1 =>
    split
    · exact .unchanged
    · exact .raised _ _
  case ser r addr len =>
    split
    · exact .raised _ _
    · split
      · rename_i h1 h2
        simp only [insideBuffer, decide_eq_true_eq] at h2
        refine .stored _ _ _ (afterRead_state s r) ?_
        rw [length_wireOfReg]
        omega
      · exact .raised _ _
  case deser r addr len =>
    split
    · exact .raised _ _
    · split
      · split
        · exact .register r _ s (.inl rfl)
        · exact .raised _ _
      · exact .raised _ _
  case eq rs1 rs2 => exact .predicate _
  case iszero rs1 => exact .predicate _
  case isone rs1 => exact .predicate _
  case add rd rs1 rs2 => exact setResult_effect s rd _
  case sub rd rs1 rs2 => exact setResult_effect s rd _
  case addone rd rs1 => exact setResult_effect s rd _
  case subone rd rs1 => exact setResult_effect s rd _
  case sqr rd rs1 => exact setResult_effect s rd _
  case sqrt rd rs1 => exact setResult_effect s rd _
  case mul rd rs1 rs2 => exact setResult_effect s rd _
  case inv rd rs1 =>
    split
    · exact .register rd _ _ (inverseOf_state s _)
    · exact setResult_effect s rd _
  case div rd rs1 rs2 =>
    split
    · exact .register rd _ _ (inverseOf_state s _)
    · exact setResult_effect s rd _
  case trace rs1 => exact .traceFlag _ _ (afterRead_state s rs1)
  case qsolve rd rs1 =>
    split
    · exact .root rd _ s (.inl rfl)
    · exact .root rd _ s.drawn (.inr rfl)
  case qsolve3 rd rd2 rs1 rs2 rs3 =>
    split
    · exact .raised _ _
    · split
      · exact .raised _ _
      · split
        · exact .roots rd rd2 _ s (.inl rfl)
        · exact .raised _ _
        · exact .roots rd rd2 _ s.drawn (.inr rfl)

end Sys2Proof.Machine
end

