-- ==== Sys2Proof/Tests/Slice0.lean ====
section
/-! SUPPORT. The model's own tests: words and values from the spec's text and its 95_test_vectors.md, and for every obligation with
hypotheses a state and operands that meet them all. -/

namespace Sys2Proof.Machine.Tests

open Sys2Proof Sys2Proof.Machine

-- One theorem after the other: each kernel evaluation would otherwise hold a thread of its own.
set_option Elab.async false

/-! ## Small states -/

/-- The standing operand X of 95_test_vectors.md. -/
def X : Container := 0x1547698BADCFEEFCDAB8967452301
/-- The standing operand Y. -/
def Y : Container := 0x0D2C3B4A5968778695A4B3C2D1E0F
/-- The standing operand W. -/
def W : Container := 0x1BC9A78563412BEBAFECAEFBEADDE
/-- The element One in its container. -/
def One : Container := 0x1FFFFFFFFFFFFFFFFFFFFFFFFFFFF
/-- A container with reserved bit 113 set. -/
def Bad : Container := 0x20000000000000000000000000000

/-- A reset unit with x[1] … x[4] loaded. -/
def four (a b c d : Container) : State := (((State.reset.setReg 1 a).setReg 2 b).setReg 3 c).setReg 4 d

/-- x[1] = X, x[2] = Y, x[3] = W. -/
def sXYW : State := four X Y W 0

/-- A reset unit with X's wire form at address `a`. -/
def wireX (a : Nat) : State :=
  State.reset.memWrite a
    [0x01, 0x23, 0x45, 0x67, 0x89, 0xAB, 0xCD, 0xEF, 0xFE, 0xDC, 0xBA, 0x98, 0x76, 0x54, 0x01]

/-- A reset unit with 14 zero bytes and then `b` at address 0. -/
def wireEnd (b : Byte) : State := State.reset.memWrite 0 (List.replicate 14 0 ++ [b])

/-- A unit in which a fault has been recorded, with X in x[1]. -/
def faulted : State := (four X Y W 0).raise .illegalCommand 0

/-- A table other than the default: in every row T0 and T1 exchanged, another sentinel. -/
def exchanged : MulTable := { Config.tableR145 with flipped := BitVec.allOnes 113, sentinel := 7 }

/-- The state after a command. -/
def after (i : Instr) (s : State) : State :=
  match exec i s with
  | .next t => t
  | .fault _ => s
  | .refused _ => s

/-- The state after one step with the transaction `t` to come. -/
def afterStep (t : Transaction) (s : State) : State :=
  match step { s with pending := [t] } with
  | .next u => u
  | .fault _ => s
  | .refused _ => s

/-! ## Decoding and encoding: words written out from R71, R72 and R74 -/

/-- ZERO E7 (R100). -/
theorem test_decode_zero : decode 0x10700000 = .ok (.zero 7) ∧ encode (.zero 7) = 0x10700000 := by decide +kernel
/-- ONE E2 (R110). -/
theorem test_decode_one : decode 0x11200000 = .ok (.one 2) ∧ encode (.one 2) = 0x11200000 := by decide +kernel
/-- MOV E4, E1 (R111). -/
theorem test_decode_mov : decode 0x12410000 = .ok (.mov 4 1) ∧ encode (.mov 4 1) = 0x12410000 := by decide +kernel
/-- VERIFY E2 (R104). -/
theorem test_decode_verify : decode 0x13020000 = .ok (.verify 2) ∧ encode (.verify 2) = 0x13020000 := by decide +kernel
/-- SER E3, 0x40, 15 (R105). -/
theorem test_decode_ser : decode 0x143400F0 = .ok (.ser 3 0x40 15) ∧ encode (.ser 3 0x40 15) = 0x143400F0 := by decide +kernel
/-- DESER E1, 0x10, 15 (R106). -/
theorem test_decode_deser : decode 0x151100F0 = .ok (.deser 1 0x10 15) ∧ encode (.deser 1 0x10 15) = 0x151100F0 := by decide +kernel
/-- EQ E2, E10 (R107). -/
theorem test_decode_eq : decode 0x1602A000 = .ok (.eq 2 10) ∧ encode (.eq 2 10) = 0x1602A000 := by decide +kernel
/-- ISZERO E6 (95 2.1). -/
theorem test_decode_iszero : decode 0x17060000 = .ok (.iszero 6) ∧ encode (.iszero 6) = 0x17060000 := by decide +kernel
/-- ISONE E5 (R109). -/
theorem test_decode_isone : decode 0x18050000 = .ok (.isone 5) ∧ encode (.isone 5) = 0x18050000 := by decide +kernel
/-- ADD E3, E1, E2 (R120). -/
theorem test_decode_add : decode 0x20312000 = .ok (.add 3 1 2) ∧ encode (.add 3 1 2) = 0x20312000 := by decide +kernel
/-- SUB E3, E1, E2 (R121). -/
theorem test_decode_sub : decode 0x21312000 = .ok (.sub 3 1 2) ∧ encode (.sub 3 1 2) = 0x21312000 := by decide +kernel
/-- NEG E4, E1 (R122). -/
theorem test_decode_neg : decode 0x22410000 = .ok (.neg 4 1) ∧ encode (.neg 4 1) = 0x22410000 := by decide +kernel
/-- ADDONE E5, E1 (R123). -/
theorem test_decode_addone : decode 0x23510000 = .ok (.addone 5 1) ∧ encode (.addone 5 1) = 0x23510000 := by decide +kernel
/-- SUBONE E5, E1 (R124). -/
theorem test_decode_subone : decode 0x24510000 = .ok (.subone 5 1) ∧ encode (.subone 5 1) = 0x24510000 := by decide +kernel
/-- SQR E2, E1 (R132). -/
theorem test_decode_sqr : decode 0x30210000 = .ok (.sqr 2 1) ∧ encode (.sqr 2 1) = 0x30210000 := by decide +kernel
/-- SQRT E2, E1 (R133). -/
theorem test_decode_sqrt : decode 0x31210000 = .ok (.sqrt 2 1) ∧ encode (.sqrt 2 1) = 0x31210000 := by decide +kernel
/-- MUL E3, E1, E2 (R146). -/
theorem test_decode_mul : decode 0x40312000 = .ok (.mul 3 1 2) ∧ encode (.mul 3 1 2) = 0x40312000 := by decide +kernel
/-- INV E2, E1 (R161). -/
theorem test_decode_inv : decode 0x50210000 = .ok (.inv 2 1) ∧ encode (.inv 2 1) = 0x50210000 := by decide +kernel
/-- DIV E3, E1, E2 (R162). -/
theorem test_decode_div : decode 0x51312000 = .ok (.div 3 1 2) ∧ encode (.div 3 1 2) = 0x51312000 := by decide +kernel
/-- TRACE E1 (R171). -/
theorem test_decode_trace : decode 0x60010000 = .ok (.trace 1) ∧ encode (.trace 1) = 0x60010000 := by decide +kernel
/-- QSOLVE E3, E2 (R183). -/
theorem test_decode_qsolve : decode 0x70320000 = .ok (.qsolve 3 2) ∧ encode (.qsolve 3 2) = 0x70320000 := by decide +kernel
/-- QSOLVE3 E4, E5, E1, E2, E3 (R186). -/
theorem test_decode_qsolve3 : decode 0x71412350 = .ok (.qsolve3 4 5 1 2 3) ∧ encode (.qsolve3 4 5 1 2 3) = 0x71412350 := by decide +kernel

/-- The well-formedness check refuses its ill-formed term, and so does the decoder (R76). -/
theorem test_illformed_qsolve3 :
    (Instr.qsolve3 4 4 1 2 3).wellFormed = false ∧ decode 0x71412340 = .error .sameDestinations := by decide +kernel

/-- The illegal words of 95_test_vectors.md section 2.8. -/
theorem test_illegal_words :
    decode 0x00000000 = .error .unknownOpcode ∧ decode 0xFFFFFFFF = .error .unknownOpcode ∧
    decode 0x19000000 = .error .unknownOpcode ∧ decode 0x10700001 = .error .nonzeroUnusedField ∧
    decode 0x10710000 = .error .nonzeroUnusedField ∧ decode 0x20312100 = .error .nonzeroUnusedField ∧
    decode 0x40312008 = .error .nonzeroUnusedField ∧ decode 0x60190000 = .error .nonzeroUnusedField ∧
    decode 0x13100000 = .error .nonzeroUnusedField ∧ decode 0x16120000 = .error .nonzeroUnusedField := by decide +kernel

/-- The fetch word of a table row is the next transaction, and the step runs it (R74, R77). -/
theorem test_fetch_word :
    decodeTableWord 32 0x11200000 = some (.one 2) ∧
    (match step (State.reset.withFetchWord 32 0x11200000) with | .next t => t.reg 2 | _ => 0) = One := by decide +kernel

/-- The assembler reads comments, hexadecimal and the pseudo-instruction (R79, R80). -/
theorem test_assembler :
    assembleLine "SER15 E3, 0x40 ; store".toList = some (.ser 3 0x40 15) ∧
    assemblyText (.qsolve3 4 5 1 2 3) = "QSOLVE3 E4, E5, E1, E2, E3".toList ∧
    assembleLine "ADD E3, E16, E2".toList = none := by decide +kernel

/-! ## Commands: values from the examples of the rules and from 95_test_vectors.md -/

theorem test_zero : (after (.zero 1) sXYW).reg 1 = 0 ∧ (after (.zero 1) sXYW).reg 2 = Y := by decide +kernel
theorem test_one : (after (.one 2) sXYW).reg 2 = One ∧ (after (.one 2) sXYW).reg 1 = X := by decide +kernel
theorem test_mov : (after (.mov 4 1) sXYW).reg 4 = X ∧ (after (.mov 4 1) sXYW).reg 1 = X := by decide +kernel
theorem test_verify_valid : after (.verify 1) sXYW = sXYW := by decide +kernel
theorem test_verify_invalid :
    (after (.verify 1) (four Bad 0 0 0)).status = 0x30 ∧ (after (.verify 1) (four Bad 0 0 0)).fcmd = 0x13010000 := by
  decide +kernel
/-- One serialises to FF ×14, then 01 (S2); the largest start for 15 bytes is 241. -/
theorem test_ser_one :
    (after (.ser 1 241 15) (four One 0 0 0)).memRead 241 15 = List.replicate 14 0xFF ++ [0x01] ∧
    (after (.ser 1 241 15) (four One 0 0 0)).status = 0 := by decide +kernel
theorem test_ser_faults :
    (after (.ser 1 250 10) sXYW).status = 0x70 ∧ (after (.ser 1 242 15) sXYW).status = 0xD0 ∧
    (after (.ser 1 2 255) sXYW).fcmd = 0x14102FF0 ∧ (after (.ser 1 1 255) sXYW).buf.length = 15 := by decide +kernel
theorem test_deser : (after (.deser 1 0x10 15) (wireX 0x10)).reg 1 = X := by decide +kernel
theorem test_deser_faults :
    (after (.deser 1 250 20) sXYW).status = 0x50 ∧ (after (.deser 1 242 15) sXYW).status = 0xD0 ∧
    (after (.deser 1 0 15) (wireEnd 0x02)).status = 0x30 ∧
    (after (.deser 1 0 15) (wireEnd 0x01)).reg 1 = 0x10000000000000000000000000000 := by decide +kernel
theorem test_eq : (after (.eq 1 2) sXYW).status = 0 ∧ (after (.eq 1 1) sXYW).status = 0x02 := by decide +kernel
theorem test_iszero : (after (.iszero 0) sXYW).status = 0x02 ∧ (after (.iszero 1) sXYW).status = 0 := by decide +kernel
theorem test_isone :
    (after (.isone 1) (four One 1 0 0)).status = 0x02 ∧ (after (.isone 2) (four One 1 0 0)).status = 0 := by decide +kernel
theorem test_add : (after (.add 3 1 2) sXYW).reg 3 = 0x186B52C1F4A7997A4F1C25B683D0E := by decide +kernel
theorem test_sub : (after (.sub 3 1 3) sXYW).reg 3 = 0x0E8ECE0ECE8EC5177554388FB8EDF := by decide +kernel
theorem test_neg : (after (.neg 4 1) sXYW).reg 4 = X := by decide +kernel
theorem test_addone : (after (.addone 5 1) sXYW).reg 5 = 0x0AB89674523011032547698BADCFE := by decide +kernel
theorem test_subone : (after (.subone 1 0) sXYW).reg 1 = One := by decide +kernel
/-- The ring is 113 bits long: bit 112 wraps to bit 0 (R135). -/
theorem test_sqr_wraps :
    (after (.sqr 1 1) (four 0x10000000000000000000000000000 0 0 0)).reg 1 = 1 ∧
    (after (.sqr 2 1) sXYW).reg 2 = 0x0A8ED3175B9FDDF9B5712CE8A4603 := by decide +kernel
theorem test_sqrt_wraps :
    (after (.sqrt 1 1) (four 1 0 0 0)).reg 1 = 0x10000000000000000000000000000 ∧
    (after (.sqrt 2 1) sXYW).reg 2 = 0x1AA3B4C5D6E7F77E6D5C4B3A29180 := by decide +kernel
/-- The same product over a table with T0 and T1 exchanged in every row and another sentinel (R142, R144). -/
theorem test_mul :
    (after (.mul 3 1 2) sXYW).reg 3 = 0x1B4296460676F63A74D41AD6E1972 ∧
    exchanged.t0.getD 1 0 = 112 ∧ exchanged.t1.getD 0 0 = 7 ∧
    gfMul exchanged (elementOf X) (elementOf Y) = 0x1B4296460676F63A74D41AD6E1972 := by decide +kernel
/-- basis[0]·basis[1] = basis[0] + basis[46], the destination being a source (R146, R236). -/
theorem test_mul_basis : (after (.mul 1 1 2) (four 1 2 0 0)).reg 1 = 0x400000000001 := by decide +kernel
theorem test_inv : (after (.inv 2 1) sXYW).reg 2 = 0x0A7C1D2A8B48EBA773EE100F11413 := by decide +kernel
theorem test_inv_zero_chain : gfInv Config.multab .chain 1 gfZero = gfZero ∧ gfInv Config.multab .draw 1 gfZero = 1 := by decide +kernel
theorem test_div : (after (.div 3 1 2) sXYW).reg 3 = 0x1AF08E39B8ED2ECDAD5E6EDD211AD := by decide +kernel
theorem test_trace : (after (.trace 1) sXYW).status = 0x01 ∧ (after (.trace 2) sXYW).status = 0 := by decide +kernel
/-- QSOLVE of Y, for both values of QS_Z0. -/
theorem test_qsolve :
    (after (.qsolve 3 2) sXYW).reg 3 =
      (if Config.qsZ0 then 0x04E416C63727D28273639141B0A05 else 0x1B1BE939C8D82D7D8C9C6EBE4F5FA) ∧
    (after (.qsolve 3 2) sXYW).status = 0x04 := by
  simp only [after, exec, execQsolve]
  generalize Config.qsZ0 = z
  revert z
  decide +kernel
theorem test_qsolve_none : (after (.qsolve 3 1) sXYW).reg 3 = W ∧ (after (.qsolve 3 1) sXYW).status = 0 := by decide +kernel
/-- The two roots of X·x² + Y·x + W = 0, for both values of QS_Z0. -/
theorem test_qsolve3 :
    ((after (.qsolve3 4 5 1 2 3) sXYW).reg 4, (after (.qsolve3 4 5 1 2 3) sXYW).reg 5) =
      (if Config.qsZ0 then ((0x1847AA85878F05CBF108F8218D1F0 : Container), (0x157EE9AEFDBD54AD1734DA0384836 : Container))
        else (0x157EE9AEFDBD54AD1734DA0384836, 0x1847AA85878F05CBF108F8218D1F0)) ∧
    (after (.qsolve3 4 5 1 2 3) sXYW).status = 0x08 := by
  simp only [after, exec, execQsolve3]
  generalize Config.qsZ0 = z
  revert z
  decide +kernel
/-- B = Zero gives one root, A = Zero the fault InvalidArgument. -/
theorem test_qsolve3_corners :
    (after (.qsolve3 5 6 1 4 3) sXYW).reg 5 = 0x08820001EE84AB629F81CFE34BD79 ∧
    (after (.qsolve3 5 6 1 4 3) sXYW).status = 0x04 ∧ (after (.qsolve3 5 6 4 1 3) sXYW).status = 0x90 := by decide +kernel

/-! ## Transactions -/

/-- A faulted unit discards `ONE E1`; `Reset()` clears the record (R205, R208). -/
theorem test_faulted_unit :
    (afterStep (.issue 0x11100000) faulted).reg 1 = X ∧ (afterStep (.issue 0x11100000) faulted).status = 0xB0 ∧
    (afterStep .reset faulted).status = 0 ∧ (afterStep .reset faulted).reg 1 = 0 := by decide +kernel

/-- An illegal word is recorded in FCMD (R76, R204). -/
theorem test_illegal_command :
    (afterStep (.issue 0x20312100) sXYW).status = 0xB0 ∧ (afterStep (.issue 0x20312100) sXYW).fcmd = 0x20312100 := by
  decide +kernel

/-- A byte written is the byte read, at the last address too (R58). -/
theorem test_buffer :
    (afterStep (.bufRead 255) (afterStep (.bufWrite 255 0xAA) State.reset)).replies = [.byte 0xAA] ∧
    (afterStep .readStatus faulted).replies = [.status 0xB0] := by decide +kernel

/-! ## Witnesses: the hypotheses of each obligation hold together somewhere -/

/-- `s` with the transaction `t` to come. -/
def next (t : Transaction) (s : State) : State := { s with pending := [t] }

theorem witness_ResetPutsEveryPieceOfStateAtItsResetValue :
    (next .reset faulted).pending = .reset :: [] := by decide +kernel
theorem witness_StepRunsTheDecodedCommand :
    (next (.issue 0x20312000) sXYW).pending = .issue 0x20312000 :: [] ∧ (next (.issue 0x20312000) sXYW).flagFault = 0 ∧
    decode 0x20312000 = .ok (.add 3 1 2) := by decide +kernel
/-- One word for each of the two clauses of `illegalWord`. -/
theorem witness_IllegalWordsRaiseIllegalCommand :
    (next (.issue 0x20312100) sXYW).pending = .issue 0x20312100 :: [] ∧ (next (.issue 0x20312100) sXYW).flagFault = 0 ∧
    illegalWord 0x20312100 ∧ illegalWord 0x71412340 := by
  refine ⟨by decide +kernel, by decide +kernel, .inl ?_, .inr ?_⟩ <;> decide +kernel
/-- One transaction of each kind on a faulted unit. -/
theorem witness_FaultedUnitDiscardsEveryCommand :
    ∀ t ∈ [Transaction.issue 0x11100000, .readStatus, .readFcmd, .bufRead 255, .bufWrite 255 1, .reset],
      (next t faulted).pending = t :: [] ∧ (next t faulted).flagFault = 1 := by decide +kernel
/-- A run without a reset, and a reset to come. -/
theorem witness_OnlyResetLeavesTheFaultedState :
    ((next .reset faulted).flagFault = 1 ∧ (next .reset faulted).pending = .reset :: []) ∧
    (next (.issue 0x11100000) faulted).flagFault = 1 ∧ .reset ∉ (next (.issue 0x11100000) faulted).pending ∧
    ∃ t, Host.Core.run Sys2Proof.core 1 (next (.issue 0x11100000) faulted) = .next t := by
  refine ⟨by decide +kernel, by decide +kernel, by decide +kernel, { faulted with pending := [] }, rfl⟩
/-- A unit with nothing to come; a legal and an illegal word to come, on a healthy unit, and a word to come on a faulted one; and one
state for each kind of transaction, the buffer ones at both ends of its addresses. -/
theorem witness_TransactionsDoWhatTheHostIsPromised :
    sXYW.pending = [] ∧ (next (.issue 0x20312000) sXYW).flagFault = 0 ∧ decode 0x20312000 = .ok (.add 3 1 2) ∧
    illegalWord 0x20312100 ∧ (next (.issue 0x20312000) faulted).flagFault = 1 ∧
    ∀ t ∈ [Transaction.issue 0, .readStatus, .readFcmd, .bufRead 0, .bufRead 255, .bufWrite 0 1, .bufWrite 255 1, .reset],
      (next t sXYW).pending = t :: [] := by
  refine ⟨rfl, by decide +kernel, by decide +kernel, .inl ?_, by decide +kernel, ?_⟩ <;> decide +kernel
theorem witness_DecodeFollowsTheOpcodeMap :
    decode 0x71412350 = .ok (.qsolve3 4 5 1 2 3) ∧
    ("QSOLVE3", 0x71000000, 0xFF00000F) ∈ opcodeTableR74 ∧
    (0x71412350 : Word) &&& 0xFF00000F = 0x71000000 ∧ (0x71412340 : Word) &&& 0xFF00000F = 0x71000000 := by decide +kernel
theorem witness_DecodeOfEncodeIsTheCommand : (Instr.qsolve3 15 14 15 14 13).wellFormed = true := by decide +kernel
theorem witness_EncodeOfDecodeIsTheWord :
    (("ADD", 0x20000000, 0xFF000FFF) ∈ opcodeTableR74 ∧ opcodeOf 0x20312100 = opcodeOf 0x20000000 ∧
      (0x20312100 : Word) &&& 0xFF000FFF ≠ 0x20000000) ∧
    decode 0x143FFFF0 = .ok (.ser 3 255 255) := by decide +kernel
theorem witness_VerifyTestsTheReservedBits :
    (sXYW.reg 1).extractLsb' 113 15 = 0 ∧ ((four Bad 0 0 0).reg 1).extractLsb' 113 15 ≠ 0 := by decide +kernel
/-- Lengths 14 and 15, and regions that end at 257 and at 256. -/
theorem witness_SerStoresTheWireFormOrFaults :
    (14 : Byte).toNat < 15 ∧ (15 ≤ (15 : Byte).toNat ∧ 256 < (242 : Byte).toNat + (15 : Byte).toNat) ∧
    (15 ≤ (15 : Byte).toNat ∧ (241 : Byte).toNat + (15 : Byte).toNat ≤ 256 ∧ (sXYW.reg 1).extractLsb' 113 15 = 0) := by
  decide +kernel
/-- Lengths 14 and 16, regions that end at 257 and at 256, last bytes 0x02 and 0x01. -/
theorem witness_DeserLoadsTheWireFormOrFaults :
    ((14 : Byte).toNat ≠ 15 ∧ (16 : Byte).toNat ≠ 15) ∧ ((15 : Byte).toNat = 15 ∧ 256 < (242 : Byte).toNat + 15) ∧
    ((15 : Byte).toNat = 15 ∧ (0 : Byte).toNat + 15 ≤ 256 ∧ (wireEnd 0x02).byte ((0 : Byte).toNat + 14) &&& 0xFE ≠ 0) ∧
    ((15 : Byte).toNat = 15 ∧ (241 : Byte).toNat + 15 ≤ 256 ∧
      (wireX 241).byte ((241 : Byte).toNat + 14) &&& 0xFE = 0) := by decide +kernel
theorem witness_DeserAfterSerRestoresTheElement :
    15 ≤ (255 : Byte).toNat ∧ (1 : Byte).toNat + (255 : Byte).toNat ≤ 256 ∧ (sXYW.reg 1).extractLsb' 113 15 = 0 := by
  decide +kernel
theorem witness_AddAndSubWriteTheXor : isValid (sXYW.reg 1) = true ∧ isValid (sXYW.reg 2) = true := by decide +kernel
theorem witness_AddoneAndSuboneComplement : isValid ((four One 0 0 0).reg 1) = true := by decide +kernel
theorem witness_SqrRotatesTheRingLeft : isValid (sXYW.reg 1) = true := by decide +kernel
theorem witness_SqrtRotatesTheRingRight : isValid (sXYW.reg 3) = true := by decide +kernel
/-- The two tables that R145 leaves to a builder at its two ends are accepted, and their T0 and T1 differ. -/
theorem witness_accepted_tables :
    Config.tableR145.Accepted ∧ exchanged.Accepted ∧ Config.tableR145.t0 ≠ exchanged.t0 ∧
    Config.tableR145.t1 ≠ exchanged.t1 := by
  refine ⟨⟨by decide +kernel, ?_⟩, ⟨by decide +kernel, ?_⟩, by decide +kernel, by decide +kernel⟩ <;>
    exact column_zip _ _ _
/-- A table of 113 rows, the first and the last bit and entry. -/
theorem witness_ProductBitsFollowTheTable :
    exchanged.rows.length = 112 ∧ exchanged.Accepted ∧ 0 < 113 ∧ 112 < 113 :=
  ⟨by decide +kernel, witness_accepted_tables.2.1, by omega, by omega⟩
/-- A general pair, a Zero on either side, a One on either side, equal sources. -/
theorem witness_MulWritesTheProduct :
    (isValid (sXYW.reg 1) = true ∧ isValid (sXYW.reg 2) = true) ∧ sXYW.reg 4 = 0 ∧ isValid (sXYW.reg 4) = true ∧
    (four One X 0 0).reg 1 = containerOf gfOne ∧ isValid ((four One X 0 0).reg 1) = true ∧
    isValid ((four One X 0 0).reg 2) = true := by decide +kernel
theorem witness_ProductIsCommutative : exchanged.Accepted := witness_accepted_tables.2.1
theorem witness_ProductIsAssociative : exchanged.Accepted := witness_accepted_tables.2.1
theorem witness_OneIsTheIdentityAndSquaringIsTheRotation : exchanged.Accepted := witness_accepted_tables.2.1
theorem witness_ProductHasNoZeroDivisors :
    exchanged.Accepted ∧ gfMul exchanged (elementOf X) gfZero = gfZero :=
  ⟨witness_accepted_tables.2.1, by decide +kernel⟩
/-- A non-zero operand, One, and Zero. -/
theorem witness_InvWritesTheInverse :
    (isValid (sXYW.reg 1) = true ∧ sXYW.reg 1 ≠ 0) ∧
    (isValid ((four One 0 0 0).reg 1) = true ∧ (four One 0 0 0).reg 1 = containerOf gfOne) ∧
    (isValid (sXYW.reg 0) = true ∧ sXYW.reg 0 = 0) := by decide +kernel
theorem witness_InverseOfZeroIsTheParameter : elementOf X ≠ gfZero ∧ sXYW.reg 0 = 0 := by decide +kernel
theorem witness_ElementTimesItsInverseIsOne :
    exchanged.Accepted ∧ elementOf X ≠ gfZero ∧ isValid (sXYW.reg 1) = true ∧ sXYW.reg 1 ≠ 0 :=
  ⟨witness_accepted_tables.2.1, by decide +kernel⟩
theorem witness_ChainComputesThePower : exchanged.Accepted := witness_accepted_tables.2.1
/-- A general pair, divisor One, dividend Zero, equal non-zero operands. -/
theorem witness_DivWritesTheQuotient :
    (isValid (sXYW.reg 1) = true ∧ isValid (sXYW.reg 2) = true) ∧
    (isValid ((four X One 0 0).reg 2) = true ∧ (four X One 0 0).reg 2 = containerOf gfOne) ∧
    (isValid (sXYW.reg 4) = true ∧ sXYW.reg 4 = 0) ∧ (sXYW.reg 1 = sXYW.reg 1 ∧ sXYW.reg 1 ≠ 0) := by decide +kernel
/-- A destination apart from the divisor, and the divisor's own register. -/
theorem witness_MulUndoesDiv :
    isValid (sXYW.reg 1) = true ∧ isValid (sXYW.reg 2) = true ∧ sXYW.reg 2 ≠ 0 ∧ (3 : Reg) ≠ 2 ∧ (2 : Reg) = 2 := by decide +kernel
/-- A general element, Zero, One, and the two end basis vectors. -/
theorem witness_TraceWritesTheParity :
    isValid (sXYW.reg 1) = true ∧ sXYW.reg 0 = 0 ∧ (four One 0 0 0).reg 1 = containerOf gfOne ∧
    isValid ((four One 0 0 0).reg 1) = true ∧ (four 1 0 0 0).reg 1 = containerOf (basis 0) ∧
    (four 0x10000000000000000000000000000 0 0 0).reg 1 = containerOf (basis 112) ∧
    isValid ((four 0x10000000000000000000000000000 0 0 0).reg 1) = true := by decide +kernel
theorem witness_TraceIsLinearAndKeptBySquaring : exchanged.Accepted := witness_accepted_tables.2.1
/-- X has trace 1 and Y has trace 0. -/
theorem witness_QsolveWritesARootOrNone :
    (isValid (sXYW.reg 1) = true ∧ gfTrace (elementOf (sXYW.reg 1)) = true) ∧
    (isValid (sXYW.reg 2) = true ∧ gfTrace (elementOf (sXYW.reg 2)) = false) := by decide +kernel
theorem witness_AffineEquationHasTwoRootsOrNone :
    gfTrace (elementOf X) = true ∧ gfTrace (elementOf Y) = false := by decide +kernel
theorem witness_QsolveThreeFaults : (4 : Reg) ≠ 5 ∧ sXYW.reg 0 = 0 ∧ (4 : Reg) = 4 := by decide +kernel
theorem witness_QsolveThreeWithoutLinearTerm :
    (5 : Reg) ≠ 6 ∧ isValid (sXYW.reg 1) = true ∧ isValid (sXYW.reg 3) = true ∧ sXYW.reg 1 ≠ 0 ∧ sXYW.reg 4 = 0 := by
  decide +kernel
/-- A = B = C = One has trace 1; A = X, B = Y, C = W has trace 0. -/
theorem witness_QsolveThreeFindsAllRoots :
    ((4 : Reg) ≠ 5 ∧ isValid (sXYW.reg 1) = true ∧ isValid (sXYW.reg 2) = true ∧ isValid (sXYW.reg 3) = true ∧
      sXYW.reg 1 ≠ 0 ∧ sXYW.reg 2 ≠ 0 ∧
      gfTrace (gfMul Config.multab (gfMul Config.multab (elementOf (sXYW.reg 1)) (elementOf (sXYW.reg 3)))
        (chainInv Config.multab (gfMul Config.multab (elementOf (sXYW.reg 2)) (elementOf (sXYW.reg 2))))) = false) ∧
    (isValid ((four One One One 0).reg 1) = true ∧ isValid ((four One One One 0).reg 2) = true ∧
      isValid ((four One One One 0).reg 3) = true ∧ (four One One One 0).reg 1 ≠ 0 ∧ (four One One One 0).reg 2 ≠ 0 ∧
      gfTrace (gfMul Config.multab (gfMul Config.multab gfOne gfOne)
        (chainInv Config.multab (gfMul Config.multab gfOne gfOne))) = true) := by decide +kernel
/-- Each row of R202 at the edge of its condition, and a command for which no row holds. -/
theorem witness_CommandsFaultExactlyWhenTheTableSays :
    (faultCondition sXYW (.ser 1 0 14) .bufferTooSmall ∧ faultCondition sXYW (.ser 1 242 15) .addressRange ∧
      faultCondition sXYW (.deser 1 0 16) .lengthMismatch ∧ faultCondition sXYW (.deser 1 242 15) .addressRange ∧
      faultCondition (wireEnd 0x02) (.deser 1 0 15) .invalidElement ∧
      faultCondition (four Bad 0 0 0) (.verify 1) .invalidElement ∧
      faultCondition sXYW (.qsolve3 4 5 0 1 2) .invalidArgument) ∧
    (∀ x, ¬ faultCondition sXYW (.ser 1 241 15) x) ∧ (∀ x, ¬ faultCondition (wireX 241) (.deser 1 241 15) x) ∧
    (∀ x, ¬ faultCondition sXYW (.qsolve3 4 5 1 2 3) x) := by
  refine ⟨?_, ?_, ?_, ?_⟩
  · simp only [faultCondition]; decide +kernel
  all_goals intro x; cases x <;> simp only [faultCondition] <;> decide +kernel
theorem witness_EveryStepCompletesAndKeepsTheInvariant : (next (.issue 0x40312000) sXYW).Inv := by decide +kernel
theorem witness_ReachableRegistersAreValid :
    ∃ s, Host.Core.run Sys2Proof.core 1 { State.reset with pending := [.issue 0x11100000] } = .next s := ⟨_, rfl⟩
theorem witness_CommandsReadSourcesAndWriteDestinations :
    (∃ t, exec (.add 3 1 2) sXYW = .next t) ∧ (0 : Reg) ∉ destinationsOf (.add 3 1 2) ∧
    (∀ r ∈ sourcesOf (.add 3 1 2), (four X Y 0 X).reg r = sXYW.reg r) ∧
    four X Y 0 X = { sXYW with regs := (four X Y 0 X).regs } ∧ ∃ t, exec (.add 3 1 2) (four X Y 0 X) = .next t := by
  refine ⟨⟨_, rfl⟩, by decide +kernel, by decide +kernel, by decide +kernel, ⟨_, rfl⟩⟩
theorem witness_OnlySerChangesTheBuffer :
    (∃ t, exec (.add 3 1 2) sXYW = .next t) ∧ ∀ r addr len, Instr.add 3 1 2 ≠ .ser r addr len :=
  ⟨⟨_, rfl⟩, fun _ _ _ h => by cases h⟩
/-- For each field of STATUS a command that writes it and one that does not, from two states that differ in all of STATUS. -/
theorem witness_NoCommandReadsStatus :
    (∀ i ∈ [Instr.trace 1, .eq 1 2, .qsolve3 4 5 1 2 3, .qsolve3 4 5 0 2 3],
      (∃ t, exec i sXYW = .next t) ∧ ∃ t, exec i { sXYW with status := 0xFFFFFFFF } = .next t) ∧
    (writesT (.trace 1) ∧ ¬ writesT (.eq 1 2)) ∧ (writesP (.eq 1 2) ∧ ¬ writesP (.trace 1)) ∧
    (writesN (.qsolve3 4 5 1 2 3) ∧ ¬ raisesFault sXYW (.qsolve3 4 5 1 2 3)) ∧
    raisesFault sXYW (.qsolve3 4 5 0 2 3) := by
  refine ⟨fun i _ => ⟨exec_next i _, exec_next i _⟩, ⟨⟨1, rfl⟩, by simp [writesT]⟩, ⟨.inl ⟨1, 2, rfl⟩, by simp [writesP]⟩,
    ⟨.inr ⟨4, 5, 1, 2, 3, rfl⟩, ?_⟩, .inr ⟨.invalidArgument, by simp only [faultCondition]; decide +kernel⟩⟩
  rintro (h | ⟨x, h⟩)
  · exact absurd h (by decide +kernel)
  · cases x <;> revert h <;> simp only [faultCondition] <;> decide +kernel
/-- An invalid first operand, and an invalid second one. -/
theorem witness_InvalidOperandsGiveFreeResults :
    isValid ((four Bad X 0 0).reg 1) = false ∧ isValid ((four X Bad 0 0).reg 2) = false := by decide +kernel
theorem witness_InvalidOperandsKeepTheFrame :
    isValid ((four Bad X 0 0).reg 1) = false ∧ 15 ≤ (15 : Byte).toNat ∧ (241 : Byte).toNat + (15 : Byte).toNat ≤ 256 ∧
    (4 : Reg) ≠ 5 ∧ (four Bad X 0 0).reg 1 ≠ 0 ∧ isValid ((four X Bad 0 0).reg 2) = false ∧
    isValid ((four X Y Bad 0).reg 3) = false := by decide +kernel
theorem witness_OnlyTheRowsOfTheTableMatter : exchanged.SameRows Config.tableR145 := witness_accepted_tables.2.1

end Sys2Proof.Machine.Tests
end

section
/-! SUPPORT. Runs, and what a command does as one update: at most one free value drawn, registers written in order, and one
effect outside the registers. -/

namespace Sys2Proof.Machine

/-! ## Runs -/

/-- What every step keeps, every run keeps. -/
theorem run_keeps {P : State → Prop} (hstep : ∀ s t, P s → step s = .next t → P t) (k : Nat) (s t : State) (hs : P s)
    (h : Host.Core.run Sys2Proof.core k s = .next t) : P t := by
  induction k generalizing s with
  | zero =>
    injection h with h
    exact h ▸ hs
  | succ k ih =>
    simp only [Host.Core.run] at h
    split at h
    · rename_i u hu
      exact ih u (hstep s u hs hu) h
    · cases h
    · cases h

/-- What `Issue` can do: discard the word, perform its command, or refuse it. -/
theorem issue_cases {w : Word} {s t : State} (h : issue w s = .next t) :
    (s.flagFault = 1 ∧ t = s) ∨ (s.flagFault ≠ 1 ∧ ∃ i, decode w = .ok i ∧ exec i s = .next t) ∨
      (s.flagFault ≠ 1 ∧ (∃ x, decode w = .error x) ∧ t = s.raise .illegalCommand w) := by
  unfold issue at h
  split at h
  · rename_i hf
    injection h with h
    exact .inl ⟨hf, h.symm⟩
  · rename_i hf
    split at h
    · rename_i i hi
      exact .inr (.inl ⟨hf, i, hi, h⟩)
    · rename_i x hx
      injection h with h
      exact .inr (.inr ⟨hf, ⟨x, hx⟩, h.symm⟩)

/-- What a step can do to the registers: nothing, what `Reset()` does, or what a command does. -/
theorem step_regs {s t : State} (h : step s = .next t) :
    sameRegs s t ∨ (∀ r, t.reg r = 0) ∨ ∃ i, exec i s.take = .next t := by
  unfold step advance at h
  split at h
  · injection h with h
    exact .inl fun r => by rw [h]
  · rename_i y _ _
    cases y with
    | issue w =>
      obtain ⟨-, rfl⟩ | ⟨-, i, -, hi⟩ | ⟨-, -, rfl⟩ := issue_cases h
      · exact .inl fun _ => rfl
      · exact .inr (.inr ⟨i, hi⟩)
      · exact .inl fun _ => rfl
    | reset =>
      injection h with h
      exact .inr (.inl fun r => h ▸ resetUnit_reg s.take r)
    | readStatus | readFcmd | bufRead | bufWrite =>
      injection h with h
      exact .inl fun _ => by rw [← h]; rfl

/-! ## Updates -/

/-- What a command does outside the registers and the draw counter. -/
inductive Aside where
  | keep
  | fault (x : Cause) (w : Word)
  | flagT (b : Bool)
  | flagP (b : Bool)
  | rootCount (n : BitVec 2)
  | bytes (a : Nat) (bs : List Byte)

/-- The state after that. -/
def Aside.apply (s : State) : Aside → State
  | .keep => s
  | .fault x w => s.raise x w
  | .flagT b => s.setT b
  | .flagP b => s.setP b
  | .rootCount n => s.setN n
  | .bytes a bs => s.memWrite a bs

/-- Draw a free value, or do not. -/
def State.drawnIf (s : State) (b : Bool) : State := if b then s.drawn else s

/-- Register writes, the first of the list first. -/
def State.writeRegs (s : State) : List (Reg × Container) → State
  | [] => s
  | (r, c) :: ws => (s.setReg r c).writeRegs ws

/-- All that one command does: nothing in it refers to the state that it is applied to. -/
structure Update where
  draw : Bool
  writes : List (Reg × Container)
  aside : Aside

/-- The state after an update. -/
def Update.apply (e : Update) (s : State) : State := e.aside.apply ((s.drawnIf e.draw).writeRegs e.writes)

@[simp] theorem drawnIf_reg (s : State) (b : Bool) (r : Reg) : (s.drawnIf b).reg r = s.reg r := by cases b <;> rfl

@[simp] theorem Aside.apply_reg (f : Aside) (s : State) (r : Reg) : (f.apply s).reg r = s.reg r := by
  cases f with
  | bytes a bs => exact reg_congr (memWrite_frame s a bs).1 r
  | keep | fault | flagT | flagP | rootCount => rfl

/-- The registers after an update are those of its writes. -/
theorem Update.apply_reg (e : Update) (s : State) (r : Reg) :
    (e.apply s).reg r = ((s.drawnIf e.draw).writeRegs e.writes).reg r := Aside.apply_reg _ _ r

/-- A register that no write names keeps its value. -/
theorem writeRegs_reg_of_not_written (s : State) (ws : List (Reg × Container)) (r : Reg) (h : ∀ p ∈ ws, p.1 ≠ r) :
    (s.writeRegs ws).reg r = s.reg r := by
  induction ws generalizing s with
  | nil => rfl
  | cons p ws ih =>
    rw [State.writeRegs, ih _ fun q hq => h q (List.mem_cons_of_mem _ hq)]
    exact setReg_reg_ne _ _ _ (h p List.mem_cons_self).symm

/-- After the same writes on two states a register is the same in both or kept in both. -/
theorem writeRegs_reg_same_or_kept (s s' : State) (ws : List (Reg × Container)) (r : Reg) :
    (s'.writeRegs ws).reg r = (s.writeRegs ws).reg r ∨
      ((s.writeRegs ws).reg r = s.reg r ∧ (s'.writeRegs ws).reg r = s'.reg r) := by
  induction ws generalizing s s' with
  | nil => exact .inr ⟨rfl, rfl⟩
  | cons p ws ih =>
    obtain ⟨rd, c⟩ := p
    refine (ih (s.setReg rd c) (s'.setReg rd c)).elim .inl fun ⟨h, h'⟩ => ?_
    simp only [State.writeRegs, h, h', setReg_reg]
    by_cases hr : r = rd
    · exact .inl (by simp [hr])
    · exact .inr (by simp [hr])

/-! ## Valid registers -/

/-- A register that holds 0 is valid. -/
theorem isValid_zero : isValid 0 = true := by decide

/-- Writing a valid element keeps all registers valid. -/
theorem setReg_regsValid {s : State} {rd : Reg} {c : Container} (hs : s.regsValid) (hc : isValid c = true) :
    (s.setReg rd c).regsValid := by
  intro r
  rw [setReg_reg]
  split
  · exact hc
  · exact hs r

/-- So do writes of valid elements. -/
theorem writeRegs_regsValid {s : State} {ws : List (Reg × Container)} (hs : s.regsValid)
    (hws : ∀ p ∈ ws, isValid p.2 = true) : (s.writeRegs ws).regsValid := by
  induction ws generalizing s with
  | nil => exact hs
  | cons p ws ih =>
    exact ih (setReg_regsValid hs (hws p List.mem_cons_self)) fun q hq => hws q (List.mem_cons_of_mem _ hq)

/-- And so does an update that writes valid elements. -/
theorem Update.apply_regsValid {e : Update} {s : State} (hs : s.regsValid) (he : ∀ p ∈ e.writes, isValid p.2 = true) :
    (e.apply s).regsValid := by
  intro r
  rw [e.apply_reg]
  exact writeRegs_regsValid (s := s.drawnIf e.draw) (fun r => by simpa using hs r) he r

/-! ## States that differ in the registers only -/

/-- `s'` is `s` with other registers. -/
def sameButRegs (s s' : State) : Prop := ∃ rs, s' = { s with regs := rs }

theorem sameButRegs_drawnIf {s s' : State} (h : sameButRegs s s') (b : Bool) :
    sameButRegs (s.drawnIf b) (s'.drawnIf b) := by
  obtain ⟨rs, rfl⟩ := h
  cases b <;> exact ⟨rs, rfl⟩

theorem sameButRegs_writeRegs {s s' : State} (h : sameButRegs s s') (ws : List (Reg × Container)) :
    sameButRegs (s.writeRegs ws) (s'.writeRegs ws) := by
  induction ws generalizing s s' with
  | nil => exact h
  | cons p ws ih =>
    obtain ⟨rs, rfl⟩ := h
    exact ih ⟨_, rfl⟩

theorem sameButRegs_memWrite {s s' : State} (h : sameButRegs s s') (a : Nat) (bs : List Byte) :
    sameButRegs (s.memWrite a bs) (s'.memWrite a bs) := by
  induction bs generalizing s s' a with
  | nil => exact h
  | cons b bs ih =>
    obtain ⟨rs, rfl⟩ := h
    exact ih ⟨rs, rfl⟩ (a + 1)

theorem sameButRegs_aside {s s' : State} (h : sameButRegs s s') (f : Aside) : sameButRegs (f.apply s) (f.apply s') := by
  cases f with
  | bytes a bs => exact sameButRegs_memWrite h a bs
  | keep => exact h
  | fault | flagT | flagP | rootCount =>
    obtain ⟨rs, rfl⟩ := h
    exact ⟨rs, rfl⟩

/-- An update takes two states that differ in the registers only to two such states. -/
theorem sameButRegs_update {s s' : State} (h : sameButRegs s s') (e : Update) : sameButRegs (e.apply s) (e.apply s') :=
  sameButRegs_aside (sameButRegs_writeRegs (sameButRegs_drawnIf h _) _) _

/-! ## Reading the same values -/

/-- Two states in which command `i` reads the same values: the same in its source registers, the same buffer and the same draw
counter. STATUS, FCMD and the host's side may differ. -/
structure ReadsAlike (i : Instr) (s s' : State) : Prop where
  reg : ∀ r ∈ sourcesOf i, s'.reg r = s.reg r
  buf : s'.buf = s.buf
  draws : s'.draws = s.draws

theorem ReadsAlike.refl (i : Instr) (s : State) : ReadsAlike i s s := ⟨fun _ _ => rfl, rfl, rfl⟩

section Congruence
variable {α : Type} {s s' : State} {r r1 r2 r3 : Reg}

theorem element?_congr (h : s'.reg r = s.reg r) : s'.element? r = s.element? r := by simp [State.element?, h]

theorem apply1_congr (f : Element → α) (h : s'.reg r = s.reg r) : s'.apply1 f r = s.apply1 f r := by
  simp [State.apply1, element?_congr h]

theorem apply2_congr (f : Element → Element → α) (h1 : s'.reg r1 = s.reg r1) (h2 : s'.reg r2 = s.reg r2) :
    s'.apply2 f r1 r2 = s.apply2 f r1 r2 := by
  simp [State.apply2, element?_congr h1, element?_congr h2]

theorem apply3_congr (f : Element → Element → Element → α) (h1 : s'.reg r1 = s.reg r1) (h2 : s'.reg r2 = s.reg r2)
    (h3 : s'.reg r3 = s.reg r3) : s'.apply3 f r1 r2 r3 = s.apply3 f r1 r2 r3 := by
  simp [State.apply3, element?_congr h1, element?_congr h2, element?_congr h3]

theorem wireOfReg_congr (h : s'.reg r = s.reg r) (hd : s'.draws = s.draws) : s'.wireOfReg r = s.wireOfReg r := by
  simp [State.wireOfReg, element?_congr h, hd]

theorem traceOfReg_congr (h : s'.reg r = s.reg r) (hd : s'.draws = s.draws) : s'.traceOfReg r = s.traceOfReg r := by
  simp [State.traceOfReg, element?_congr h, hd]

theorem memRead_congr (h : s'.buf = s.buf) (a n : Nat) : s'.memRead a n = s.memRead a n := by
  simp [State.memRead, byte_congr h]

/-- A read for SER or TRACE draws a free value when the container read is invalid. -/
theorem afterRead_eq_drawnIf (h : s'.reg r = s.reg r) : s'.afterRead r = s'.drawnIf (!isValid (s.reg r)) := by
  rw [State.afterRead, h]
  cases isValid (s.reg r) <;> rfl

/-- `Inverse` reads the draw counter and draws when its operand is Zero. -/
theorem inverseOf_congr (hd : s'.draws = s.draws) (a : Element) :
    s'.inverseOf a = ((s.inverseOf a).1, s'.drawnIf (a = gfZero)) := by
  simp [State.inverseOf, State.drawnIf, hd]

end Congruence

/-! ## Every command is an update -/

/-- Update `e` is what command `i` does in state `s`, and in every state where it reads the same: it writes destinations of `i`
only, and valid elements when all registers hold such. -/
structure Update.Performs (e : Update) (i : Instr) (s : State) : Prop where
  destinations : ∀ p ∈ e.writes, p.1 ∈ destinationsOf i
  valid : s.regsValid → ∀ p ∈ e.writes, isValid p.2 = true
  exec_eq : ∀ s', ReadsAlike i s s' → exec i s' = .next (e.apply s')

section Shapes
variable {i : Instr} {s : State}

/-- A command that writes no register. -/
theorem performs_of_aside (draw : Bool) (f : Aside)
    (h : ∀ s', ReadsAlike i s s' → exec i s' = .next (f.apply (s'.drawnIf draw))) : ∃ e : Update, e.Performs i s :=
  ⟨⟨draw, [], f⟩, by simp, by simp, h⟩

/-- A command that writes one register and nothing else. -/
theorem performs_of_write (draw : Bool) (rd : Reg) (c : Container) (hd : rd ∈ destinationsOf i)
    (hc : s.regsValid → isValid c = true)
    (h : ∀ s', ReadsAlike i s s' → exec i s' = .next ((s'.drawnIf draw).setReg rd c)) : ∃ e : Update, e.Performs i s :=
  ⟨⟨draw, [(rd, c)], .keep⟩, by simpa using hd, by simpa using hc, h⟩

/-- A command that writes the result `v` of a field function of its sources. -/
theorem performs_of_result (rd : Reg) (v : State → Option Element) (hd : rd ∈ destinationsOf i)
    (hexec : ∀ s', exec i s' = .next (s'.setResult rd (v s'))) (hread : ∀ s', ReadsAlike i s s' → v s' = v s)
    (hsome : s.regsValid → v s ≠ none) : ∃ e : Update, e.Performs i s := by
  cases hv : v s with
  | none =>
    refine performs_of_write true rd (Config.freeContainer s.draws) hd (fun hs => absurd hv (hsome hs)) fun s' h => ?_
    rw [hexec, hread s' h, hv, ← h.draws]
    rfl
  | some a =>
    refine performs_of_write false rd (containerOf a) hd (fun _ => isValid_containerOf a) fun s' h => ?_
    rw [hexec, hread s' h, hv]
    rfl

/-- A command that writes a field function of one source. -/
theorem performs_of_apply1 (rd r : Reg) (f : Element → Element) (hd : rd ∈ destinationsOf i) (hr : r ∈ sourcesOf i)
    (hexec : ∀ s', exec i s' = .next (s'.setResult rd (s'.apply1 f r))) : ∃ e : Update, e.Performs i s :=
  performs_of_result rd (fun s' => s'.apply1 f r) hd hexec (fun _ h => apply1_congr f (h.reg r hr))
    fun hs => by simp [apply1_of_valid f (hs r)]

/-- A command that writes a field function of two sources. -/
theorem performs_of_apply2 (rd r1 r2 : Reg) (f : Element → Element → Element) (hd : rd ∈ destinationsOf i)
    (hr1 : r1 ∈ sourcesOf i) (hr2 : r2 ∈ sourcesOf i)
    (hexec : ∀ s', exec i s' = .next (s'.setResult rd (s'.apply2 f r1 r2))) : ∃ e : Update, e.Performs i s :=
  performs_of_result rd (fun s' => s'.apply2 f r1 r2) hd hexec
    (fun _ h => apply2_congr f (h.reg r1 hr1) (h.reg r2 hr2)) fun hs => by simp [apply2_of_valid f (hs r1) (hs r2)]

/-- A command that writes the outcome `o` of the affine solver. -/
theorem performs_of_root (draw : Bool) (rd : Reg) (o : Option Container) (hd : rd ∈ destinationsOf i)
    (ho : s.regsValid → ∀ c ∈ o, isValid c = true)
    (h : ∀ s', ReadsAlike i s s' → exec i s' = .next ((s'.drawnIf draw).setRoot rd o)) : ∃ e : Update, e.Performs i s := by
  cases o with
  | none => exact performs_of_aside draw (.rootCount 0) h
  | some x1 => exact ⟨⟨draw, [(rd, x1)], .rootCount 1⟩, by simpa using hd, fun hs => by simpa using ho hs, h⟩

/-- A command that writes the outcome `o` of the general solver. -/
theorem performs_of_roots (draw : Bool) (rd rd2 : Reg) (o : Roots Container) (hd : rd ∈ destinationsOf i)
    (hd2 : rd2 ∈ destinationsOf i) (ho : s.regsValid → ∃ roots : Roots Element, o = rootContainers roots)
    (h : ∀ s', ReadsAlike i s s' → exec i s' = .next ((s'.drawnIf draw).setRoots rd rd2 o)) :
    ∃ e : Update, e.Performs i s := by
  cases o with
  | none => exact performs_of_aside draw (.rootCount 0) h
  | one x1 =>
    refine ⟨⟨draw, [(rd, x1)], .rootCount 1⟩, by simpa using hd, fun hs => ?_, h⟩
    obtain ⟨roots, hroots⟩ := ho hs
    cases roots <;> cases hroots
    simp
  | two x1 x2 =>
    refine ⟨⟨draw, [(rd, x1), (rd2, x2)], .rootCount 2⟩, by simp [hd, hd2], fun hs => ?_, h⟩
    obtain ⟨roots, hroots⟩ := ho hs
    cases roots <;> cases hroots
    simp

end Shapes

section Commands
variable (s : State)

/-- VERIFY raises a fault or does nothing. -/
theorem verify_performs (rs1 : Reg) : ∃ e : Update, e.Performs (.verify rs1) s := by
  cases hv : verifyContainer (s.reg rs1) with
  | ok u =>
    refine performs_of_aside false .keep fun s' h => ?_
    simp only [exec, execVerify, h.reg rs1 List.mem_cons_self, hv]
    rfl
  | error x =>
    refine performs_of_aside false (.fault x (encode (.verify rs1))) fun s' h => ?_
    simp only [exec, execVerify, h.reg rs1 List.mem_cons_self, hv]
    rfl

/-- SER raises one of its two faults or stores the wire form of its source. -/
theorem ser_performs (r : Reg) (addr len : Byte) : ∃ e : Update, e.Performs (.ser r addr len) s := by
  by_cases hlen : len.toNat < wireBytes
  · exact performs_of_aside false (.fault .bufferTooSmall (encode (.ser r addr len))) fun s' _ => by
      simp only [exec, execSer, if_pos hlen]
      rfl
  by_cases hin : insideBuffer addr len = true
  · refine performs_of_aside (!isValid (s.reg r)) (.bytes addr.toNat (s.wireOfReg r)) fun s' h => ?_
    have hr : s'.reg r = s.reg r := h.reg r List.mem_cons_self
    simp only [exec, execSer, if_neg hlen, if_pos hin, afterRead_eq_drawnIf hr, wireOfReg_congr hr h.draws]
    rfl
  · exact performs_of_aside false (.fault .addressRange (encode (.ser r addr len))) fun s' _ => by
      simp only [exec, execSer, if_neg hlen, if_neg hin]
      rfl

/-- What `Verify` accepts is a valid element. -/
theorem isValid_of_verifyContainer_eq_ok {c : Container} {u : Unit} (h : verifyContainer c = .ok u) : isValid c = true := by
  unfold verifyContainer at h
  split at h
  · assumption
  · cases h

/-- What `Deserialize` accepts is a valid element. -/
theorem isValid_of_deserialize_eq_ok {bs : List Byte} {c : Container} (h : deserialize bs = .ok c) : isValid c = true := by
  unfold deserialize at h
  split at h
  · cases h
  · split at h
    · rename_i hv
      injection h with h
      exact h ▸ isValid_of_verifyContainer_eq_ok hv
    · cases h

/-- DESER raises one of its three faults or loads the element that the buffer holds. -/
theorem deser_performs (r : Reg) (addr len : Byte) : ∃ e : Update, e.Performs (.deser r addr len) s := by
  by_cases hlen : len.toNat ≠ wireBytes
  · exact performs_of_aside false (.fault .lengthMismatch (encode (.deser r addr len))) fun s' _ => by
      simp only [exec, execDeser, if_pos hlen]
      rfl
  by_cases hin : insideBuffer addr len = true
  · cases hc : deserialize (s.memRead addr.toNat wireBytes) with
    | ok c =>
      refine performs_of_write false r c List.mem_cons_self (fun _ => isValid_of_deserialize_eq_ok hc) fun s' h => ?_
      simp only [exec, execDeser, if_neg hlen, if_pos hin, memRead_congr h.buf, hc]
      rfl
    | error x =>
      refine performs_of_aside false (.fault x (encode (.deser r addr len))) fun s' h => ?_
      simp only [exec, execDeser, if_neg hlen, if_pos hin, memRead_congr h.buf, hc]
      rfl
  · exact performs_of_aside false (.fault .addressRange (encode (.deser r addr len))) fun s' _ => by
      simp only [exec, execDeser, if_neg hlen, if_neg hin]
      rfl

/-- INV writes the inverse, and draws for Zero; on an invalid source it draws a free container. -/
theorem inv_performs (rd rs1 : Reg) : ∃ e : Update, e.Performs (.inv rd rs1) s := by
  cases ha : s.element? rs1 with
  | none =>
    refine performs_of_write true rd (Config.freeContainer s.draws) List.mem_cons_self
      (fun hs => by simp [element?_of_valid (hs rs1)] at ha) fun s' h => ?_
    simp only [exec, execInv, element?_congr (h.reg rs1 List.mem_cons_self), ha, State.setResult, h.draws]
    rfl
  | some a =>
    refine performs_of_write (a = gfZero) rd (containerOf (s.inverseOf a).1) List.mem_cons_self
      (fun _ => isValid_containerOf _) fun s' h => ?_
    simp only [exec, execInv, element?_congr (h.reg rs1 List.mem_cons_self), ha, inverseOf_congr h.draws]

/-- DIV writes the quotient, and draws for a Zero divisor; on an invalid source it draws a free container. -/
theorem div_performs (rd rs1 rs2 : Reg) : ∃ e : Update, e.Performs (.div rd rs1 rs2) s := by
  have hr1 (s' : State) (h : ReadsAlike (.div rd rs1 rs2) s s') : s'.element? rs1 = s.element? rs1 :=
    element?_congr (h.reg rs1 (by simp [sourcesOf]))
  have hr2 (s' : State) (h : ReadsAlike (.div rd rs1 rs2) s s') : s'.element? rs2 = s.element? rs2 :=
    element?_congr (h.reg rs2 (by simp [sourcesOf]))
  by_cases hab : ∃ a b, s.element? rs1 = some a ∧ s.element? rs2 = some b
  · obtain ⟨a, b, ha, hb⟩ := hab
    refine performs_of_write (b = gfZero) rd (containerOf (gfMul Config.multab a (s.inverseOf b).1)) List.mem_cons_self
      (fun _ => isValid_containerOf _) fun s' h => ?_
    simp only [exec, execDiv, hr1 s' h, hr2 s' h, ha, hb, inverseOf_congr h.draws]
  · refine performs_of_write true rd (Config.freeContainer s.draws) List.mem_cons_self
      (fun hs => absurd ⟨_, _, element?_of_valid (hs rs1), element?_of_valid (hs rs2)⟩ hab) fun s' h => ?_
    simp only [exec, execDiv, hr1 s' h, hr2 s' h, State.setResult, h.draws]
    split
    · rename_i ha hb
      exact absurd ⟨_, _, ha, hb⟩ hab
    · rfl

/-- TRACE writes the flag T, and draws for an invalid source. -/
theorem trace_performs (rs1 : Reg) : ∃ e : Update, e.Performs (.trace rs1) s := by
  refine performs_of_aside (!isValid (s.reg rs1)) (.flagT (s.traceOfReg rs1)) fun s' h => ?_
  have hr : s'.reg rs1 = s.reg rs1 := h.reg rs1 List.mem_cons_self
  simp only [exec, execTrace, afterRead_eq_drawnIf hr, traceOfReg_congr hr h.draws]
  rfl

/-- QSOLVE writes the affine solver's outcome, a free one for an invalid source. -/
theorem qsolve_performs (rd rs1 : Reg) : ∃ e : Update, e.Performs (.qsolve rd rs1) s := by
  have hr (s' : State) (h : ReadsAlike (.qsolve rd rs1) s s') := apply1_congr (solveAffine Config.qsZ0)
    (h.reg rs1 List.mem_cons_self)
  cases ho : s.apply1 (solveAffine Config.qsZ0) rs1 with
  | none =>
    refine performs_of_root true rd (Config.freeRoot s.draws) List.mem_cons_self
      (fun hs => by simp [apply1_of_valid _ (hs rs1)] at ho) fun s' h => ?_
    simp only [exec, execQsolve, hr s' h, ho, h.draws]
    rfl
  | some root =>
    have hvalid : ∀ c ∈ root.map containerOf, isValid c = true := fun c hc => by
      obtain ⟨z, -, rfl⟩ := Option.mem_map.1 hc
      exact isValid_containerOf z
    refine performs_of_root false rd (root.map containerOf) List.mem_cons_self (fun _ => hvalid) fun s' h => ?_
    simp only [exec, execQsolve, hr s' h, ho]
    rfl

/-- QSOLVE3 raises a fault or writes the general solver's outcome, a free one for an invalid source. -/
theorem qsolve3_performs (rd rd2 rs1 rs2 rs3 : Reg) : ∃ e : Update, e.Performs (.qsolve3 rd rd2 rs1 rs2 rs3) s := by
  have hr1 (s' : State) (h : ReadsAlike (.qsolve3 rd rd2 rs1 rs2 rs3) s s') : s'.reg rs1 = s.reg rs1 :=
    h.reg rs1 List.mem_cons_self
  have hr (s' : State) (h : ReadsAlike (.qsolve3 rd rd2 rs1 rs2 rs3) s s') :=
    apply3_congr (solveGeneral Config.multab Config.qsZ0) (hr1 s' h) (h.reg rs2 (by simp [sourcesOf]))
      (h.reg rs3 (by simp [sourcesOf]))
  have hd2 : rd2 ∈ destinationsOf (.qsolve3 rd rd2 rs1 rs2 rs3) := by simp [destinationsOf]
  by_cases hrd : rd = rd2
  · exact performs_of_aside false (.fault .illegalCommand (encode (.qsolve3 rd rd2 rs1 rs2 rs3))) fun s' _ => by
      simp only [exec, execQsolve3, if_pos hrd]
      rfl
  by_cases hA : s.reg rs1 = containerOf gfZero
  · refine performs_of_aside false (.fault .invalidArgument (encode (.qsolve3 rd rd2 rs1 rs2 rs3))) fun s' h => ?_
    simp only [exec, execQsolve3, if_neg hrd, hr1 s' h, if_pos hA]
    rfl
  cases ho : s.apply3 (solveGeneral Config.multab Config.qsZ0) rs1 rs2 rs3 with
  | none =>
    refine performs_of_roots true rd rd2 (Config.freeRoots s.draws) List.mem_cons_self hd2
      (fun hs => by simp [apply3_of_valid _ (hs rs1) (hs rs2) (hs rs3)] at ho) fun s' h => ?_
    simp only [exec, execQsolve3, if_neg hrd, hr1 s' h, if_neg hA, hr s' h, ho, h.draws]
    rfl
  | some outcome =>
    cases outcome with
    | ok roots =>
      refine performs_of_roots false rd rd2 (rootContainers roots) List.mem_cons_self hd2 (fun _ => ⟨roots, rfl⟩)
        fun s' h => ?_
      simp only [exec, execQsolve3, if_neg hrd, hr1 s' h, if_neg hA, hr s' h, ho]
      rfl
    | error x =>
      refine performs_of_aside false (.fault x (encode (.qsolve3 rd rd2 rs1 rs2 rs3))) fun s' h => ?_
      simp only [exec, execQsolve3, if_neg hrd, hr1 s' h, if_neg hA, hr s' h, ho]
      rfl

end Commands

/-- Every command, in every state, is an update that it performs wherever it reads the same. -/
theorem exec_performs (i : Instr) (s : State) : ∃ e : Update, e.Performs i s := by
  cases i with
  | zero rd =>
    exact performs_of_write false rd (containerOf gfZero) List.mem_cons_self (fun _ => isValid_containerOf _) fun _ _ => rfl
  | one rd =>
    exact performs_of_write false rd (containerOf gfOne) List.mem_cons_self (fun _ => isValid_containerOf _) fun _ _ => rfl
  | mov rd rs1 | neg rd rs1 =>
    refine performs_of_write false rd (s.reg rs1) List.mem_cons_self (fun hs => hs rs1) fun s' h => ?_
    rw [← h.reg rs1 List.mem_cons_self]
    rfl
  | verify rs1 => exact verify_performs s rs1
  | ser r addr len => exact ser_performs s r addr len
  | deser r addr len => exact deser_performs s r addr len
  | eq rs1 rs2 =>
    refine performs_of_aside false (.flagP (s.reg rs1 == s.reg rs2)) fun s' h => ?_
    rw [← h.reg rs1 (by simp [sourcesOf]), ← h.reg rs2 (by simp [sourcesOf])]
    rfl
  | iszero rs1 =>
    refine performs_of_aside false (.flagP (s.reg rs1 == containerOf gfZero)) fun s' h => ?_
    rw [← h.reg rs1 List.mem_cons_self]
    rfl
  | isone rs1 =>
    refine performs_of_aside false (.flagP (s.reg rs1 == containerOf gfOne)) fun s' h => ?_
    rw [← h.reg rs1 List.mem_cons_self]
    rfl
  | add rd rs1 rs2 =>
    exact performs_of_apply2 rd rs1 rs2 gfAdd List.mem_cons_self List.mem_cons_self (by simp [sourcesOf]) fun _ => rfl
  | sub rd rs1 rs2 =>
    exact performs_of_apply2 rd rs1 rs2 gfSub List.mem_cons_self List.mem_cons_self (by simp [sourcesOf]) fun _ => rfl
  | mul rd rs1 rs2 =>
    exact performs_of_apply2 rd rs1 rs2 (gfMul Config.multab) List.mem_cons_self List.mem_cons_self
      (by simp [sourcesOf]) fun _ => rfl
  | addone rd rs1 => exact performs_of_apply1 rd rs1 gfAddOne List.mem_cons_self List.mem_cons_self fun _ => rfl
  | subone rd rs1 => exact performs_of_apply1 rd rs1 gfSubOne List.mem_cons_self List.mem_cons_self fun _ => rfl
  | sqr rd rs1 => exact performs_of_apply1 rd rs1 rotl113 List.mem_cons_self List.mem_cons_self fun _ => rfl
  | sqrt rd rs1 => exact performs_of_apply1 rd rs1 rotr113 List.mem_cons_self List.mem_cons_self fun _ => rfl
  | inv rd rs1 => exact inv_performs s rd rs1
  | div rd rs1 rs2 => exact div_performs s rd rs1 rs2
  | trace rs1 => exact trace_performs s rs1
  | qsolve rd rs1 => exact qsolve_performs s rd rs1
  | qsolve3 rd rd2 rs1 rs2 rs3 => exact qsolve3_performs s rd rd2 rs1 rs2 rs3

/-- The state that a command answers is the one after its update. -/
theorem Update.Performs.eq_apply {e : Update} {i : Instr} {s s' t : State} (he : e.Performs i s) (hr : ReadsAlike i s s')
    (h : exec i s' = .next t) : t = e.apply s' := by
  rw [he.exec_eq s' hr] at h
  injection h with h
  exact h.symm

/-- A command writes no register but its destinations (R23). -/
theorem exec_keeps_other_regs {i : Instr} {s t : State} (h : exec i s = .next t) {r : Reg} (hr : r ∉ destinationsOf i) :
    t.reg r = s.reg r := by
  obtain ⟨e, he⟩ := exec_performs i s
  have hw : ∀ p ∈ e.writes, p.1 ≠ r := fun p hp hpr => hr (hpr ▸ he.destinations p hp)
  rw [he.eq_apply (.refl i s) h, e.apply_reg, writeRegs_reg_of_not_written _ _ _ hw, drawnIf_reg]

/-- A command keeps all registers valid (R22). -/
theorem exec_keeps_regsValid {i : Instr} {s t : State} (hs : s.regsValid) (h : exec i s = .next t) : t.regsValid := by
  obtain ⟨e, he⟩ := exec_performs i s
  rw [he.eq_apply (.refl i s) h]
  exact Update.apply_regsValid hs (he.valid hs)

/-- So does every step, whatever transaction the host makes. -/
theorem step_keeps_regsValid {s t : State} (hs : s.regsValid) (h : step s = .next t) : t.regsValid := by
  obtain hsame | hzero | ⟨i, hi⟩ := step_regs h
  · exact fun r => hsame r ▸ hs r
  · exact fun r => hzero r ▸ isValid_zero
  · exact exec_keeps_regsValid (s := s.take) hs hi

/-- A unit with STATUS 0 drives `fault_out` low (R207). -/
theorem faultOut_of_status_zero {s : State} (h : s.status = 0) : s.faultOut = false := by
  simp [State.faultOut, State.flagFault, getField, h]

/-- VERIFY of a valid register changes nothing (R104). -/
theorem exec_verify_of_valid {s : State} {r : Reg} (h : isValid (s.reg r) = true) : exec (.verify r) s = .next s := by
  simp [exec, execVerify, verifyContainer, h]

/-! ## Settled obligations -/

/-- Settles O1: `Reset()` writes registers, STATUS and FCMD whatever they hold, and no byte of BUF. -/
theorem resetPutsEveryPieceOfStateAtItsResetValue : Obligations.ResetPutsEveryPieceOfStateAtItsResetValue := by
  refine ⟨⟨reset_reg, rfl, rfl, faultOut_of_status_zero rfl, fun _ => rfl⟩, fun s rest hp => ?_⟩
  exact ⟨_, step_cons hp, resetUnit_reg _, rfl, rfl, faultOut_of_status_zero rfl, fun _ => rfl⟩

/-- Settles O49: validity of all registers holds at reset and every step keeps it. -/
theorem reachableRegistersAreValid : Obligations.ReachableRegistersAreValid := by
  intro ts k s h r
  have hreset : State.regsValid { State.reset with pending := ts } := fun r =>
    (reset_reg r).symm ▸ isValid_zero
  have hs : s.regsValid := run_keeps (fun _ _ hu hv => step_keeps_regsValid hu hv) k _ s hreset h
  exact ⟨by simpa [isValid] using hs r, exec_verify_of_valid (hs r)⟩

/-- Settles O50: from two states that agree on the sources a command performs one and the same update. -/
theorem commandsReadSourcesAndWriteDestinations : Obligations.CommandsReadSourcesAndWriteDestinations := by
  refine ⟨fun i s t h r hr => exec_keeps_other_regs h hr, fun i s s' t t' hsrc hs' ht ht' => ?_⟩
  have hread : ReadsAlike i s s' := ⟨hsrc, by rw [hs'], by rw [hs']⟩
  obtain ⟨e, he⟩ := exec_performs i s
  obtain rfl := he.eq_apply (.refl i s) ht
  obtain rfl := he.eq_apply hread ht'
  constructor
  · obtain ⟨rs, h⟩ := sameButRegs_update ⟨s'.regs, hs'⟩ e
    rw [h]
  · intro r _
    simpa only [Update.apply_reg, drawnIf_reg] using
      writeRegs_reg_same_or_kept (s.drawnIf e.draw) (s'.drawnIf e.draw) e.writes r

end Sys2Proof.Machine
end

section
/-! SUPPORT. The decoder row by row: which row of the opcode map takes a word, what it answers then, and the word that its answer
encodes to. -/

namespace Sys2Proof.Machine

/-! ## The opcode map -/

/-- The row as R74 prints it: mnemonic, match, mask. -/
def tableEntry (row : OpcodeRow) : String × Word × Word :=
  (mnemonicOf (row.operands row.pattern), row.pattern, row.mask)

/-- The opcode map is the table of R74. -/
theorem opcodeTableR74_eq_map_tableEntry : opcodeTableR74 = opcodeMap.map tableEntry := rfl

/-- The entries of the table of R74 are those of the map's rows. -/
theorem mem_opcodeTableR74 {e : String × Word × Word} : e ∈ opcodeTableR74 ↔ ∃ row ∈ opcodeMap, tableEntry row = e :=
  opcodeTableR74_eq_map_tableEntry ▸ List.mem_map

/-- A row matches a word in the sense of R74 exactly when it accepts it. -/
theorem accepts_iff {row : OpcodeRow} {w : Word} : row.accepts w = true ↔ w &&& row.mask = row.pattern := beq_iff_eq

/-- The mnemonic of a row's command does not depend on the operands. -/
theorem mnemonicOf_operands {row : OpcodeRow} (hrow : row ∈ opcodeMap) (w : Word) :
    mnemonicOf (row.operands w) = (tableEntry row).1 := by
  fin_cases hrow <;> rfl

/-- The mask of every row covers the opcode byte (R74). -/
theorem opcodeOf_mask : ∀ row ∈ opcodeMap, opcodeOf row.mask = BitVec.allOnes 8 := by decide

/-- No two rows have the same opcode byte (R74). -/
theorem nodup_opcodes : (opcodeMap.map fun row => opcodeOf row.pattern).Nodup := by decide

/-- The opcode byte of an accepted word is the row's. -/
theorem opcodeOf_of_accepts {row : OpcodeRow} (hrow : row ∈ opcodeMap) {w : Word} (h : row.accepts w = true) :
    opcodeOf w = opcodeOf row.pattern := by
  rw [← accepts_iff.mp h, opcodeOf, opcodeOf, BitVec.extractLsb'_and]
  exact (opcodeOf_mask row hrow ▸ BitVec.and_allOnes).symm

/-- The opcode byte selects at most one row. -/
theorem row_eq_of_opcodeOf_eq {row row' : OpcodeRow} (hrow : row ∈ opcodeMap) (hrow' : row' ∈ opcodeMap)
    (h : opcodeOf row.pattern = opcodeOf row'.pattern) : row = row' :=
  List.inj_on_of_nodup_map nodup_opcodes hrow hrow' h

/-- No word is accepted by two rows (R74). -/
theorem row_eq_of_accepts {row row' : OpcodeRow} (hrow : row ∈ opcodeMap) (hrow' : row' ∈ opcodeMap) {w : Word}
    (h : row.accepts w = true) (h' : row'.accepts w = true) : row = row' :=
  row_eq_of_opcodeOf_eq hrow hrow' ((opcodeOf_of_accepts hrow h).symm.trans (opcodeOf_of_accepts hrow' h'))

/-! ## What the decoder answers -/

/-- A word that a row accepts decodes to that row's command, or is refused as a QSOLVE3 with equal destinations. -/
theorem decode_of_accepts {row : OpcodeRow} (hrow : row ∈ opcodeMap) {w : Word} (h : row.accepts w = true) :
    decode w = if (row.operands w).wellFormed then .ok (row.operands w) else .error .sameDestinations := by
  have hfind : opcodeMap.find? (·.accepts w) = some row := by
    obtain ⟨row', hf⟩ := Option.isSome_iff_exists.mp
      ((List.find?_isSome (p := (OpcodeRow.accepts · w))).mpr ⟨row, hrow, h⟩)
    rw [hf, row_eq_of_accepts (List.mem_of_find?_eq_some hf) hrow (List.find?_some (p := (OpcodeRow.accepts · w)) hf) h]
  simp only [decode, hfind]

/-- A word that no row accepts is refused: for its unused fields when some row has its opcode byte, else for that byte. -/
theorem decode_of_no_row {w : Word} (h : ∀ row ∈ opcodeMap, ¬ row.accepts w = true) :
    decode w = if opcodeMap.any (fun row => opcodeOf row.pattern == opcodeOf w) then .error .nonzeroUnusedField
      else .error .unknownOpcode := by
  simp only [decode, List.find?_eq_none.mpr h]

/-- A word decodes to a command exactly when a row accepts it and reads this command, a legal one, from it. -/
theorem decode_eq_ok_iff {w : Word} {i : Instr} :
    decode w = .ok i ↔ ∃ row ∈ opcodeMap, row.accepts w = true ∧ row.operands w = i ∧ i.wellFormed = true := by
  constructor
  · intro h
    by_cases hex : ∃ row ∈ opcodeMap, row.accepts w = true
    · obtain ⟨row, hrow, ha⟩ := hex
      rw [decode_of_accepts hrow ha] at h
      split at h
      · rename_i hwf
        injection h with h
        exact ⟨row, hrow, ha, h, h ▸ hwf⟩
      · cases h
    · rw [decode_of_no_row (by simpa using hex)] at h
      split at h <;> cases h
  · rintro ⟨row, hrow, ha, rfl, hwf⟩
    rw [decode_of_accepts hrow ha, if_pos hwf]

/-! ## The word of a row's command -/

/-- A word with the bits of `p`, and where `k` is 1 also those of `w`, field by field. -/
theorem or_and_eq_packWord (p w k : Word) :
    p ||| (w &&& k) =
      packWord (opcodeOf p ||| (opcodeOf w &&& opcodeOf k))
        (p.extractLsb' 20 4 ||| (w.extractLsb' 20 4 &&& k.extractLsb' 20 4))
        (p.extractLsb' 16 4 ||| (w.extractLsb' 16 4 &&& k.extractLsb' 16 4))
        (p.extractLsb' 12 4 ||| (w.extractLsb' 12 4 &&& k.extractLsb' 12 4))
        (p.extractLsb' 8 4 ||| (w.extractLsb' 8 4 &&& k.extractLsb' 8 4))
        (p.extractLsb' 4 4 ||| (w.extractLsb' 4 4 &&& k.extractLsb' 4 4))
        (p.extractLsb' 0 4 ||| (w.extractLsb' 0 4 &&& k.extractLsb' 0 4)) := by
  rw [← packWord_self (p ||| (w &&& k))]
  simp only [opcodeOf, BitVec.extractLsb'_or, BitVec.extractLsb'_and]

/-- The field of a register that was read from a word. -/
theorem regBits_regAt (w : Word) (lo : Nat) : regBits (regAt w lo) = w.extractLsb' lo 4 := rfl

/-- Masking a nibble with ones keeps it. -/
theorem nibble_and_ones (x : BitVec 4) : x &&& 15#4 = x := BitVec.and_allOnes

/-- A field inside a field of a word. -/
theorem extractLsb'_extractLsb' (w : Word) {lo n lo' n' : Nat} (h : lo' + n' ≤ n) :
    (w.extractLsb' lo n).extractLsb' lo' n' = w.extractLsb' (lo + lo') n' := by
  apply BitVec.eq_of_getLsbD_eq
  intro i hi
  have : lo' + i < n := by omega
  simp [hi, this, Nat.add_assoc]

/-- The format M word of the operands read from a word has that word's fields (R72). -/
theorem formatM_operandsOf (op : BitVec 8) (w : Word) :
    formatM op (regAt w 20) (addrOf w) (lenOf w) = packWord op (w.extractLsb' 20 4) (w.extractLsb' 16 4)
      (w.extractLsb' 12 4) (w.extractLsb' 8 4) (w.extractLsb' 4 4) 0 := by
  simp [formatM_eq, addrOf, lenOf, regBits_regAt, extractLsb'_extractLsb']

/-- Encoding the operands that a row reads from any word at all gives the row's pattern with the word's bits outside the mask. -/
theorem encode_operands {row : OpcodeRow} (hrow : row ∈ opcodeMap) (w : Word) :
    encode (row.operands w) = row.pattern ||| (w &&& ~~~row.mask) := by
  fin_cases hrow <;>
    simp [encode, formatR_eq, formatM_operandsOf, or_and_eq_packWord, opcodeOf, rdOf, rs1Of, rs2Of, rs3Of, rd2Of, regBits_regAt,
      nibble_and_ones]

/-- The command that a row reads from a word it accepts encodes to that word (R75). -/
theorem encode_of_accepts {row : OpcodeRow} (hrow : row ∈ opcodeMap) {w : Word} (h : row.accepts w = true) :
    encode (row.operands w) = w := by
  calc encode (row.operands w) = row.pattern ||| (w &&& ~~~row.mask) := encode_operands hrow w
    _ = (w &&& row.mask) ||| (w &&& ~~~row.mask) := by rw [accepts_iff.mp h]
    _ = w := by rw [← BitVec.and_or_distrib_left, BitVec.or_not_self, BitVec.and_allOnes]

/-- A word that decodes is the encoding of its command (R75). -/
theorem encode_of_decode {w : Word} {i : Instr} (h : decode w = .ok i) : i.wellFormed = true ∧ encode i = w := by
  obtain ⟨row, hrow, ha, rfl, hwf⟩ := decode_eq_ok_iff.mp h
  exact ⟨hwf, encode_of_accepts hrow ha⟩

/-! ## Words that the decoder refuses -/

/-- The one command term that is not legal: QSOLVE3 with equal destinations (R76). -/
theorem wellFormed_eq_false_iff {i : Instr} :
    i.wellFormed = false ↔ ∃ rd rs1 rs2 rs3, i = .qsolve3 rd rd rs1 rs2 rs3 := by
  cases i with
  | qsolve3 rd rd2 rs1 rs2 rs3 => simpa [Instr.wellFormed] using eq_comm
  | _ => simp [Instr.wellFormed]

/-- The destinations that a QSOLVE3 word names (R71). -/
theorem destinations_encode_qsolve3 (rd rd2 rs1 rs2 rs3 : Reg) :
    rdOf (encode (.qsolve3 rd rd2 rs1 rs2 rs3)) = rd ∧ rd2Of (encode (.qsolve3 rd rd2 rs1 rs2 rs3)) = rd2 := by
  simp [encode, formatR_eq, rdOf, rd2Of]

/-- An accepted word whose command is not legal is a QSOLVE3 word that names one destination twice. -/
theorem qsolve3_of_not_wellFormed {row : OpcodeRow} (hrow : row ∈ opcodeMap) {w : Word} (h : row.accepts w = true)
    (hwf : ¬ (row.operands w).wellFormed = true) : (tableEntry row).1 = "QSOLVE3" ∧ rdOf w = rd2Of w := by
  obtain ⟨rd, rs1, rs2, rs3, hi⟩ := wellFormed_eq_false_iff.mp (Bool.eq_false_iff.mpr hwf)
  obtain ⟨hrd, hrd2⟩ := destinations_encode_qsolve3 rd rd rs1 rs2 rs3
  rw [← hi, encode_of_accepts hrow h] at hrd hrd2
  exact ⟨by rw [← mnemonicOf_operands hrow w, hi]; rfl, hrd.trans hrd2.symm⟩

/-- A QSOLVE3 word with equal destinations is refused (R76). -/
theorem decode_of_sameDestinations {w : Word} (h : w &&& 0xFF00000F = 0x71000000)
    (hd : w.extractLsb' 20 4 = w.extractLsb' 4 4) : decode w = .error .sameDestinations := by
  have hrow : opcodeMap[21] ∈ opcodeMap := List.getElem_mem _
  have hwf : (opcodeMap[21].operands w).wellFormed = false :=
    wellFormed_eq_false_iff.mpr ⟨rdOf w, rs1Of w, rs2Of w, rs3Of w, by
      show Instr.qsolve3 (rdOf w) (rd2Of w) _ _ _ = _
      rw [show rd2Of w = rdOf w from congrArg BitVec.toFin hd.symm]⟩
  rw [decode_of_accepts hrow (accepts_iff.mpr h), hwf, if_neg Bool.false_ne_true]

/-- A word that has a row's opcode byte and does not match the row is refused for its unused fields (R75). -/
theorem decode_of_nonzeroUnusedField {row : OpcodeRow} (hrow : row ∈ opcodeMap) {w : Word}
    (hop : opcodeOf w = opcodeOf row.pattern) (h : ¬ row.accepts w = true) : decode w = .error .nonzeroUnusedField := by
  have hno : ∀ row' ∈ opcodeMap, ¬ row'.accepts w = true := fun row' hrow' ha =>
    h (row_eq_of_opcodeOf_eq hrow hrow' (hop.symm.trans (opcodeOf_of_accepts hrow' ha)) ▸ ha)
  have hany : opcodeMap.any (fun row => opcodeOf row.pattern == opcodeOf w) = true :=
    List.any_eq_true.mpr ⟨row, hrow, beq_iff_eq.mpr hop.symm⟩
  rw [decode_of_no_row hno, if_pos hany]

/-- A word that is illegal by R76 does not decode. -/
theorem decode_error_of_illegalWord {w : Word} (h : illegalWord w) : ∃ x, decode w = .error x := by
  rcases h with hno | ⟨hm, hd⟩
  · have hrows : ∀ row ∈ opcodeMap, ¬ row.accepts w = true := fun row hrow ha =>
      hno _ (mem_opcodeTableR74.mpr ⟨row, hrow, rfl⟩) (accepts_iff.mp ha)
    rw [decode_of_no_row hrows]
    split <;> exact ⟨_, rfl⟩
  · exact ⟨_, decode_of_sameDestinations hm hd⟩

/-- A unit that is not faulted answers a word that does not decode with IllegalCommand (R76, R77). -/
theorem issue_of_decode_error {w : Word} {s : State} {x : DecodeError} (hf : s.flagFault = 0) (hd : decode w = .error x) :
    issue w s = .next (s.raise .illegalCommand w) := by
  simp [issue, hf, hd]

/-- Taking a fault writes FAULT, CAUSE and FCMD and nothing else (R204). -/
theorem tookFault_raise (s : State) (x : Cause) (w : Word) : tookFault x w s (s.raise x w) := by
  obtain ⟨hregs, hbuf, hport⟩ := raise_frame s x w
  exact ⟨raise_flagFault s x w, raise_fieldCause s x w, raise_fcmd s x w, raise_flagT s x w, raise_flagP s x w,
    raise_fieldN s x w, raise_statusRest s x w, hregs, hbuf, hport⟩

/-! ## Settled obligations -/

/-- Settles O9: a row's pattern with the operand bits of an accepted word is that word, so encoding undoes decoding. -/
theorem encodeOfDecodeIsTheWord : Obligations.EncodeOfDecodeIsTheWord := by
  refine ⟨fun w e he hop hne => ?_, fun w i => encode_of_decode, fun w w' i h h' => ?_⟩
  · obtain ⟨row, hrow, rfl⟩ := mem_opcodeTableR74.mp he
    exact decode_of_nonzeroUnusedField hrow hop (mt accepts_iff.mp hne)
  · obtain ⟨-, hw⟩ := encode_of_decode h
    obtain ⟨-, hw'⟩ := encode_of_decode h'
    exact hw.symm.trans hw'

/-- Settles O3: an illegal word does not decode, and `Issue` of such a word takes the fault and nothing more. -/
theorem illegalWordsRaiseIllegalCommand : Obligations.IllegalWordsRaiseIllegalCommand := by
  refine ⟨⟨.inl (by decide), .inl (by decide)⟩, fun s w rest hp hf hw => ?_⟩
  obtain ⟨x, hx⟩ := decode_error_of_illegalWord hw
  exact ⟨_, (step_cons hp).trans (issue_of_decode_error hf hx), tookFault_raise _ _ _⟩

/-- Settles O7: the decoder takes the row that accepts the word, and the opcode byte leaves no second one. -/
theorem decodeFollowsTheOpcodeMap : Obligations.DecodeFollowsTheOpcodeMap := by
  refine ⟨fun w i h => ?_, fun w e he h => ?_, fun w e he e' he' h h' => ?_⟩
  · obtain ⟨row, hrow, ha, rfl, -⟩ := decode_eq_ok_iff.mp h
    exact ⟨tableEntry row, mem_opcodeTableR74.mpr ⟨row, hrow, rfl⟩, (mnemonicOf_operands hrow w).symm, accepts_iff.mp ha⟩
  · obtain ⟨row, hrow, rfl⟩ := mem_opcodeTableR74.mp he
    have ha : row.accepts w = true := accepts_iff.mpr h
    by_cases hwf : (row.operands w).wellFormed = true
    · exact .inl ⟨_, decode_eq_ok_iff.mpr ⟨row, hrow, ha, rfl, hwf⟩, mnemonicOf_operands hrow w⟩
    · exact .inr ⟨by rw [decode_of_accepts hrow ha, if_neg hwf], qsolve3_of_not_wellFormed hrow ha hwf⟩
  · obtain ⟨row, hrow, rfl⟩ := mem_opcodeTableR74.mp he
    obtain ⟨row', hrow', rfl⟩ := mem_opcodeTableR74.mp he'
    rw [row_eq_of_accepts hrow hrow' (accepts_iff.mpr h) (accepts_iff.mpr h')]

end Sys2Proof.Machine
end

section
/-! SUPPORT. Representation and wire form: a command that writes one register or the flag P, the bits of an assembled wire form
and of a stored one, and the outcomes of SER and DESER. -/

namespace Sys2Proof.Machine

/-! ## Commands that write one register, or the flag P -/

/-- Writing a register changes nothing else. -/
theorem setReg_frame (s : State) (rd : Reg) (c : Container) : onlyReg rd s (s.setReg rd c) :=
  ⟨fun _ h => setReg_reg_ne _ _ _ h, ⟨rfl, rfl⟩, fun _ => rfl, rfl, rfl⟩

/-- The effect of a command that is one register write. -/
theorem onlyReg_of_exec {i : Instr} {s : State} {rd : Reg} {c : Container} (h : exec i s = .next (s.setReg rd c)) :
    ∃ t, exec i s = .next t ∧ t.reg rd = c ∧ onlyReg rd s t :=
  ⟨_, h, setReg_reg_same s rd c, setReg_frame s rd c⟩

/-- One is the container with bits 0 to 112 set (R9). -/
theorem containerOf_gfOne : containerOf gfOne = 0x1FFFFFFFFFFFFFFFFFFFFFFFFFFFF := by decide

/-- Writing P changes no other field of STATUS (R27). -/
theorem setP_statusButP (s : State) (b : Bool) : statusButP s (s.setP b) :=
  ⟨setP_flagT s b, setP_fieldN s b, setP_flagFault s b, setP_fieldCause s b, setP_statusRest s b, setP_fcmd s b⟩

/-- P after a comparison of two containers. -/
theorem setP_beq_flagP (s : State) (c d : Container) : (s.setP (c == d)).flagP = if c = d then 1 else 0 := by
  rw [setP_flagP]
  by_cases h : c = d
  · rw [if_pos h, beq_iff_eq.mpr h]
    rfl
  · rw [if_neg h, beq_eq_false_iff_ne.mpr h]
    rfl

/-- The effect of a command that writes to P whether two containers are equal. -/
theorem comparison_of_exec {i : Instr} {s : State} {c d : Container} (h : exec i s = .next (s.setP (c == d))) :
    ∃ t, exec i s = .next t ∧ t.flagP = (if c = d then 1 else 0) ∧ statusButP s t ∧ sameRegs s t ∧ sameBuf s t ∧
      samePort s t :=
  ⟨_, h, setP_beq_flagP s c d, setP_statusButP s _, fun _ => rfl, fun _ => rfl, rfl, rfl⟩

/-! ## Bits of containers and of wire forms -/

/-- A container is valid exactly when every bit from 113 up is zero (R20). -/
theorem isValid_iff_getLsbD (c : Container) : isValid c = true ↔ ∀ n, 113 ≤ n → c.getLsbD n = false := by
  constructor
  · intro h n hn
    rw [← containerOf_elementOf h, containerOf, BitVec.getLsbD_setWidth, BitVec.getLsbD_of_ge _ _ hn, Bool.and_false]
  · intro h
    refine beq_iff_eq.mpr (BitVec.eq_of_getLsbD_eq fun k _ => ?_)
    rw [BitVec.getLsbD_extractLsb', h _ (Nat.le_add_right 113 k), Bool.and_false]
    exact BitVec.getLsbD_zero.symm

/-- A valid container has its element's bits. -/
theorem getLsbD_elementOf {c : Container} (h : isValid c = true) (n : Nat) : (elementOf c).getLsbD n = c.getLsbD n := by
  by_cases hn : n < 113
  · simp [elementOf, hn, -BitVec.getLsbD_eq_getElem]
  · rw [(isValid_iff_getLsbD c).mp h n (by omega), BitVec.getLsbD_of_ge _ _ (by omega)]

/-- Bit `8j + k` of a valid container is bit `k` of byte `j` of its wire form (R52, R102). -/
theorem getLsbD_serialize {c : Container} (h : isValid c = true) {j k : Nat} (hj : j < 15) (hk : k < 8) :
    ((serialize (elementOf c)).getD j 0).getLsbD k = c.getLsbD (8 * j + k) := by
  have hbit : 8 * j + k < 120 := by omega
  rw [serialize, getD_bytesOfWire _ _ hj, BitVec.getLsbD_extractLsb', wireOf, BitVec.getLsbD_setWidth,
    getLsbD_elementOf h]
  simp only [hk, hbit, decide_true, Bool.true_and]

/-- Bit `8j + k` of the container assembled from a list of bytes is bit `k` of byte `j`, zero beyond the list (R103). -/
theorem getLsbD_assemble (bs : List Byte) {j k : Nat} (hk : k < 8) (hbit : 8 * j + k < 128) :
    (assemble bs).getLsbD (8 * j + k) = (bs.getD j 0).getLsbD k := by
  induction bs generalizing j with
  | nil => simp [assemble]
  | cons b bs ih =>
    have hcons : assemble (b :: bs) = (assemble bs <<< 8) ||| b.setWidth 128 := rfl
    rw [hcons, BitVec.getLsbD_or, BitVec.getLsbD_shiftLeft, BitVec.getLsbD_setWidth]
    cases j with
    | zero =>
      have hk128 : k < 128 := by omega
      simp [hk, hk128, -BitVec.getLsbD_eq_getElem]
    | succ j =>
      have hshift : 8 * (j + 1) + k - 8 = 8 * j + k := by omega
      have hb : b.getLsbD (8 * (j + 1) + k) = false := BitVec.getLsbD_of_ge _ _ (by omega)
      have hlow : ¬ 8 * (j + 1) + k < 8 := by omega
      rw [hshift, ih (by omega), hb]
      simp [hbit, hlow]

/-- Byte `j` of what MemRead returns (R53). -/
theorem getD_memRead (s : State) (a : Nat) {n j : Nat} (hj : j < n) : (s.memRead a n).getD j 0 = s.byte (a + j) := by
  simp [State.memRead, hj]

/-- Bits 0 to 119 of the container assembled from 15 bytes of the buffer. -/
theorem getLsbD_assemble_memRead (s : State) (a : Nat) {j k : Nat} (hj : j < 15) (hk : k < 8) :
    (assemble (s.memRead a wireBytes)).getLsbD (8 * j + k) = (s.byte (a + j)).getLsbD k := by
  rw [getLsbD_assemble _ hk (by omega), getD_memRead s a (show j < wireBytes from hj)]

/-- Bits from 120 up of the container assembled from 15 bytes of the buffer. -/
theorem getLsbD_assemble_memRead_of_ge (s : State) (a : Nat) {n : Nat} (hn : 120 ≤ n) :
    (assemble (s.memRead a wireBytes)).getLsbD n = false := by
  by_cases h : n < 128
  · obtain ⟨k, rfl⟩ : ∃ k, n = 8 * 15 + k := ⟨n - 120, by omega⟩
    have hbeyond : (s.memRead a wireBytes).getD 15 0 = 0 := List.getD_eq_default _ _ (length_memRead s a wireBytes).le
    rw [getLsbD_assemble _ (by omega) h, hbeyond]
    exact BitVec.getLsbD_zero
  · exact BitVec.getLsbD_of_ge _ _ (by omega)

/-- The upper seven bits of a byte are zero exactly when masking with 0xFE leaves nothing (R106). -/
theorem and_0xFE_eq_zero_iff (b : Byte) : b &&& 0xFE = 0 ↔ ∀ k, 1 ≤ k → k < 8 → b.getLsbD k = false := by
  have hmask : ∀ k < 8, (0xFE : Byte).getLsbD k = decide (1 ≤ k) := by decide
  constructor
  · intro h k h1 hk
    have hbit : (b &&& 0xFE).getLsbD k = false := by rw [h]; exact BitVec.getLsbD_zero
    simpa only [BitVec.getLsbD_and, hmask k hk, h1, decide_true, Bool.and_true] using hbit
  · intro h
    refine BitVec.eq_of_getLsbD_eq fun k hk => ?_
    rw [BitVec.getLsbD_and, hmask k hk, show (0 : Byte).getLsbD k = false from BitVec.getLsbD_zero]
    by_cases h1 : 1 ≤ k
    · rw [h k h1 hk, Bool.false_and]
    · rw [decide_eq_false h1, Bool.and_false]

/-- The container assembled from 15 bytes is valid exactly when the upper seven bits of the last byte are zero (R106). -/
theorem isValid_assemble_memRead_iff (s : State) (a : Nat) :
    isValid (assemble (s.memRead a wireBytes)) = true ↔ s.byte (a + 14) &&& 0xFE = 0 := by
  rw [isValid_iff_getLsbD, and_0xFE_eq_zero_iff]
  constructor
  · intro h k h1 hk
    rw [← getLsbD_assemble_memRead s a (by decide : 14 < 15) hk]
    exact h _ (by omega)
  · intro h n hn
    by_cases h120 : 120 ≤ n
    · exact getLsbD_assemble_memRead_of_ge s a h120
    · obtain ⟨k, rfl⟩ : ∃ k, n = 8 * 14 + k := ⟨n - 112, by omega⟩
      rw [getLsbD_assemble_memRead s a (by decide) (by omega)]
      exact h k (by omega) (by omega)

/-! ## What SER and DESER do, outcome by outcome -/

/-- A region is inside the buffer exactly when it ends at 256 or before (R56). -/
theorem insideBuffer_iff {addr len : Byte} : insideBuffer addr len = true ↔ addr.toNat + len.toNat ≤ 256 :=
  decide_eq_true_iff

/-- `Deserialize` of 15 bytes passes the length test and answers by the validity test (R103). -/
theorem deserialize_memRead (s : State) (a : Nat) :
    deserialize (s.memRead a wireBytes) =
      if s.byte (a + 14) &&& 0xFE = 0 then .ok (assemble (s.memRead a wireBytes)) else .error .invalidElement := by
  have hlen : ¬ (s.memRead a wireBytes).length ≠ wireBytes := by simp
  rw [deserialize, if_neg hlen, verifyContainer]
  by_cases h : s.byte (a + 14) &&& 0xFE = 0
  · rw [if_pos h, if_pos ((isValid_assemble_memRead_iff s a).mpr h)]
  · rw [if_neg h, if_neg (mt (isValid_assemble_memRead_iff s a).mp h)]

section Outcomes
variable {r : Reg} {addr len : Byte} {s : State}

theorem exec_ser_of_short (hlen : len.toNat < 15) :
    exec (.ser r addr len) s = .next (s.raise .bufferTooSmall (encode (.ser r addr len))) :=
  congrArg _ (if_pos hlen)

theorem exec_ser_of_outside (hlen : 15 ≤ len.toNat) (hout : 256 < addr.toNat + len.toNat) :
    exec (.ser r addr len) s = .next (s.raise .addressRange (encode (.ser r addr len))) := by
  have hin : ¬ insideBuffer addr len = true := mt insideBuffer_iff.mp (by omega)
  simp only [exec, execSer, if_neg (show ¬ len.toNat < wireBytes from Nat.not_lt.mpr hlen), if_neg hin]

/-- SER of a valid register inside the buffer is one MemWrite of its wire form (R105). -/
theorem exec_ser_of_inside (hlen : 15 ≤ len.toNat) (hin : addr.toNat + len.toNat ≤ 256) (hr : isValid (s.reg r) = true) :
    exec (.ser r addr len) s = .next (s.memWrite addr.toNat (serialize (elementOf (s.reg r)))) := by
  simp only [exec, execSer, if_neg (show ¬ len.toNat < wireBytes from Nat.not_lt.mpr hlen),
    if_pos (insideBuffer_iff.mpr hin), afterRead_of_valid hr, State.wireOfReg, element?_of_valid hr]

theorem exec_deser_of_wrong_length (hlen : len.toNat ≠ 15) :
    exec (.deser r addr len) s = .next (s.raise .lengthMismatch (encode (.deser r addr len))) :=
  congrArg _ (if_pos hlen)

theorem exec_deser_of_outside (hlen : len.toNat = 15) (hout : 256 < addr.toNat + 15) :
    exec (.deser r addr len) s = .next (s.raise .addressRange (encode (.deser r addr len))) := by
  have hin : ¬ insideBuffer addr len = true := mt insideBuffer_iff.mp (by omega)
  simp only [exec, execDeser, if_neg (not_not.mpr (show len.toNat = wireBytes from hlen)), if_neg hin]

/-- DESER inside the buffer does what `Deserialize` of the 15 bytes answers (R106). -/
theorem exec_deser_of_inside (hlen : len.toNat = 15) (hin : addr.toNat + 15 ≤ 256) :
    exec (.deser r addr len) s = .next (if s.byte (addr.toNat + 14) &&& 0xFE = 0
      then s.setReg r (assemble (s.memRead addr.toNat wireBytes))
      else s.raise .invalidElement (encode (.deser r addr len))) := by
  have hin' : insideBuffer addr len = true := insideBuffer_iff.mpr (hlen.symm ▸ hin)
  simp only [exec, execDeser, if_neg (not_not.mpr (show len.toNat = wireBytes from hlen)), if_pos hin',
    deserialize_memRead]
  by_cases h : s.byte (addr.toNat + 14) &&& 0xFE = 0
  · simp only [if_pos h]
  · simp only [if_neg h]

end Outcomes

/-- Storing 15 bytes changes these bytes of the buffer and nothing else (R55, R105). -/
theorem memWrite_serialize_frame (s : State) (a : Nat) (e : Element) :
    (∀ a', ¬ (a ≤ a' ∧ a' < a + 15) → (s.memWrite a (serialize e)).byte a' = s.byte a') ∧
      sameRegs s (s.memWrite a (serialize e)) ∧ sameStatus s (s.memWrite a (serialize e)) ∧
      samePort s (s.memWrite a (serialize e)) := by
  obtain ⟨hregs, hstatus, hfcmd, -, hpending, hreplies⟩ := memWrite_frame s a (serialize e)
  refine ⟨fun a' h => ?_, reg_congr hregs, ⟨hstatus, hfcmd⟩, hpending, hreplies⟩
  rw [memWrite_byte, if_neg (by rwa [serialize, length_bytesOfWire])]

/-- Byte `j` of the 15 stored ones is byte `j` of the wire form (R55, R105). -/
theorem memWrite_serialize_byte (s : State) (a : Nat) (e : Element) {j : Nat} (hj : j < 15) :
    (s.memWrite a (serialize e)).byte (a + j) = (serialize e).getD j 0 := by
  have hin : a ≤ a + j ∧ a + j < a + (serialize e).length := by
    rw [serialize, length_bytesOfWire, wireBytes]
    omega
  rw [memWrite_byte, if_pos hin, Nat.add_sub_cancel_left]

/-! ## Settled obligations -/

/-- Settles O14: past its two tests SER is one MemWrite of the 15 bytes of the wire form. -/
theorem serStoresTheWireFormOrFaults : Obligations.SerStoresTheWireFormOrFaults := by
  refine fun r addr len s => ⟨fun hlen => ⟨_, exec_ser_of_short hlen, tookFault_raise _ _ _⟩,
    fun hlen hout => ⟨_, exec_ser_of_outside hlen hout, tookFault_raise _ _ _⟩, fun hlen hin hr => ?_⟩
  have hvalid : isValid (s.reg r) = true := beq_iff_eq.mpr hr
  refine ⟨_, exec_ser_of_inside hlen hin hvalid, fun j hj k hk => ?_, memWrite_serialize_frame _ _ _⟩
  rw [memWrite_serialize_byte _ _ _ hj, getLsbD_serialize hvalid hj hk]

/-- Settles O15: past its first two tests DESER assembles the 15 bytes, and the last of them decides the third test. -/
theorem deserLoadsTheWireFormOrFaults : Obligations.DeserLoadsTheWireFormOrFaults := by
  refine fun r addr len s => ⟨fun hlen => ⟨_, exec_deser_of_wrong_length hlen, tookFault_raise _ _ _⟩,
    fun hlen hout => ⟨_, exec_deser_of_outside hlen hout, tookFault_raise _ _ _⟩, fun hlen hin hbad => ?_,
    fun hlen hin hgood => ?_⟩
  · exact ⟨_, (exec_deser_of_inside hlen hin).trans (congrArg _ (if_neg hbad)), tookFault_raise _ _ _⟩
  · obtain ⟨t, ht, hreg, hframe⟩ := onlyReg_of_exec ((exec_deser_of_inside hlen hin).trans (congrArg _ (if_pos hgood)))
    refine ⟨t, ht, fun j hj k hk => ?_, fun n hn => ?_, hframe⟩
    · rw [hreg, getLsbD_assemble_memRead s _ hj hk]
    · rw [hreg, getLsbD_assemble_memRead_of_ge s _ hn]

/-- Settles O11: both commands are one register write, of a constant. -/
theorem zeroAndOneWriteTheConstants : Obligations.ZeroAndOneWriteTheConstants := by
  intro rd s
  rw [← containerOf_zero, ← containerOf_gfOne]
  exact ⟨onlyReg_of_exec rfl, onlyReg_of_exec rfl⟩

/-- Settles O12: both commands are one register write, of the source's container. -/
theorem movAndNegCopyTheSource : Obligations.MovAndNegCopyTheSource :=
  fun _ _ _ => ⟨onlyReg_of_exec rfl, onlyReg_of_exec rfl⟩

/-- Settles O17: the three commands compare whole containers, the last two with the constants. -/
theorem comparisonsWriteP : Obligations.ComparisonsWriteP := by
  intro rs1 rs2 s
  rw [← containerOf_zero, ← containerOf_gfOne]
  exact ⟨comparison_of_exec rfl, comparison_of_exec rfl, comparison_of_exec rfl⟩

end Sys2Proof.Machine
end

section
/-! SUPPORT. The additive group: sums of valid containers as containers, and a command that writes a field function of valid
operands. -/

namespace Sys2Proof.Machine

/-! ## Sums of containers -/

/-- Widening to the container commutes with the sum, as both act bit by bit (R120). -/
theorem containerOf_gfAdd (a b : Element) : containerOf (gfAdd a b) = containerOf a ^^^ containerOf b :=
  BitVec.setWidth_xor

/-- The sum of two valid containers is their XOR on all 128 bits: the reserved ones are zero on both sides (R20, R120). -/
theorem containerOf_gfAdd_elementOf {c d : Container} (hc : isValid c = true) (hd : isValid d = true) :
    containerOf (gfAdd (elementOf c) (elementOf d)) = c ^^^ d := by
  rw [containerOf_gfAdd, containerOf_elementOf hc, containerOf_elementOf hd]

/-- Adding One complements bits 0 to 112 of a valid container and leaves the reserved bits zero (R123). -/
theorem containerOf_gfAddOne_elementOf {c : Container} (hc : isValid c = true) :
    containerOf (gfAddOne (elementOf c)) = c ^^^ 0x1FFFFFFFFFFFFFFFFFFFFFFFFFFFF := by
  calc containerOf (gfAddOne (elementOf c)) = containerOf (elementOf c) ^^^ containerOf gfOne := containerOf_gfAdd _ _
    _ = c ^^^ 0x1FFFFFFFFFFFFFFFFFFFFFFFFFFFF := by rw [containerOf_elementOf hc, containerOf_gfOne]

/-! ## Commands that write a field function of their sources -/

section Results
variable {i : Instr} {s : State} {rd r r1 r2 : Reg}

/-- The effect of a command that writes a field function of one valid source. -/
theorem onlyReg_of_exec_apply1 {f : Element → Element} (h : exec i s = .next (s.setResult rd (s.apply1 f r)))
    (hr : isValid (s.reg r) = true) :
    ∃ t, exec i s = .next t ∧ t.reg rd = containerOf (f (elementOf (s.reg r))) ∧ onlyReg rd s t := by
  rw [apply1_of_valid f hr] at h
  exact onlyReg_of_exec h

/-- The effect of a command that writes a field function of two valid sources. -/
theorem onlyReg_of_exec_apply2 {f : Element → Element → Element}
    (h : exec i s = .next (s.setResult rd (s.apply2 f r1 r2))) (hr1 : isValid (s.reg r1) = true)
    (hr2 : isValid (s.reg r2) = true) :
    ∃ t, exec i s = .next t ∧ t.reg rd = containerOf (f (elementOf (s.reg r1)) (elementOf (s.reg r2))) ∧
      onlyReg rd s t := by
  rw [apply2_of_valid f hr1 hr2] at h
  exact onlyReg_of_exec h

end Results

/-- SUB is ADD, whatever the registers hold: -1 = 1 in characteristic 2 (R121). -/
theorem exec_sub_eq_exec_add (rd rs1 rs2 : Reg) (s : State) : exec (.sub rd rs1 rs2) s = exec (.add rd rs1 rs2) s := rfl

/-- SUBONE is ADDONE, whatever the registers hold (R124). -/
theorem exec_subone_eq_exec_addone (rd rs1 : Reg) (s : State) : exec (.subone rd rs1) s = exec (.addone rd rs1) s := rfl

/-! ## Settled obligations -/

/-- Settles O18: ADD writes the sum, which on valid operands is the XOR of the containers, and SUB is ADD. -/
theorem addAndSubWriteTheXor : Obligations.AddAndSubWriteTheXor := by
  refine ⟨exec_sub_eq_exec_add, fun rd rs1 rs2 s h1 h2 => ?_⟩
  rw [exec_sub_eq_exec_add, ← containerOf_gfAdd_elementOf h1 h2]
  have hadd := onlyReg_of_exec_apply2 (i := .add rd rs1 rs2) rfl h1 h2
  exact ⟨hadd, hadd⟩

/-- Settles O19: ADDONE adds One, which on a valid operand complements bits 0 to 112, and SUBONE is ADDONE. -/
theorem addoneAndSuboneComplement : Obligations.AddoneAndSuboneComplement := by
  refine ⟨exec_subone_eq_exec_addone, fun rd rs1 s h => ?_⟩
  rw [exec_subone_eq_exec_addone, ← containerOf_gfAddOne_elementOf h]
  have haddone := onlyReg_of_exec_apply1 (i := .addone rd rs1) rfl h
  exact ⟨haddone, haddone⟩

end Sys2Proof.Machine
end

section
/-! SUPPORT. The Frobenius rotations: bits of an element's container, the two rotations as inverse maps of period 113, and what they
keep. -/

namespace Sys2Proof.Machine

/-- An element's container has the element's bits, and zeros above them (R20). -/
theorem getLsbD_containerOf (e : Element) (n : Nat) : (containerOf e).getLsbD n = e.getLsbD n := by
  rw [← getLsbD_elementOf (isValid_containerOf e), elementOf_containerOf]

/-! ## Inverse maps of period 113 -/

/-- The square root of a square (R134). -/
@[simp] theorem rotr113_rotl113 (a : Element) : rotr113 (rotl113 a) = a := by
  refine BitVec.eq_of_getLsbD_eq fun n hn => ?_
  rw [getLsbD_rotr113 _ _ hn]
  split
  · subst n
    rw [getLsbD_rotl113 _ _ (by decide), if_pos rfl]
  · rw [getLsbD_rotl113 _ _ (by omega), if_neg n.succ_ne_zero, Nat.add_sub_cancel]

/-- The square of a square root (R134). -/
@[simp] theorem rotl113_rotr113 (a : Element) : rotl113 (rotr113 a) = a := by
  refine BitVec.eq_of_getLsbD_eq fun n hn => ?_
  rw [getLsbD_rotl113 _ _ hn]
  split
  · subst n
    rw [getLsbD_rotr113 _ _ (by decide), if_pos rfl]
  · rw [getLsbD_rotr113 _ _ (by omega), if_neg (by omega), Nat.sub_add_cancel (by omega)]

/-- Undoing `k` left rotations by `k` right rotations. -/
theorem rotr113_iterate_rotl113_iterate (k : Nat) (a : Element) : rotr113^[k] (rotl113^[k] a) = a :=
  Function.LeftInverse.iterate rotr113_rotl113 k a

/-- 113 squarings are the identity, as the amount of a rotation counts mod 113 (R134). -/
theorem rotl113_iterate_period (a : Element) : rotl113^[113] a = a := by
  calc rotl113^[113] a = rotlBy 113 a := (rotlBy_eq_iterate 113 a).symm
    _ = rotlBy (113 % 113) a := BitVec.rotateLeft_mod_eq_rotateLeft.symm
    _ = a := rotlBy_zero_count a

/-- `k` left rotations are `113 - k` right ones: together they are the full turn (R134). -/
theorem rotl113_iterate_eq_rotr113_iterate {k : Nat} (hk : k ≤ 113) (a : Element) :
    rotl113^[k] a = rotr113^[113 - k] a := by
  have hturn : rotl113^[113 - k] (rotl113^[k] a) = a := by
    rw [← Function.iterate_add_apply, Nat.sub_add_cancel hk, rotl113_iterate_period]
  calc rotl113^[k] a = rotr113^[113 - k] (rotl113^[113 - k] (rotl113^[k] a)) :=
        (rotr113_iterate_rotl113_iterate _ _).symm
    _ = rotr113^[113 - k] a := by rw [hturn]

/-- 113 square roots are the identity (R134). -/
theorem rotr113_iterate_period (a : Element) : rotr113^[113] a = a :=
  (rotl113_iterate_eq_rotr113_iterate (Nat.zero_le 113) a).symm

/-- `k` left rotations take bit `j` to bit `(j + k) mod 113` (R134). -/
theorem getLsbD_rotl113_iterate (k : Nat) (a : Element) {j : Nat} (hj : j < 113) :
    (rotl113^[k] a).getLsbD ((j + k) % 113) = a.getLsbD j := by
  have hindex : ((j + k) % 113 + (113 - k % 113)) % 113 = j := by omega
  rw [← rotlBy_eq_iterate, getLsbD_rotlBy _ _ _ (Nat.mod_lt _ (by decide)), hindex]

/-! ## Linearity -/

/-- Squaring is linear: each output bit is one input bit (R134). -/
theorem rotl113_xor (a b : Element) : rotl113 (a ^^^ b) = rotl113 a ^^^ rotl113 b := by
  refine BitVec.eq_of_getLsbD_eq fun n hn => ?_
  rw [BitVec.getLsbD_xor, getLsbD_rotl113 _ _ hn, getLsbD_rotl113 _ _ hn, getLsbD_rotl113 _ _ hn]
  split <;> exact BitVec.getLsbD_xor

/-- So is its inverse, the square root (R134). -/
theorem rotr113_xor (a b : Element) : rotr113 (a ^^^ b) = rotr113 a ^^^ rotr113 b := by
  have hsquare : a ^^^ b = rotl113 (rotr113 a ^^^ rotr113 b) := by
    rw [rotl113_xor, rotl113_rotr113, rotl113_rotr113]
  rw [hsquare, rotr113_rotl113]

/-! ## The number of ones and the trace -/

/-- A left rotation moves the top bit to the front of the list of bits, so as many of them are 1 (R134). -/
theorem onesOf_rotl113 (a : Element) : onesOf (rotl113 a) = onesOf a := by
  have htop : (rotl113 a).getLsbD 0 = a.getLsbD 112 := getLsbD_rotl113 a 0 (by decide)
  have hrest : ∀ n ∈ List.range 112, (rotl113 a).getLsbD (n + 1) = a.getLsbD n := fun n hn => by
    rw [getLsbD_rotl113 _ _ (Nat.succ_lt_succ (List.mem_range.mp hn)), if_neg n.succ_ne_zero, Nat.succ_sub_one]
  calc onesOf (rotl113 a)
      = (List.range 112).countP (fun n => (rotl113 a).getLsbD (n + 1)) + if (rotl113 a).getLsbD 0 then 1 else 0 := by
        rw [onesOf, List.range_succ_eq_map, List.countP_cons, List.countP_map]
        rfl
    _ = (List.range 112).countP (fun n => a.getLsbD n) + if a.getLsbD 112 then 1 else 0 := by
        rw [htop, List.countP_congr fun n hn => by rw [hrest n hn]]
    _ = onesOf a := by rw [onesOf, List.range_succ (n := 112), List.countP_append, List.countP_singleton]

/-- A right rotation keeps the number of ones, as the left rotation that undoes it does (R134). -/
theorem onesOf_rotr113 (a : Element) : onesOf (rotr113 a) = onesOf a := by
  rw [← onesOf_rotl113 (rotr113 a), rotl113_rotr113]

/-- The parity of the low bits is that of the number of ones among them. -/
theorem parityBelow_eq_bodd (a : Element) (n : Nat) :
    parityBelow a n = ((List.range n).countP fun i => a.getLsbD i).bodd := by
  induction n with
  | zero => simp [parityBelow]
  | succ n ih =>
    rw [parityBelow, ih, List.range_succ, List.countP_append, List.countP_singleton, Nat.bodd_add]
    cases a.getLsbD n <;> rfl

/-- The trace is the parity of the number of ones (R170). -/
theorem gfTrace_eq_bodd_onesOf (a : Element) : gfTrace a = (onesOf a).bodd := parityBelow_eq_bodd a 113

theorem gfTrace_rotl113 (a : Element) : gfTrace (rotl113 a) = gfTrace a := by
  rw [gfTrace_eq_bodd_onesOf, onesOf_rotl113, ← gfTrace_eq_bodd_onesOf]

theorem gfTrace_rotr113 (a : Element) : gfTrace (rotr113 a) = gfTrace a := by
  rw [gfTrace_eq_bodd_onesOf, onesOf_rotr113, ← gfTrace_eq_bodd_onesOf]

/-! ## Settled obligations -/

/-- Settles O20: SQR writes the container of the left rotation, whose bits are the rotation's and zero above. -/
theorem sqrRotatesTheRingLeft : Obligations.SqrRotatesTheRingLeft := by
  intro rd rs1 s h
  obtain ⟨t, ht, hreg, hframe⟩ := onlyReg_of_exec_apply1 (i := .sqr rd rs1) (f := rotl113) rfl h
  refine ⟨t, ht, hframe, ?_, fun n h1 hn => ?_, (isValid_iff_getLsbD _).mp (hreg ▸ isValid_containerOf _)⟩
  · rw [hreg, getLsbD_containerOf, getLsbD_rotl113 _ _ (by decide), if_pos rfl, getLsbD_elementOf h]
  · rw [hreg, getLsbD_containerOf, getLsbD_rotl113 _ _ (by omega), if_neg (by omega), getLsbD_elementOf h]

/-- Settles O21: SQRT writes the container of the right rotation, whose bits are the rotation's and zero above. -/
theorem sqrtRotatesTheRingRight : Obligations.SqrtRotatesTheRingRight := by
  intro rd rs1 s h
  obtain ⟨t, ht, hreg, hframe⟩ := onlyReg_of_exec_apply1 (i := .sqrt rd rs1) (f := rotr113) rfl h
  refine ⟨t, ht, hframe, ?_, fun n hn => ?_, (isValid_iff_getLsbD _).mp (hreg ▸ isValid_containerOf _)⟩
  · rw [hreg, getLsbD_containerOf, getLsbD_rotr113 _ _ (by decide), if_pos rfl, getLsbD_elementOf h]
  · rw [hreg, getLsbD_containerOf, getLsbD_rotr113 _ _ (by omega), if_neg (by omega), getLsbD_elementOf h]

/-- Settles O22, law by law: the right rotation's laws follow from the left one's, whose inverse it is. -/
theorem rotationsAreInverseLinearAndOfOrder113 : Obligations.RotationsAreInverseLinearAndOfOrder113 :=
  fun a b => ⟨⟨isValid_containerOf _, isValid_containerOf _⟩, ⟨rotl113_rotr113 a, rotr113_rotl113 a⟩,
    ⟨rotl113_iterate_period a, rotr113_iterate_period a⟩, ⟨rotl113_xor a b, rotr113_xor a b⟩,
    fun k _ hj => getLsbD_rotl113_iterate k a hj, fun _ hk => rotl113_iterate_eq_rotr113_iterate hk a,
    ⟨onesOf_rotl113 a, onesOf_rotr113 a⟩, gfTrace_rotl113 a, gfTrace_rotr113 a⟩

end Sys2Proof.Machine
end

section
/-! SUPPORT. The trace unit: the number of ones of particular elements, and the flag T as a parity. -/

namespace Sys2Proof.Machine

/-! ## The number of ones of particular elements -/

theorem onesOf_gfZero : onesOf gfZero = 0 := by
  have hbit : ∀ n ∈ List.range 113, ¬ gfZero.getLsbD n = true := fun n _ => by
    rw [gfZero, BitVec.ofNat_eq_ofNat, BitVec.getLsbD_zero]
    exact Bool.false_ne_true
  rw [onesOf, List.countP_eq_zero.mpr hbit]

/-- One has every bit set (R9). -/
theorem onesOf_gfOne : onesOf gfOne = 113 := by
  have hbit : ∀ n ∈ List.range 113, gfOne.getLsbD n = true := fun n hn => by
    rw [gfOne, BitVec.getLsbD_allOnes, decide_eq_true (List.mem_range.mp hn)]
  rw [onesOf, List.countP_eq_length.mpr hbit, List.length_range]

/-- Of an element's 113 bits, basis vector `i` has bit `i` alone. -/
theorem getLsbD_basis (i : Nat) {n : Nat} (hn : n < 113) : (basis i).getLsbD n = (n == i) := by
  have hbasis : basis i = BitVec.ofNat 113 (2 ^ i) := by rw [basis, Nat.one_shiftLeft]; rfl
  rw [hbasis, BitVec.getLsbD_ofNat, decide_eq_true hn, Bool.true_and, Nat.testBit_two_pow]
  exact decide_eq_decide.mpr eq_comm

theorem onesOf_basis {i : Nat} (hi : i < 113) : onesOf (basis i) = 1 := by
  calc onesOf (basis i) = (List.range 113).count i :=
        List.countP_congr fun n hn => by rw [getLsbD_basis i (List.mem_range.mp hn)]
    _ = 1 := List.count_eq_one_of_mem List.nodup_range (List.mem_range.mpr hi)

/-! ## What TRACE does to T and leaves alone -/

/-- TRACE of a valid register is one write of T (R171). -/
theorem exec_trace_of_valid {rs1 : Reg} {s : State} (h : isValid (s.reg rs1) = true) :
    exec (.trace rs1) s = .next (s.setT (gfTrace (elementOf (s.reg rs1)))) := by
  simp only [exec, execTrace, afterRead_of_valid h, State.traceOfReg, element?_of_valid h]

/-- Writing T changes no other field of STATUS (R26). -/
theorem setT_statusButT (s : State) (b : Bool) : statusButT s (s.setT b) :=
  ⟨setT_flagP s b, setT_fieldN s b, setT_flagFault s b, setT_fieldCause s b, setT_statusRest s b, setT_fcmd s b⟩

/-- T after a trace is written is the number of ones mod 2 (R170). -/
theorem setT_gfTrace_flagT_eq_iff (s : State) (a : Element) {n : Nat} (hn : n < 2) :
    (s.setT (gfTrace a)).flagT = BitVec.ofNat 1 n ↔ onesOf a % 2 = n := by
  have htoNat : (BitVec.ofBool (gfTrace a)).toNat = onesOf a % 2 := by
    rw [BitVec.toNat_ofBool, gfTrace_eq_bodd_onesOf, Nat.mod_two_of_bodd]
  rw [setT_flagT, ← BitVec.toNat_inj, htoNat, BitVec.toNat_ofNat, Nat.mod_eq_of_lt (b := 2 ^ 1) hn]

/-! ## Settled obligations -/

/-- Settles O37: TRACE is one write of T, with the number of ones mod 2; Zero has no ones, One has 113 and a basis vector
has one. -/
theorem traceWritesTheParity : Obligations.TraceWritesTheParity := by
  intro rs1 s h
  have hodd := setT_gfTrace_flagT_eq_iff s (elementOf (s.reg rs1)) (n := 1) (by decide)
  have heven := setT_gfTrace_flagT_eq_iff s (elementOf (s.reg rs1)) (n := 0) (by decide)
  refine ⟨_, exec_trace_of_valid h, hodd, heven, fun hzero => heven.mpr ?_, fun hone => hodd.mpr ?_,
    fun i hi hbasis => hodd.mpr ?_, setT_statusButT s _, fun _ => rfl, fun _ => rfl, rfl, rfl⟩
  · rw [(elementOf_eq_zero_iff h).mpr hzero, onesOf_gfZero]
  · rw [hone, elementOf_containerOf, onesOf_gfOne]
  · rw [hbasis, elementOf_containerOf, onesOf_basis hi]

end Sys2Proof.Machine
end

section
/-! SUPPORT. The affine equation z² + z = β bit by bit (R182): the kernel of z ↦ z² + z, the trace as its obstruction, and the
solver's recurrence as a solution. -/

namespace Sys2Proof.Machine

/-- The trace is linear (R172). -/
theorem gfTrace_xor (a b : Element) : gfTrace (a ^^^ b) = (gfTrace a ^^ gfTrace b) := by
  have hbelow : ∀ n, parityBelow (a ^^^ b) n = (parityBelow a n ^^ parityBelow b n) := fun n => by
    induction n with
    | zero => rfl
    | succ n ih => simp only [parityBelow, ih, BitVec.getLsbD_xor, Bool.xor_assoc, Bool.xor_left_comm]
  exact hbelow 113

/-- Squaring keeps Zero and One alone: an element equal to its own rotation has all its bits equal (R130). -/
theorem rotl113_eq_self_iff {a : Element} : rotl113 a = a ↔ a = gfZero ∨ a = gfOne := by
  refine ⟨fun h => ?_, fun h => by rcases h with rfl | rfl <;> decide⟩
  have hbits : ∀ n < 113, a.getLsbD n = a.getLsbD 0 := fun n hn => by
    induction n with
    | zero => rfl
    | succ n ih =>
      calc a.getLsbD (n + 1) = (rotl113 a).getLsbD (n + 1) := by rw [h]
        _ = a.getLsbD n := by rw [getLsbD_rotl113 _ _ hn, if_neg n.succ_ne_zero, Nat.add_sub_cancel]
        _ = a.getLsbD 0 := ih (by omega)
  cases h0 : a.getLsbD 0 with
  | false =>
    refine .inl (BitVec.eq_of_getLsbD_eq fun n hn => ?_)
    rw [hbits n hn, h0, gfZero, BitVec.ofNat_eq_ofNat, BitVec.getLsbD_zero]
  | true =>
    refine .inr (BitVec.eq_of_getLsbD_eq fun n hn => ?_)
    rw [hbits n hn, h0, gfOne, BitVec.getLsbD_allOnes, decide_eq_true hn]

/-- A summand may change sides, as every element is its own negative (R122). -/
theorem xor_eq_iff_eq_xor {a b c : Element} : a ^^^ b = c ↔ a = b ^^^ c := by
  rw [← BitVec.xor_left_inj b, BitVec.xor_assoc, BitVec.xor_self, BitVec.xor_zero, BitVec.xor_comm c]

/-- The affine equation has no solution for a β of trace 1: squaring keeps the trace (R182). -/
theorem gfTrace_gfAdd_rotl113_self (z : Element) : gfTrace (gfAdd (rotl113 z) z) = false := by
  rw [gfAdd, gfTrace_xor, gfTrace_rotl113, Bool.xor_self]

/-- Bit `n` of the affine root is the parity of bits 1 … n of β, offset by QS_Z0 (R181). -/
theorem getLsbD_rootUpTo (z0 : Bool) (β : Element) {n : Nat} (hn : n < 113) :
    (rootUpTo z0 β 112).getLsbD n = (parityBelow β (n + 1) ^^ β.getLsbD 0 ^^ z0) := by
  induction n with
  | zero => rw [rootUpTo_zero, parityBelow, parityBelow, Bool.false_xor, Bool.xor_self, Bool.false_xor]
  | succ n ih =>
    have hparity : parityBelow β (n + 2) = (parityBelow β (n + 1) ^^ β.getLsbD (n + 1)) := rfl
    rw [rootUpTo_rec z0 β 112 n (by omega) (by decide), ih (by omega), hparity]
    simp only [Bool.xor_comm, Bool.xor_left_comm]

/-- For a β of trace 0 the recurrence closes up at bit 0, so the solver's element is a root (R182). -/
theorem gfAdd_rotl113_rootUpTo (z0 : Bool) {β : Element} (h : gfTrace β = false) :
    gfAdd (rotl113 (rootUpTo z0 β 112)) (rootUpTo z0 β 112) = β := by
  refine BitVec.eq_of_getLsbD_eq fun n hn => ?_
  rw [gfAdd, BitVec.getLsbD_xor, getLsbD_rotl113 _ _ hn]
  cases n with
  | zero =>
    have htop : (rootUpTo z0 β 112).getLsbD 112 = (gfTrace β ^^ β.getLsbD 0 ^^ z0) := getLsbD_rootUpTo z0 β (by decide)
    rw [if_pos rfl, rootUpTo_zero, htop, h, Bool.false_xor, Bool.xor_assoc, Bool.xor_self, Bool.xor_false]
  | succ n =>
    rw [if_neg n.succ_ne_zero, Nat.add_sub_cancel, rootUpTo_rec z0 β 112 n (by omega) (by decide), ← Bool.xor_assoc,
      Bool.xor_self, Bool.false_xor]

/-- Two solutions of one affine equation are equal or complementary: squaring keeps their sum (R182). -/
theorem gfAdd_rotl113_self_eq_iff (y z : Element) :
    gfAdd (rotl113 y) y = gfAdd (rotl113 z) z ↔ y = z ∨ y = z ^^^ gfOne := by
  have hsum : gfAdd (rotl113 y) y ^^^ gfAdd (rotl113 z) z = rotl113 (y ^^^ z) ^^^ (y ^^^ z) := by
    rw [gfAdd, gfAdd, rotl113_xor]
    ac_rfl
  calc gfAdd (rotl113 y) y = gfAdd (rotl113 z) z
      ↔ rotl113 (y ^^^ z) = y ^^^ z := by rw [← BitVec.xor_eq_zero_iff, hsum, BitVec.xor_eq_zero_iff]
    _ ↔ y ^^^ z = gfZero ∨ y ^^^ z = gfOne := rotl113_eq_self_iff
    _ ↔ y = z ∨ y = z ^^^ gfOne := or_congr BitVec.xor_eq_zero_iff xor_eq_iff_eq_xor

/-- The solver refuses exactly the β of trace 1 (R181). -/
theorem solveAffine_of_trace_one (z0 : Bool) {β : Element} (h : gfTrace β = true) : solveAffine z0 β = none := by
  rw [solveAffine, if_pos h]

theorem solveAffine_of_trace_zero (z0 : Bool) {β : Element} (h : gfTrace β = false) :
    solveAffine z0 β = some (rootUpTo z0 β 112) := by
  rw [solveAffine, h]; rfl

/-! ## Settled obligations -/

/-- Settles O40: the trace of z² + z is 0; for a β of trace 0 the recurrence gives one root, and any other differs from it by an
element that squaring keeps. -/
theorem affineEquationHasTwoRootsOrNone : Obligations.AffineEquationHasTwoRootsOrNone := by
  refine fun β => ⟨fun h1 => ⟨fun z0 => solveAffine_of_trace_one z0 h1, fun z hz => ?_⟩, fun h0 z0 =>
    ⟨_, solveAffine_of_trace_zero z0 h0, rootUpTo_zero z0 β 112, fun y => ?_⟩⟩
  · rw [← hz, gfTrace_gfAdd_rotl113_self] at h1
    exact absurd h1 Bool.false_ne_true
  · rw [← gfAdd_rotl113_self_eq_iff, gfAdd_rotl113_rootUpTo z0 h0]

end Sys2Proof.Machine
end

section
/-! SUPPORT. The product as R144 explains it: an element is a sum of the basis γ^(2^i) + γ^(-2^i), γ of order 227, in the group
algebra of the integers mod 227 over the field of two elements, and the table makes the product of elements the product there. -/

namespace Sys2Proof.Machine

open Finset AddMonoidAlgebra

/-! ## Powers of 2 modulo 227 (R144) -/

/-- Half a turn of the powers of 2 is the sign. -/
theorem two_pow_add_113 (i : Nat) : (2 : ZMod 227) ^ (i + 113) = -2 ^ i := by
  have hhalf : (2 : ZMod 227) ^ 113 = -1 := by decide +kernel
  rw [pow_add, hhalf, mul_neg_one]

/-- 2 is a primitive root modulo 227. -/
theorem orderOf_two : orderOf (2 : ZMod 227) = 226 := by
  refine orderOf_eq_of_pow_and_pow_div_prime (by decide) (by decide +kernel) fun p hp hdvd => ?_
  have hfactor : p = 2 ∨ p = 113 := by
    rw [show 226 = 2 * 113 from rfl, hp.dvd_mul] at hdvd
    exact hdvd.imp (Nat.prime_dvd_prime_iff_eq hp Nat.prime_two).mp
      (Nat.prime_dvd_prime_iff_eq hp (by norm_num)).mp
  rcases hfactor with rfl | rfl <;> decide +kernel

theorem two_pow_eq_two_pow_iff {i j : Nat} : (2 : ZMod 227) ^ i = 2 ^ j ↔ i % 226 = j % 226 := by
  have hfinite : IsOfFinOrder (2 : ZMod 227) := orderOf_pos_iff.mp (by rw [orderOf_two]; decide)
  rw [← orderOf_two]
  exact hfinite.pow_inj_mod

theorem two_pow_ne_zero (i : Nat) : (2 : ZMod 227) ^ i ≠ 0 := by
  have htwo : (2 : ZMod 227) ≠ 0 := by decide
  have : Fact (Nat.Prime 227) := ⟨by norm_num⟩
  exact pow_ne_zero i htwo

/-- Every index of the group algebra but 0 is a power of 2. -/
theorem eq_zero_or_eq_two_pow (x : ZMod 227) : x = 0 ∨ ∃ n, x = 2 ^ n := by
  have : Fact (Nat.Prime 227) := ⟨by norm_num⟩
  refine or_iff_not_imp_left.mpr fun hx => ?_
  have hroot : IsPrimitiveRoot (2 : ZMod 227) 226 := orderOf_two ▸ IsPrimitiveRoot.orderOf 2
  obtain ⟨n, -, hn⟩ := hroot.eq_pow_of_pow_eq_one (ZMod.pow_card_sub_one_eq_one hx)
  exact ⟨n, hn.symm⟩

/-! ## Bits, their index taken mod 113 (R143) -/

/-- Bit `n mod 113` of an element, as a number mod 2. -/
def bitAt (a : Element) (n : Nat) : ZMod 2 := if a.getLsbD (n % 113) then 1 else 0

theorem bitAt_periodic (a : Element) : Function.Periodic (bitAt a) 113 := fun n => by
  rw [bitAt, Nat.add_mod_right, bitAt]

theorem bitAt_xor (a b : Element) (n : Nat) : bitAt (a ^^^ b) n = bitAt a n + bitAt b n := by
  simp only [bitAt, BitVec.getLsbD_xor]
  cases a.getLsbD (n % 113) <;> cases b.getLsbD (n % 113) <;> decide

theorem bitAt_and (a b : Element) (n : Nat) : bitAt (a &&& b) n = bitAt a n * bitAt b n := by
  simp only [bitAt, BitVec.getLsbD_and]
  cases a.getLsbD (n % 113) <;> cases b.getLsbD (n % 113) <;> decide

theorem bitAt_rotlBy {k : Nat} (hk : k ≤ 113) (a : Element) (n : Nat) :
    bitAt (rotlBy k a) n = bitAt a (n + (113 - k)) := by
  have hindex : (n % 113 + (113 - k % 113)) % 113 = (n + (113 - k)) % 113 := by omega
  rw [bitAt, getLsbD_rotlBy _ _ _ (Nat.mod_lt _ (by decide)), hindex, bitAt]

theorem bitAt_rotrBy (k : Nat) (a : Element) (n : Nat) : bitAt (rotrBy k a) n = bitAt a (n + k) := by
  rw [bitAt, getLsbD_rotrBy _ _ _ (Nat.mod_lt _ (by decide)), Nat.mod_add_mod, bitAt]

theorem bitAt_rotl113_succ (a : Element) (n : Nat) : bitAt (rotl113 a) (n + 1) = bitAt a n := by
  calc bitAt (rotl113 a) (n + 1) = bitAt (rotlBy 1 a) (n + 1) := by rw [rotlBy_succ, rotlBy_zero_count]
    _ = bitAt a (n + 1 + (113 - 1)) := bitAt_rotlBy (by decide) a (n + 1)
    _ = bitAt a n := bitAt_periodic a n

theorem bitAt_gfOne (n : Nat) : bitAt gfOne n = 1 := by
  rw [bitAt, gfOne, BitVec.getLsbD_allOnes, decide_eq_true (Nat.mod_lt _ (by decide)), if_pos rfl]

/-- The bits determine the element. -/
theorem eq_of_bitAt_eq {a b : Element} (h : ∀ n, bitAt a n = bitAt b n) : a = b := by
  refine BitVec.eq_of_getLsbD_eq fun n hn => ?_
  have hbit := h n
  rw [bitAt, bitAt, Nat.mod_eq_of_lt hn] at hbit
  revert hbit
  cases a.getLsbD n <;> cases b.getLsbD n <;> decide

/-- A sum over one period may start anywhere. -/
theorem sum_range_add_of_periodic {M : Type} [AddCommMonoid M] {F : Nat → M} (hF : Function.Periodic F 113) (n : Nat) :
    ∑ i ∈ range 113, F (n + i) = ∑ i ∈ range 113, F i := by
  induction n with
  | zero => simp only [Nat.zero_add]
  | succ n ih =>
    calc ∑ i ∈ range 113, F (n + 1 + i) = ∑ i ∈ range 112, F (n + 1 + i) + F (n + 113) := sum_range_succ _ 112
      _ = ∑ i ∈ range 112, F (n + (i + 1)) + F (n + 0) := by simp only [hF n, Nat.add_right_comm n 1, Nat.add_zero]; rfl
      _ = ∑ i ∈ range 113, F i := by rw [← sum_range_succ' (fun i => F (n + i)), ih]

/-- Nor does it matter which way it runs. -/
theorem sum_range_add_sub_of_periodic {M : Type} [AddCommMonoid M] {F : Nat → M} (hF : Function.Periodic F 113) (n : Nat) :
    ∑ i ∈ range 113, F (n + (113 - i)) = ∑ i ∈ range 113, F i := by
  rw [← sum_range_add_of_periodic hF (n + 1), ← sum_range_reflect]
  refine sum_congr rfl fun i hi => congrArg F ?_
  have hlt := mem_range.mp hi
  omega

/-! ## The embedding -/

/-- The group algebra, the polynomials in γ modulo γ^227 - 1. -/
abbrev GroupAlgebra := AddMonoidAlgebra (ZMod 2) (ZMod 227)

/-- Basis vector `i` of R144: γ^(2^i) + γ^(-2^i). -/
noncomputable def basisSum (i : Nat) : GroupAlgebra := single (2 ^ i) 1 + single (2 ^ (i + 113)) 1

/-- The sum of the basis vectors whose bits are set. -/
noncomputable def embed (a : Element) : GroupAlgebra := ∑ i ∈ range 113, bitAt a i • basisSum i

theorem embed_gfAdd (a b : Element) : embed (gfAdd a b) = embed a + embed b := by
  simp only [embed, gfAdd, bitAt_xor, add_smul, sum_add_distrib]

theorem coeff_embed (a : Element) (x : ZMod 227) :
    (embed a).coeff x =
      ∑ i ∈ range 113, bitAt a i * ((if 2 ^ i = x then 1 else 0) + if 2 ^ (i + 113) = x then 1 else 0) := by
  simp [embed, basisSum, Finsupp.single_apply, mul_add]

theorem coeff_embed_zero (a : Element) : (embed a).coeff 0 = 0 := by
  rw [coeff_embed]
  exact sum_eq_zero fun i _ => by rw [if_neg (two_pow_ne_zero _), if_neg (two_pow_ne_zero _), add_zero, mul_zero]

/-- The coefficient of γ^(2^n) is bit `n`. -/
theorem coeff_embed_two_pow (a : Element) (n : Nat) : (embed a).coeff (2 ^ n) = bitAt a n := by
  have hterm : ∀ i ∈ range 113, bitAt a i * ((if (2 : ZMod 227) ^ i = 2 ^ n then 1 else 0) +
      if (2 : ZMod 227) ^ (i + 113) = 2 ^ n then 1 else 0) = if i = n % 113 then bitAt a i else 0 := fun i hi => by
    have hi := mem_range.mp hi
    have hcases : (i % 226 = n % 226 ∧ (i + 113) % 226 ≠ n % 226 ∧ i = n % 113) ∨
        (i % 226 ≠ n % 226 ∧ (i + 113) % 226 = n % 226 ∧ i = n % 113) ∨
        (i % 226 ≠ n % 226 ∧ (i + 113) % 226 ≠ n % 226 ∧ i ≠ n % 113) := by omega
    simp only [two_pow_eq_two_pow_iff]
    rcases hcases with ⟨h1, h2, h3⟩ | ⟨h1, h2, h3⟩ | ⟨h1, h2, h3⟩
    · rw [if_pos h1, if_neg h2, if_pos h3, add_zero, mul_one]
    · rw [if_neg h1, if_pos h2, if_pos h3, zero_add, mul_one]
    · rw [if_neg h1, if_neg h2, if_neg h3, add_zero, mul_zero]
  rw [coeff_embed, sum_congr rfl hterm, sum_ite_eq', if_pos (mem_range.mpr (Nat.mod_lt _ (by decide)))]
  exact (bitAt_periodic a).map_mod_nat n

/-- The coefficients of γ^0 and of the powers γ^(2^n) are all there are. -/
theorem groupAlgebra_ext {f g : GroupAlgebra} (h0 : f.coeff 0 = g.coeff 0) (hpow : ∀ n, f.coeff (2 ^ n) = g.coeff (2 ^ n)) :
    f = g := by
  ext x
  obtain rfl | ⟨n, rfl⟩ := eq_zero_or_eq_two_pow x
  · exact h0
  · exact hpow n

theorem embed_injective : Function.Injective embed := fun a b h =>
  eq_of_bitAt_eq fun n => by rw [← coeff_embed_two_pow, h, coeff_embed_two_pow]

/-- What `γ^(2^j) + γ^(-2^j)` as a factor makes of `f` at `x`. -/
def shiftedSum (f : GroupAlgebra) (x : ZMod 227) (j : Nat) : ZMod 2 := f.coeff (x + 2 ^ j) + f.coeff (x + 2 ^ (j + 113))

theorem shiftedSum_periodic (f : GroupAlgebra) (x : ZMod 227) : Function.Periodic (shiftedSum f x) 113 := fun j => by
  rw [shiftedSum, two_pow_add_113 (j + 113), two_pow_add_113, neg_neg, add_comm, shiftedSum, two_pow_add_113]

theorem coeff_embed_mul (a : Element) (f : GroupAlgebra) (x : ZMod 227) :
    (embed a * f).coeff x = ∑ j ∈ range 113, bitAt a j * shiftedSum f x j := by
  rw [embed, sum_mul, coeff_sum, Finsupp.finsetSum_apply]
  refine sum_congr rfl fun j _ => ?_
  simp [basisSum, add_mul, shiftedSum, two_pow_add_113, add_comm, ← mul_add]

/-! ## The table -/

/-- Index `t` is the one that `1 + 2^k` gives: `1 + 2^k ≡ ±2^t` (mod 227). -/
def isLogOfOneAdd (k t : Nat) : Bool := (1 + 2 ^ k) % 227 == 2 ^ t % 227 || (1 + 2 ^ k) % 227 == 2 ^ (t + 113) % 227

/-- Row `i` holds the indices of `1 + 2^(-i)` and of `1 - 2^(-i)`, up to sign (R144). -/
def rowFits (i : Nat) (row : Nat × Nat) : Bool :=
  (isLogOfOneAdd (113 - i) row.1 && isLogOfOneAdd (226 - i) row.2) ||
    (isLogOfOneAdd (113 - i) row.2 && isLogOfOneAdd (226 - i) row.1)

/-- Rows `i`, `i + 1`, … all do. -/
def rowsFit : Nat → List (Nat × Nat) → Bool
  | _, [] => true
  | i, row :: rows => rowFits i row && rowsFit (i + 1) rows

theorem rowsFit_multab : rowsFit 1 Config.multab.rows = true := by decide +kernel

theorem length_rows_multab : Config.multab.rows.length = 112 := by decide +kernel

theorem coeff_embed_add_of_isLog {k t : Nat} (h : isLogOfOneAdd k t = true) (b : Element) (n : Nat) :
    (embed b).coeff (2 ^ n + 2 ^ (n + k)) = bitAt b (n + t) := by
  have hcast : ∀ m, (1 + 2 ^ k) % 227 = 2 ^ m % 227 → (2 : ZMod 227) ^ n + 2 ^ (n + k) = 2 ^ (n + m) := fun m hm => by
    have hlog : (1 + 2 ^ k : ZMod 227) = 2 ^ m := by exact_mod_cast (ZMod.natCast_eq_natCast_iff' _ _ _).mpr hm
    rw [pow_add, pow_add, ← hlog]
    ring
  simp only [isLogOfOneAdd, Bool.or_eq_true, beq_iff_eq] at h
  rcases h with h | h
  · rw [hcast t h, coeff_embed_two_pow]
  · rw [hcast _ h, coeff_embed_two_pow, ← Nat.add_assoc, bitAt_periodic]

/-- The two entries of a row that fits pick the bits of `b` that its term of the product needs. -/
theorem bitAt_add_bitAt_of_rowFits {i : Nat} {row : Nat × Nat} (hi : i ≤ 113) (h : rowFits i row = true) (b : Element)
    (n : Nat) : bitAt b (n + row.1) + bitAt b (n + row.2) = shiftedSum (embed b) (2 ^ n) (n + (113 - i)) := by
  have hsum : ∀ t u, isLogOfOneAdd (113 - i) t = true → isLogOfOneAdd (226 - i) u = true →
      shiftedSum (embed b) (2 ^ n) (n + (113 - i)) = bitAt b (n + t) + bitAt b (n + u) := fun t u ht hu => by
    have hexp : n + (113 - i) + 113 = n + (226 - i) := by omega
    rw [shiftedSum, hexp, coeff_embed_add_of_isLog ht, coeff_embed_add_of_isLog hu]
  simp only [rowFits, Bool.or_eq_true, Bool.and_eq_true] at h
  rcases h with ⟨ht, hu⟩ | ⟨ht, hu⟩
  · exact (hsum _ _ ht hu).symm
  · rw [hsum _ _ ht hu, add_comm]

/-- The terms of R141 from row `i` on, bit by bit. -/
theorem bitAt_mulTerms (a b : Element) (n : Nat) (rows : List (Nat × Nat)) (i : Nat) (hi : i + rows.length ≤ 113)
    (h : rowsFit i rows = true) :
    bitAt (mulTerms a b i rows) n =
      ∑ m ∈ range rows.length, bitAt a (n + (113 - (i + m))) * shiftedSum (embed b) (2 ^ n) (n + (113 - (i + m))) := by
  induction rows generalizing i with
  | nil => simp [mulTerms, bitAt]
  | cons row rows ih =>
    rw [List.length_cons] at hi
    obtain ⟨hrow, hrows⟩ := Bool.and_eq_true_iff.mp h
    rw [mulTerms, bitAt_xor, bitAt_and, bitAt_xor, bitAt_rotlBy (by omega), bitAt_rotrBy, bitAt_rotrBy,
      bitAt_add_bitAt_of_rowFits (by omega) hrow, ih (i + 1) (by omega) hrows, List.length_cons, sum_range_succ', add_comm]
    simp only [Nat.add_zero, Nat.add_right_comm i 1, Nat.add_assoc]

/-- The product of R141, bit by bit: row `i` gives the term of bit `n - i` of `a` (R143). -/
theorem bitAt_gfMul (a b : Element) (n : Nat) :
    bitAt (gfMul Config.multab a b) n =
      ∑ i ∈ range 113, bitAt a (n + (113 - i)) * shiftedSum (embed b) (2 ^ n) (n + (113 - i)) := by
  have hfirst : bitAt (a &&& rotrBy Config.multab.first b) n = bitAt a (n + 113) * shiftedSum (embed b) (2 ^ n) (n + 113) := by
    have hfits : isLogOfOneAdd 226 Config.multab.first = true := by decide +kernel
    rw [bitAt_and, bitAt_rotrBy, shiftedSum, two_pow_add_113, add_neg_cancel, coeff_embed_zero, zero_add, Nat.add_assoc,
      coeff_embed_add_of_isLog hfits, bitAt_periodic]
  rw [gfMul, bitAt_xor, hfirst, bitAt_mulTerms a b n _ 1 (by rw [length_rows_multab]) rowsFit_multab, length_rows_multab,
    sum_range_succ' _ 112, add_comm]
  simp only [Nat.add_comm 1, Nat.sub_zero]

/-- The table's product is the product of the group algebra (R144). -/
theorem embed_gfMul (a b : Element) : embed (gfMul Config.multab a b) = embed a * embed b := by
  refine groupAlgebra_ext ?_ fun n => ?_
  · have hzero : ∀ j, shiftedSum (embed b) 0 j = 0 := fun j => by
      rw [shiftedSum, zero_add, zero_add, coeff_embed_two_pow, coeff_embed_two_pow, bitAt_periodic, CharTwo.add_self_eq_zero]
    rw [coeff_embed_zero, coeff_embed_mul, sum_eq_zero fun j _ => by rw [hzero, mul_zero]]
  · have hperiodic := (bitAt_periodic a).mul (shiftedSum_periodic (embed b) (2 ^ n))
    rw [coeff_embed_two_pow, coeff_embed_mul, bitAt_gfMul]
    exact sum_range_add_sub_of_periodic hperiodic n

/-! ## Squares and One -/

theorem basisSum_periodic : Function.Periodic basisSum 113 := fun i => by
  rw [basisSum, two_pow_add_113 (i + 113), two_pow_add_113, neg_neg, add_comm, basisSum, two_pow_add_113]

/-- Squaring is the rotation: it takes each basis vector to the next one (R130, R144). -/
theorem embed_rotl113 (a : Element) : embed (rotl113 a) = embed a ^ 2 := by
  have : CharP GroupAlgebra 2 := charP_of_injective_algebraMap (algebraMap (ZMod 2) GroupAlgebra).injective 2
  have hbasis : ∀ i, basisSum i ^ 2 = basisSum (i + 1) := fun i => by
    simp only [basisSum, CharTwo.add_sq, single_pow, one_pow, two_nsmul, ← mul_two, ← pow_succ, Nat.add_right_comm i 1]
  have hperiodic : Function.Periodic (fun i => bitAt (rotl113 a) i • basisSum i) 113 := fun i => by
    simp only [bitAt_periodic _ i, basisSum_periodic i]
  calc embed (rotl113 a) = ∑ i ∈ range 113, bitAt (rotl113 a) (1 + i) • basisSum (1 + i) :=
        (sum_range_add_of_periodic hperiodic 1).symm
    _ = ∑ i ∈ range 113, (bitAt a i • basisSum i) ^ 2 := by
        simp only [smul_pow, hbasis, ZMod.pow_card, Nat.add_comm 1, bitAt_rotl113_succ]
    _ = embed a ^ 2 := (CharTwo.sum_sq _ _).symm

/-- One is the sum of all powers of γ but the zeroth, which is an identity for the embedded elements: the sum of all powers is
killed by γ^u + γ^v. -/
theorem embed_mul_embed_gfOne (a : Element) : embed a * embed gfOne = embed a := by
  have hone : ∀ x, (embed gfOne).coeff x = if x = 0 then 0 else 1 := fun x => by
    obtain rfl | ⟨n, rfl⟩ := eq_zero_or_eq_two_pow x
    · rw [coeff_embed_zero, if_pos rfl]
    · rw [coeff_embed_two_pow, bitAt_gfOne, if_neg (two_pow_ne_zero n)]
  ext x
  rw [coeff_embed_mul, coeff_embed]
  refine sum_congr rfl fun j _ => congrArg _ ?_
  have hplus : x + 2 ^ j = 0 ↔ -2 ^ j = x := by rw [← eq_neg_iff_add_eq_zero, eq_comm]
  have hminus : x + -2 ^ j = 0 ↔ 2 ^ j = x := by rw [← sub_eq_add_neg, sub_eq_zero, eq_comm]
  simp only [shiftedSum, hone, two_pow_add_113, hplus, hminus]
  split_ifs <;> decide

end Sys2Proof.Machine
end

section
/-! SUPPORT. The elements are a field (R147, R163): the laws of the product, read off the group algebra, and the inversion chain as
the inverse. -/

namespace Sys2Proof.Machine

/-! ## The laws of the product (R147) -/

theorem gfMul_comm (a b : Element) : gfMul Config.multab a b = gfMul Config.multab b a :=
  embed_injective (by rw [embed_gfMul, embed_gfMul, mul_comm])

theorem gfMul_assoc (a b c : Element) :
    gfMul Config.multab (gfMul Config.multab a b) c = gfMul Config.multab a (gfMul Config.multab b c) :=
  embed_injective (by rw [embed_gfMul, embed_gfMul, embed_gfMul, embed_gfMul, mul_assoc])

theorem gfMul_gfAdd (a b c : Element) :
    gfMul Config.multab a (gfAdd b c) = gfAdd (gfMul Config.multab a b) (gfMul Config.multab a c) :=
  embed_injective (by rw [embed_gfMul, embed_gfAdd, embed_gfAdd, embed_gfMul, embed_gfMul, mul_add])

theorem gfAdd_gfMul (a b c : Element) :
    gfMul Config.multab (gfAdd a b) c = gfAdd (gfMul Config.multab a c) (gfMul Config.multab b c) := by
  rw [gfMul_comm, gfMul_gfAdd, gfMul_comm c, gfMul_comm c]

theorem gfMul_gfZero (a : Element) : gfMul Config.multab a gfZero = gfZero := by
  have hzero : gfAdd gfZero gfZero = gfZero := BitVec.xor_self
  calc gfMul Config.multab a gfZero = gfMul Config.multab a (gfAdd gfZero gfZero) := by rw [hzero]
    _ = gfAdd (gfMul Config.multab a gfZero) (gfMul Config.multab a gfZero) := gfMul_gfAdd a gfZero gfZero
    _ = gfZero := BitVec.xor_self

theorem gfZero_gfMul (a : Element) : gfMul Config.multab gfZero a = gfZero := by rw [gfMul_comm, gfMul_gfZero]

theorem gfMul_gfOne (a : Element) : gfMul Config.multab a gfOne = a :=
  embed_injective (by rw [embed_gfMul, embed_mul_embed_gfOne])

theorem gfOne_gfMul (a : Element) : gfMul Config.multab gfOne a = a := by rw [gfMul_comm, gfMul_gfOne]

/-- The product of an element with itself is its square, the rotation. -/
theorem gfMul_self (a : Element) : gfMul Config.multab a a = rotl113 a :=
  embed_injective (by rw [embed_gfMul, embed_rotl113, pow_two])

/-! ## The inversion chain (R160, R163) -/

theorem embed_rotlBy (k : Nat) (a : Element) : embed (rotlBy k a) = embed a ^ 2 ^ k := by
  induction k with
  | zero => rw [rotlBy_zero_count, pow_zero, pow_one]
  | succ k ih => rw [rotlBy_succ, embed_rotl113, ih, ← pow_mul, ← pow_succ]

/-- The chain's loop invariant `eta = a^(2^k - 1)` (R163), without the subtraction: `eta · a = a^(2^k)`. -/
def ChainHolds (a : Element) (s : Element × Nat) : Prop := embed s.1 * embed a = embed a ^ 2 ^ s.2

theorem chainStep_keeps_chainHolds {a : Element} {s : Element × Nat} (h : ChainHolds a s) (bit : Bool) :
    ChainHolds a (chainStep Config.multab a s bit) := by
  have hdouble : embed (gfMul Config.multab (rotlBy s.2 s.1) s.1) * embed a = embed a ^ 2 ^ (2 * s.2) := by
    calc embed (gfMul Config.multab (rotlBy s.2 s.1) s.1) * embed a
        = embed s.1 ^ 2 ^ s.2 * (embed s.1 * embed a) := by rw [embed_gfMul, embed_rotlBy, mul_assoc]
      _ = embed s.1 ^ 2 ^ s.2 * embed a ^ 2 ^ s.2 := by rw [h]
      _ = (embed s.1 * embed a) ^ 2 ^ s.2 := (mul_pow _ _ _).symm
      _ = embed a ^ 2 ^ (2 * s.2) := by rw [h, ← pow_mul, ← pow_add, two_mul]
  cases bit with
  | false => exact hdouble
  | true =>
    calc embed (gfMul Config.multab (rotl113 (gfMul Config.multab (rotlBy s.2 s.1) s.1)) a) * embed a
        = (embed (gfMul Config.multab (rotlBy s.2 s.1) s.1) * embed a) ^ 2 := by
          rw [embed_gfMul, embed_rotl113, mul_assoc, ← pow_two, mul_pow]
      _ = embed a ^ 2 ^ (2 * s.2 + 1) := by rw [hdouble, ← pow_mul, ← pow_succ]

theorem foldl_chainStep_chainHolds {a : Element} (bits : List Bool) {s : Element × Nat} (h : ChainHolds a s) :
    ChainHolds a (bits.foldl (chainStep Config.multab a) s) := by
  induction bits generalizing s with
  | nil => exact h
  | cons bit bits ih => exact ih (chainStep_keeps_chainHolds h bit)

/-- The chain's output times `a` is an identity for `a`: it is `a^(2^113 - 1)`. -/
theorem gfMul_gfMul_chainInv_self (a : Element) :
    gfMul Config.multab (gfMul Config.multab (chainInv Config.multab a) a) a = a := by
  have hstart : ChainHolds a (a, 1) := (pow_two (embed a)).symm
  have hend := foldl_chainStep_chainHolds chainBits hstart
  refine embed_injective ?_
  calc embed (gfMul Config.multab (gfMul Config.multab (chainInv Config.multab a) a) a)
      = (embed (chainBits.foldl (chainStep Config.multab a) (a, 1)).1 * embed a) ^ 2 := by
        rw [embed_gfMul, embed_gfMul, chainInv, embed_rotl113, mul_assoc, ← pow_two, mul_pow]
    _ = embed (rotlBy 113 a) := by rw [hend, ← pow_mul, ← pow_succ, embed_rotlBy]; rfl
    _ = embed a := by rw [rotlBy_eq_iterate, rotl113_iterate_period]

/-- The inverse of a non-zero element: `a · Inv(a)` is kept by squaring, and it is not Zero as it is an identity for `a`. -/
theorem gfMul_chainInv {a : Element} (ha : a ≠ gfZero) : gfMul Config.multab a (chainInv Config.multab a) = gfOne := by
  rw [gfMul_comm]
  generalize hi : chainInv Config.multab a = i
  have hself := gfMul_gfMul_chainInv_self a
  rw [hi] at hself
  have hsquare : rotl113 (gfMul Config.multab i a) = gfMul Config.multab i a := by
    rw [← gfMul_self, gfMul_assoc, gfMul_comm a, hself]
  refine (rotl113_eq_self_iff.mp hsquare).resolve_left fun hzero => ha ?_
  rw [← hself, hzero, gfMul_comm, gfMul_gfZero]

theorem gfZero_ne_gfOne : gfZero ≠ gfOne := by decide

/-- Of Zero the chain makes Zero. -/
theorem chainInv_gfZero : chainInv Config.multab gfZero = gfZero := by decide +kernel

/-! ## The field -/

/-- The elements under the name of a type that has no arithmetic of its own: as bit vectors they add and multiply as numbers. -/
def Gf : Type := Element

/-- The field of 2^113 elements: XOR as the sum, the table's product, the inversion chain as the inverse. -/
@[reducible] def gfField : Field Gf where
  add := gfAdd
  zero := gfZero
  neg := id
  sub := gfSub
  sub_eq_add_neg _ _ := rfl
  mul := gfMul Config.multab
  one := gfOne
  inv := chainInv Config.multab
  add_assoc := BitVec.xor_assoc
  add_comm := BitVec.xor_comm
  zero_add _ := BitVec.zero_xor
  add_zero _ := BitVec.xor_zero
  neg_add_cancel _ := BitVec.xor_self
  mul_assoc := gfMul_assoc
  mul_comm := gfMul_comm
  left_distrib := gfMul_gfAdd
  right_distrib := gfAdd_gfMul
  zero_mul := gfZero_gfMul
  mul_zero := gfMul_gfZero
  one_mul := gfOne_gfMul
  mul_one := gfMul_gfOne
  exists_pair_ne := ⟨gfZero, gfOne, gfZero_ne_gfOne⟩
  mul_inv_cancel _ := gfMul_chainInv
  inv_zero := chainInv_gfZero
  nsmul := @nsmulRec Gf ⟨gfZero⟩ ⟨gfAdd⟩
  zsmul := @zsmulRec Gf ⟨gfZero⟩ ⟨gfAdd⟩ ⟨id⟩ (@nsmulRec Gf ⟨gfZero⟩ ⟨gfAdd⟩)
  nnqsmul := _
  qsmul := _

end Sys2Proof.Machine
end

section
/-! SUPPORT. The general quadratic equation (R185 to R188): its substitution to the affine one, as a fact about fields, the outcomes
of the general solver, and what QSOLVE3 does with them. -/

namespace Sys2Proof.Machine

/-! ## The substitution y = A·x/B in any field (R185) -/

section Substitution
variable {K : Type} [Field K] {a b : K}

/-- A·x = C has the one solution C/A. -/
theorem mul_eq_iff_eq_mul_inv (ha : a ≠ 0) (c x : K) : a * x = c ↔ x = c * a⁻¹ := by
  rw [eq_mul_inv_iff_mul_eq₀ ha, mul_comm]

/-- A·x² + B·x + C = 0 is y² + y + A·C/B² = 0 for y = A·x/B: the two sides differ by the factor A/B². -/
theorem quadratic_eq_zero_iff (ha : a ≠ 0) (hb : b ≠ 0) (c x : K) :
    a * (x * x) + b * x + c = 0 ↔ a * x * b⁻¹ * (a * x * b⁻¹) + a * x * b⁻¹ + a * c * (b * b)⁻¹ = 0 := by
  have hscale : a * x * b⁻¹ * (a * x * b⁻¹) + a * x * b⁻¹ + a * c * (b * b)⁻¹ =
      a * (b * b)⁻¹ * (a * (x * x) + b * x + c) := by
    field_simp
  rw [hscale, mul_eq_zero_iff_left (mul_ne_zero ha (inv_ne_zero (mul_ne_zero hb hb)))]

/-- The substitution is undone by x = B·y/A. -/
theorem mul_mul_inv_eq_iff (ha : a ≠ 0) (hb : b ≠ 0) (x y : K) : a * x * b⁻¹ = y ↔ x = b * y * a⁻¹ := by
  rw [mul_inv_eq_iff_eq_mul₀ hb, eq_mul_inv_iff_mul_eq₀ ha, mul_comm a, mul_comm b]

/-- In characteristic 2 the roots from z and z + 1 differ by B/A. -/
theorem mul_add_mul_add_one (htwo : ∀ x : K, x + x = 0) (z : K) :
    b * z * a⁻¹ + b * (z + 1) * a⁻¹ = b * a⁻¹ := by
  linear_combination htwo (b * z * a⁻¹)

/-- They are different (R188). -/
theorem mul_mul_inv_ne (ha : a ≠ 0) (hb : b ≠ 0) (z : K) : b * z * a⁻¹ ≠ b * (z + 1) * a⁻¹ := fun h =>
  one_ne_zero (left_eq_add.mp (mul_left_cancel₀ hb (mul_right_cancel₀ (inv_ne_zero ha) h)))

end Substitution

/-! ## The same for elements -/

section Elements
variable {a b : Element}

/-- The one solution of A·x = C is C/A (R163). -/
theorem gfMul_eq_iff (ha : a ≠ gfZero) (c x : Element) :
    gfMul Config.multab a x = c ↔ x = gfMul Config.multab c (chainInv Config.multab a) :=
  @mul_eq_iff_eq_mul_inv Gf gfField a ha c x

/-- A·x² = C has the one root that the general solver returns for B = Zero (R187). -/
theorem gfMul_square_eq_iff (ha : a ≠ gfZero) (c y : Element) :
    gfMul Config.multab a (gfMul Config.multab y y) = c ↔
      y = rotr113 (gfMul Config.multab c (chainInv Config.multab a)) := by
  rw [gfMul_eq_iff ha, gfMul_self]
  exact ⟨fun h => by rw [← h, rotr113_rotl113], fun h => by rw [h, rotl113_rotr113]⟩

/-- The left side of the quadratic equation A·x² + B·x + C = 0. -/
def gfQuadratic (a b c x : Element) : Element :=
  gfAdd (gfAdd (gfMul Config.multab a (gfMul Config.multab x x)) (gfMul Config.multab b x)) c

/-- The element B·y/A, as the general solver computes it. -/
def gfMulDiv (b y a : Element) : Element := gfMul Config.multab (gfMul Config.multab b y) (chainInv Config.multab a)

/-- With A and B non-zero, x is a root of the quadratic exactly when A·x/B solves the affine equation (R185). -/
theorem gfQuadratic_eq_gfZero_iff (ha : a ≠ gfZero) (hb : b ≠ gfZero) (c x : Element) :
    gfQuadratic a b c x = gfZero ↔
      gfAdd (rotl113 (gfMulDiv a x b)) (gfMulDiv a x b) = betaOf Config.multab a b c := by
  rw [← gfMul_self, betaOf, ← gfMul_self]
  exact (@quadratic_eq_zero_iff Gf gfField a b ha hb c x).trans BitVec.xor_eq_zero_iff

theorem gfMulDiv_eq_iff (ha : a ≠ gfZero) (hb : b ≠ gfZero) (x y : Element) : gfMulDiv a x b = y ↔ x = gfMulDiv b y a :=
  @mul_mul_inv_eq_iff Gf gfField a b ha hb x y

/-- The two roots sum to B/A (R188). -/
theorem gfAdd_gfMulDiv (a b z : Element) :
    gfAdd (gfMulDiv b z a) (gfMulDiv b (z ^^^ gfOne) a) = gfMul Config.multab b (chainInv Config.multab a) :=
  @mul_add_mul_add_one Gf gfField a b (fun _ => BitVec.xor_self) z

theorem gfMulDiv_ne (ha : a ≠ gfZero) (hb : b ≠ gfZero) (z : Element) : gfMulDiv b z a ≠ gfMulDiv b (z ^^^ gfOne) a :=
  @mul_mul_inv_ne Gf gfField a b ha hb z

/-- A β of trace 1: the quadratic has no root (R188). -/
theorem gfQuadratic_ne_gfZero (ha : a ≠ gfZero) (hb : b ≠ gfZero) {c : Element}
    (h : gfTrace (betaOf Config.multab a b c) = true) (x : Element) : gfQuadratic a b c x ≠ gfZero := fun hx => by
  rw [← (gfQuadratic_eq_gfZero_iff ha hb c x).mp hx, gfTrace_gfAdd_rotl113_self] at h
  exact Bool.false_ne_true h

/-- Given one affine root z, the quadratic has the roots B·z/A and B·(z + 1)/A and no others (R188). -/
theorem gfQuadratic_eq_gfZero_iff_of_affine (ha : a ≠ gfZero) (hb : b ≠ gfZero) {c z : Element}
    (hz : gfAdd (rotl113 z) z = betaOf Config.multab a b c) (x : Element) :
    gfQuadratic a b c x = gfZero ↔ x = gfMulDiv b z a ∨ x = gfMulDiv b (z ^^^ gfOne) a := by
  rw [gfQuadratic_eq_gfZero_iff ha hb, ← hz, gfAdd_rotl113_self_eq_iff, gfMulDiv_eq_iff ha hb, gfMulDiv_eq_iff ha hb]

end Elements

/-! ## The general solver's outcomes, and what QSOLVE3 does with them (R185, R186) -/

section Outcomes
variable {tab : MulTable} {z0 : Bool} {a b : Element}

theorem solveGeneral_of_b_zero (ha : a ≠ gfZero) (c : Element) :
    solveGeneral tab z0 a gfZero c = .ok (.one (rotr113 (gfMul tab c (chainInv tab a)))) := by
  rw [solveGeneral, if_neg ha, if_pos rfl]

theorem solveGeneral_of_trace_one (ha : a ≠ gfZero) (hb : b ≠ gfZero) {c : Element}
    (h : gfTrace (betaOf tab a b c) = true) : solveGeneral tab z0 a b c = .ok .none := by
  rw [solveGeneral, if_neg ha, if_neg hb, solveAffine_of_trace_one z0 h]

theorem solveGeneral_of_trace_zero (ha : a ≠ gfZero) (hb : b ≠ gfZero) {c z : Element}
    (h : solveAffine z0 (betaOf Config.multab a b c) = some z) :
    solveGeneral Config.multab z0 a b c = .ok (.two (gfMulDiv b z a) (gfMulDiv b (z ^^^ gfOne) a)) := by
  rw [solveGeneral, if_neg ha, if_neg hb, h, gfMulDiv, gfMulDiv]

end Outcomes

/-- QSOLVE3 of valid registers writes the roots that the general solver returns. -/
theorem exec_qsolve3_of_roots {rd rd2 rs1 rs2 rs3 : Reg} {s : State} (hd : rd ≠ rd2) (h1 : isValid (s.reg rs1) = true)
    (h2 : isValid (s.reg rs2) = true) (h3 : isValid (s.reg rs3) = true) (ha : s.reg rs1 ≠ 0) {roots : Roots Element}
    (hroots : solveGeneral Config.multab Config.qsZ0 (elementOf (s.reg rs1)) (elementOf (s.reg rs2))
      (elementOf (s.reg rs3)) = .ok roots) :
    exec (.qsolve3 rd rd2 rs1 rs2 rs3) s = .next (s.setRoots rd rd2 (rootContainers roots)) := by
  rw [← containerOf_zero] at ha
  simp only [exec, execQsolve3, if_neg hd, if_neg ha, apply3_of_valid _ h1 h2 h3, hroots]

/-- Two roots go to the two destinations in their order. -/
theorem setRoots_two_reg (s : State) {rd rd2 : Reg} (hd : rd ≠ rd2) (x1 x2 : Container) :
    (s.setRoots rd rd2 (.two x1 x2)).reg rd = x1 ∧ (s.setRoots rd rd2 (.two x1 x2)).reg rd2 = x2 := by
  refine ⟨?_, ?_⟩
  · rw [State.setRoots, setN_reg, setReg_reg_ne _ _ _ hd, setReg_reg_same]
  · rw [State.setRoots, setN_reg, setReg_reg_same]

/-! ## Settled obligations -/

/-- Settles O43: for B = Zero the solver returns the square root of C/A, which is the one root of A·x² = C. -/
theorem qsolveThreeWithoutLinearTerm : Obligations.QsolveThreeWithoutLinearTerm := by
  intro rd rd2 rs1 rs2 rs3 s hd h1 h3 ha hb a c
  have ha' : a ≠ gfZero := (elementOf_eq_zero_iff h1).not.mpr ha
  have h2 : isValid (s.reg rs2) = true := hb ▸ isValid_zero
  have hsolve := solveGeneral_of_b_zero (tab := Config.multab) (z0 := Config.qsZ0) ha' c
  rw [← (elementOf_eq_zero_iff h2).mpr hb] at hsolve
  refine ⟨_, _, exec_qsolve3_of_roots hd h1 h2 h3 ha hsolve, setN_fieldN _ _, setReg_reg_same _ _ _, rfl,
    gfMul_square_eq_iff ha' c, fun r hr => setReg_reg_ne _ _ _ hr, (setRoots_frame _ _ _ _).2⟩

/-- Settles O44: the general solver's outcome follows the trace of A·C/B², and A·x/B takes the roots of the quadratic to those of
the affine equation, which O40 counts. -/
theorem qsolveThreeFindsAllRoots : Obligations.QsolveThreeFindsAllRoots := by
  intro rd rd2 rs1 rs2 rs3 s hd h1 h2 h3 ha hb mul inv a b c isRoot β
  have ha' : a ≠ gfZero := (elementOf_eq_zero_iff h1).not.mpr ha
  have hb' : b ≠ gfZero := (elementOf_eq_zero_iff h2).not.mpr hb
  have hβ : β = betaOf Config.multab a b c := by rw [betaOf, ← gfMul_self]
  constructor
  · intro htrace
    rw [hβ] at htrace
    have hexec := exec_qsolve3_of_roots hd h1 h2 h3 ha (solveGeneral_of_trace_one ha' hb' htrace)
    exact ⟨_, hexec, setN_fieldN _ _, fun _ => rfl, (setRoots_frame s rd rd2 .none).2, gfQuadratic_ne_gfZero ha' hb' htrace⟩
  · intro htrace
    obtain ⟨z, hz, hz0, hroots⟩ := (affineEquationHasTwoRootsOrNone β).2 htrace Config.qsZ0
    have haffine : gfAdd (rotl113 z) z = β := (hroots z).mpr (.inl rfl)
    have hexec := exec_qsolve3_of_roots hd h1 h2 h3 ha (solveGeneral_of_trace_zero ha' hb' (hβ ▸ hz))
    obtain ⟨hrd, hrd2⟩ := setRoots_two_reg s hd (containerOf (gfMulDiv b z a)) (containerOf (gfMulDiv b (z ^^^ gfOne) a))
    exact ⟨_, z, _, _, hexec, setN_fieldN _ _, hz, hz0, haffine, rfl, rfl, hrd, hrd2, gfMulDiv_ne ha' hb' z,
      gfQuadratic_eq_gfZero_iff_of_affine ha' hb' (haffine.trans hβ), gfAdd_gfMulDiv a b z, (setRoots_frame s rd rd2 _).1,
      (setRoots_frame s rd rd2 _).2⟩

end Sys2Proof.Machine
end

section
/-! SUPPORT. The faulted unit (R204, R205, R208): what a transaction other than `Reset()` keeps on it, and therefore a step and a run. -/

namespace Sys2Proof.Machine

/-! ## One transaction on a faulted unit -/

/-- A faulted unit discards the word of an `Issue` (R205). -/
theorem issue_of_faulted {s : State} (hf : s.flagFault = 1) (w : Word) : issue w s = .next s := if_pos hf

/-- A buffer write sets its byte and keeps all else (R33). -/
theorem setByte_frame (s : State) (a : Nat) (b : Byte) :
    (s.setByte a b).byte a = b ∧ (∀ a', a' ≠ a → (s.setByte a b).byte a' = s.byte a') ∧ sameRegs s (s.setByte a b) ∧
      sameStatus s (s.setByte a b) ∧ samePort s (s.setByte a b) :=
  ⟨(setByte_byte s a b a).trans (if_pos rfl), fun a' h => (setByte_byte s a b a').trans (if_neg h), fun _ => rfl,
    ⟨rfl, rfl⟩, rfl, rfl⟩

/-- A transaction other than `Reset()` keeps the registers, STATUS and FCMD of a faulted unit (R205, R208), and no transaction
changes the host's list of those to come. -/
theorem transact_of_faulted {s u : State} {t : Transaction} (hf : s.flagFault = 1) (ht : t ≠ .reset)
    (h : transact t s = .next u) : sameRegs s u ∧ sameStatus s u ∧ u.pending = s.pending := by
  cases t with
  | issue w =>
    obtain rfl : s = u := Host.Outcome.next.inj ((issue_of_faulted hf w).symm.trans h)
    exact ⟨fun _ => rfl, ⟨rfl, rfl⟩, rfl⟩
  | reset => exact absurd rfl ht
  | readStatus | readFcmd | bufRead | bufWrite =>
    injection h with h
    subst h
    exact ⟨fun _ => rfl, ⟨rfl, rfl⟩, rfl⟩

/-! ## Steps and runs without `Reset()` -/

/-- `t` is faulted with the registers and the record of `s`, and the host has no `Reset()` to come. -/
def HoldsFaultOf (s t : State) : Prop :=
  t.flagFault = 1 ∧ .reset ∉ t.pending ∧ sameRegs s t ∧ sameStatus s t

/-- Every step keeps it: the transaction performed is not `Reset()`, and none is added to the list. -/
theorem step_keeps_holdsFaultOf {s t u : State} (ht : HoldsFaultOf s t) (h : step t = .next u) : HoldsFaultOf s u := by
  obtain ⟨hf, hreset, hregs, hstatus, hfcmd⟩ := ht
  cases hp : t.pending with
  | nil =>
    obtain rfl : t = u := Host.Outcome.next.inj ((step_idle hp).symm.trans h)
    exact ⟨hf, hreset, hregs, hstatus, hfcmd⟩
  | cons x rest =>
    rw [hp, List.mem_cons, not_or] at hreset
    obtain ⟨hx, hrest⟩ := hreset
    rw [step_cons hp] at h
    obtain ⟨hregs', ⟨hstatus', hfcmd'⟩, (hpending : u.pending = rest)⟩ :=
      transact_of_faulted (s := { t with pending := rest }) hf (Ne.symm hx) h
    obtain ⟨-, -, -, hfault, -, -⟩ := field_congr hstatus'
    exact ⟨hfault.trans hf, hpending ▸ hrest, fun r => (hregs' r).trans (hregs r), hstatus'.trans hstatus,
      hfcmd'.trans hfcmd⟩

/-! ## `Reset()` -/

/-- `Reset()` leaves FAULT, CAUSE and FCMD 0 (R34). -/
theorem resetUnit_fault_record (s : State) :
    s.resetUnit.flagFault = 0 ∧ s.resetUnit.fieldCause = 0 ∧ s.resetUnit.fcmd = 0 :=
  ⟨by simp [State.flagFault, getField], by simp [State.fieldCause, getField], rfl⟩

/-! ## Settled obligations -/

/-- Settles O45: `raise` writes the two fields of STATUS and FCMD. -/
theorem takingAFaultWritesTheRecordOnly : Obligations.TakingAFaultWritesTheRecordOnly :=
  ⟨by decide, tookFault_raise⟩

/-- Settles O4: the step performs the transaction, and only `Issue` looks at FAULT. -/
theorem faultedUnitDiscardsEveryCommand : Obligations.FaultedUnitDiscardsEveryCommand := by
  intro s t rest hp hf
  have hstep := step_cons hp
  cases t with
  | issue w => exact hstep.trans (issue_of_faulted (s := { s with pending := rest }) hf w)
  | readStatus | readFcmd | bufRead => exact hstep
  | bufWrite a b => exact ⟨_, hstep, setByte_frame _ _ _⟩
  | reset =>
    obtain ⟨hfault, -, -⟩ := resetUnit_fault_record { s with pending := rest }
    exact ⟨_, hstep, hfault⟩

/-- Settles O5: every step of a faulted unit that is not `Reset()` keeps its registers and its record, so every run does. -/
theorem onlyResetLeavesTheFaultedState : Obligations.OnlyResetLeavesTheFaultedState := by
  refine ⟨fun k s t hf hreset h => ?_, fun s rest _ hp => ⟨_, step_cons hp, resetUnit_fault_record _⟩⟩
  have hs : HoldsFaultOf s s := ⟨hf, hreset, fun _ => rfl, rfl, rfl⟩
  obtain ⟨hfault, -, hsame⟩ := run_keeps (fun _ _ hu hv => step_keeps_holdsFaultOf hu hv) k s t hs h
  exact ⟨hfault, hsame⟩

end Sys2Proof.Machine
end

section
/-! SUPPORT. The decoder undoes the encoder, the worked encodings, and a step as the host's next transaction. -/

namespace Sys2Proof.Machine

open Sys2Proof.Laws

/-! ## From a command to its word and back -/

/-- Every command's word is accepted by a row that reads the command from it, whatever the operands (R74). -/
theorem matchesRow (i : Instr) : MatchesRow.Statement i := by
  cases i with
  | zero rd => exact MatchesRow.zero rd
  | one rd => exact MatchesRow.one rd
  | mov rd rs1 => exact MatchesRow.mov rd rs1
  | verify rs1 => exact MatchesRow.verify rs1
  | ser r addr len => exact MatchesRow.ser r addr len
  | deser r addr len => exact MatchesRow.deser r addr len
  | eq rs1 rs2 => exact MatchesRow.eq rs1 rs2
  | iszero rs1 => exact MatchesRow.iszero rs1
  | isone rs1 => exact MatchesRow.isone rs1
  | add rd rs1 rs2 => exact MatchesRow.add rd rs1 rs2
  | sub rd rs1 rs2 => exact MatchesRow.sub rd rs1 rs2
  | neg rd rs1 => exact MatchesRow.neg rd rs1
  | addone rd rs1 => exact MatchesRow.addone rd rs1
  | subone rd rs1 => exact MatchesRow.subone rd rs1
  | sqr rd rs1 => exact MatchesRow.sqr rd rs1
  | sqrt rd rs1 => exact MatchesRow.sqrt rd rs1
  | mul rd rs1 rs2 => exact MatchesRow.mul rd rs1 rs2
  | inv rd rs1 => exact MatchesRow.inv rd rs1
  | div rd rs1 rs2 => exact MatchesRow.div rd rs1 rs2
  | trace rs1 => exact MatchesRow.trace rs1
  | qsolve rd rs1 => exact MatchesRow.qsolve rd rs1
  | qsolve3 rd rd2 rs1 rs2 rs3 => exact MatchesRow.qsolve3 rd rd2 rs1 rs2 rs3

/-- A legal command is what its word decodes to. -/
theorem decode_encode {i : Instr} (h : i.wellFormed = true) : decode (encode i) = .ok i := by
  obtain ⟨row, hrow, haccepts, hoperands⟩ := matchesRow i
  exact decode_eq_ok_iff.mpr ⟨row, hrow, haccepts, hoperands, h⟩

/-- A line's command with the word it encodes to, which decodes to that command (R79). -/
theorem worked_encoding {line : List Char} {i : Instr} {w : Word} (hline : assembleLine line = some i)
    (hword : encode i = w) (h : i.wellFormed = true) : assembleLine line = some i ∧ encode i = w ∧ decode w = .ok i :=
  ⟨hline, hword, hword ▸ decode_encode h⟩

/-! ## `Issue` on a unit that is not faulted -/

/-- `Issue` of a word that decodes performs the command (R77). -/
theorem issue_of_decode_ok {w : Word} {s : State} {i : Instr} (hf : s.flagFault = 0) (hd : decode w = .ok i) :
    issue w s = exec i s := by
  simp [issue, hf, hd]

/-- The level `fault_out` is STATUS.FAULT (R207). -/
theorem faultOut_iff (s : State) : s.faultOut = true ↔ s.flagFault = 1 := beq_iff_eq

/-! ## Settled obligations -/

/-- Settles O8: the row that matches the encoded command reads it back, and a legal command passes the decoder's last test. -/
theorem decodeOfEncodeIsTheCommand : Obligations.DecodeOfEncodeIsTheCommand := fun _ h => decode_encode h

/-- Settles O2: the step takes the `Issue` off the list, and `Issue` of a word that decodes performs its command. -/
theorem stepRunsTheDecodedCommand : Obligations.StepRunsTheDecodedCommand :=
  fun _ _ _ _ hp hf hd => (step_cons hp).trans (issue_of_decode_ok hf hd)

/-- Settles O6: a step is the host's next transaction, and the clauses about `Issue` are those of R205, R77 and R76. -/
theorem transactionsDoWhatTheHostIsPromised : Obligations.TransactionsDoWhatTheHostIsPromised := by
  refine ⟨fun _ => step_idle, fun s rest => ⟨fun w hp => ⟨fun hf => ?_, fun i hf hd => ?_, fun hf hw => ?_⟩, step_cons, step_cons,
    fun a => step_cons, fun a b hp => ⟨_, step_cons hp, setByte_frame _ _ _⟩, faultOut_iff s, fun hp => ⟨_, step_cons hp,
      fun r => ?_, ⟨rfl, rfl⟩, fun _ => rfl, rfl, rfl⟩⟩⟩
  · exact (step_cons hp).trans (issue_of_faulted (s := { s with pending := rest }) hf w)
  · exact stepRunsTheDecodedCommand s w rest i hp hf hd
  · exact illegalWordsRaiseIllegalCommand.2 s w rest hp hf hw
  · exact (resetUnit_reg _ r).trans (reset_reg r).symm

/-- Settles O10: each line is read and each command encoded by computation; that the word decodes is the round trip of O8. -/
theorem workedEncodingsDecode : Obligations.WorkedEncodingsDecode := by
  refine ⟨worked_encoding ?_ ?_ rfl, worked_encoding ?_ ?_ rfl, worked_encoding ?_ ?_ rfl, worked_encoding ?_ ?_ rfl,
    worked_encoding ?_ ?_ rfl, worked_encoding ?_ ?_ rfl, worked_encoding ?_ ?_ rfl⟩ <;> decide +kernel

end Sys2Proof.Machine
end

section
/-! SUPPORT. The invariant of reachable states: what keeps STATUS and FCMD legal and the buffer canonical, and so every step. -/

namespace Sys2Proof.Machine

/-! ## STATUS and FCMD -/

/-- STATUS stays legal while N is not 3 and the fields of the fault record, the upper bits and FCMD are kept. -/
theorem statusLegal_of_record {s t : State} (hs : s.statusLegal) (hN : t.fieldN ≠ 3)
    (hrecord : t.flagFault = s.flagFault ∧ t.fieldCause = s.fieldCause ∧ t.statusRest = s.statusRest ∧ t.fcmd = s.fcmd) :
    t.statusLegal := by
  obtain ⟨hfault, hcause, hrest, hfcmd⟩ := hrecord
  obtain ⟨-, hlegal⟩ := hs
  rw [← hfault, ← hcause, ← hrest, ← hfcmd] at hlegal
  exact ⟨hN, hlegal⟩

theorem statusLegal_of_sameStatus {s t : State} (hs : s.statusLegal) (h : sameStatus s t) : t.statusLegal := by
  obtain ⟨hstatus, hfcmd⟩ := h
  obtain ⟨-, -, hN, hfault, hcause, hrest⟩ := field_congr hstatus
  exact statusLegal_of_record hs (hN ▸ hs.1) ⟨hfault, hcause, hrest, hfcmd⟩

/-- STATUS and FCMD both 0 are legal. -/
theorem statusLegal_of_zero {s : State} (h : s.status = 0) (hf : s.fcmd = 0) : s.statusLegal := by
  simp [State.statusLegal, State.fieldN, State.statusRest, State.flagFault, State.fieldCause, getField, h, hf]

/-- Every fault has one of the codes 1 to 6 (R201). -/
theorem code_ne (x : Cause) : x.code ≠ 0 ∧ x.code ≠ 7 := by cases x <;> decide

/-- Taking a fault sets FAULT and writes its code (R204). -/
theorem raise_statusLegal {s : State} (hs : s.statusLegal) (x : Cause) (w : Word) : (s.raise x w).statusLegal := by
  obtain ⟨hN, hrest, -⟩ := hs
  refine ⟨by rwa [raise_fieldN], by rwa [raise_statusRest], fun h => ?_, fun _ => by rw [raise_fieldCause]; exact code_ne x⟩
  rw [raise_flagFault] at h
  exact absurd h (by decide)

theorem setT_statusLegal {s : State} (hs : s.statusLegal) (b : Bool) : (s.setT b).statusLegal := by
  obtain ⟨-, hN, hrecord⟩ := setT_statusButT s b
  exact statusLegal_of_record hs (hN ▸ hs.1) hrecord

theorem setP_statusLegal {s : State} (hs : s.statusLegal) (b : Bool) : (s.setP b).statusLegal := by
  obtain ⟨-, hN, hrecord⟩ := setP_statusButP s b
  exact statusLegal_of_record hs (hN ▸ hs.1) hrecord

/-- N after the affine solver counts its roots, 0 or 1 (R183). -/
theorem setRoot_fieldN (s : State) (rd : Reg) (o : Option Container) :
    (s.setRoot rd o).fieldN = if o.isSome then 1 else 0 := by
  cases o <;> exact setN_fieldN _ _

/-- How many roots a list of roots holds. -/
def rootCount : Roots Container → BitVec 2
  | .none => 0
  | .one _ => 1
  | .two _ _ => 2

/-- N after the general solver counts its roots (R186). -/
theorem setRoots_fieldN (s : State) (rd rd2 : Reg) (o : Roots Container) : (s.setRoots rd rd2 o).fieldN = rootCount o := by
  cases o <;> exact setN_fieldN _ _

theorem rootCount_ne_three (o : Roots Container) : rootCount o ≠ 3 := by cases o <;> simp [rootCount]

theorem setRoot_statusLegal {s : State} (hs : s.statusLegal) (rd : Reg) (o : Option Container) :
    (s.setRoot rd o).statusLegal := by
  obtain ⟨-, ⟨-, -, hrecord⟩, -⟩ := setRoot_frame s rd o
  refine statusLegal_of_record hs ?_ hrecord
  rw [setRoot_fieldN]
  split <;> decide

theorem setRoots_statusLegal {s : State} (hs : s.statusLegal) (rd rd2 : Reg) (o : Roots Container) :
    (s.setRoots rd rd2 o).statusLegal := by
  obtain ⟨-, ⟨-, -, hrecord⟩, -⟩ := setRoots_frame s rd rd2 o
  exact statusLegal_of_record hs (setRoots_fieldN s rd rd2 o ▸ rootCount_ne_three o) hrecord

/-- A draw touches neither STATUS nor FCMD. -/
theorem statusLegal_of_eq_or_drawn {s u : State} (hs : s.statusLegal) (h : u = s ∨ u = s.drawn) : u.statusLegal := by
  rcases h with rfl | rfl <;> exact hs

/-- A command keeps STATUS and FCMD legal: whatever it writes there it writes as R204 or R28 says. -/
theorem Effect.keeps_statusLegal {s t : State} (hs : s.statusLegal) (h : Effect s t) : t.statusLegal := by
  cases h with
  | raised x w => exact raise_statusLegal hs x w
  | unchanged => exact hs
  | register rd c u hu => exact statusLegal_of_sameStatus (statusLegal_of_eq_or_drawn hs hu) ⟨rfl, rfl⟩
  | predicate b => exact setP_statusLegal hs b
  | traceFlag b u hu => exact setT_statusLegal (statusLegal_of_eq_or_drawn hs hu) b
  | stored a bs u hu _ =>
    obtain ⟨-, hstatus, hfcmd, -⟩ := memWrite_frame u a bs
    exact statusLegal_of_sameStatus (statusLegal_of_eq_or_drawn hs hu) ⟨hstatus, hfcmd⟩
  | root rd o u hu => exact setRoot_statusLegal (statusLegal_of_eq_or_drawn hs hu) rd o
  | roots rd rd2 o u hu => exact setRoots_statusLegal (statusLegal_of_eq_or_drawn hs hu) rd rd2 o

/-! ## The buffer -/

theorem setRoot_buf (s : State) (rd : Reg) (o : Option Container) : (s.setRoot rd o).buf = s.buf := by cases o <;> rfl

theorem setRoots_buf (s : State) (rd rd2 : Reg) (o : Roots Container) : (s.setRoots rd rd2 o).buf = s.buf := by
  cases o <;> rfl

theorem buf_of_eq_or_drawn {s u : State} (h : u = s ∨ u = s.drawn) : u.buf = s.buf := by rcases h with rfl | rfl <;> rfl

/-- A command keeps the buffer's canonical form: it leaves the buffer alone or stores bytes inside it (R56). -/
theorem Effect.keeps_bufWf {s t : State} (hs : Memory.wf s.buf = true) (h : Effect s t) : Memory.wf t.buf = true := by
  cases h with
  | raised | unchanged | predicate => exact hs
  | register rd c u hu => rwa [setReg_buf, buf_of_eq_or_drawn hu]
  | traceFlag b u hu => rwa [setT_buf, buf_of_eq_or_drawn hu]
  | stored a bs u hu hin => exact memWrite_wf u a bs (by rwa [buf_of_eq_or_drawn hu]) hin
  | root rd o u hu => rwa [setRoot_buf, buf_of_eq_or_drawn hu]
  | roots rd rd2 o u hu => rwa [setRoots_buf, buf_of_eq_or_drawn hu]

/-! ## The invariant, from commands to steps -/

theorem exec_keeps_inv {i : Instr} {s t : State} (hs : s.Inv) (h : exec i s = .next t) : t.Inv := by
  obtain ⟨hregs, hstatus, hbuf⟩ := hs
  exact ⟨exec_keeps_regsValid hregs h, (exec_effect i s t h).keeps_statusLegal hstatus, (exec_effect i s t h).keeps_bufWf hbuf⟩

/-- `Issue` completes and keeps the invariant, whatever the word. -/
theorem issue_keeps_inv {s : State} (hs : s.Inv) (w : Word) : ∃ t, issue w s = .next t ∧ t.Inv := by
  rcases flagFault_eq_zero_or_one s with hf | hf
  · cases hd : decode w with
    | ok i =>
      obtain ⟨t, ht⟩ := exec_next i s
      exact ⟨t, (issue_of_decode_ok hf hd).trans ht, exec_keeps_inv hs ht⟩
    | error x =>
      obtain ⟨hregs, hstatus, hbuf⟩ := hs
      exact ⟨_, issue_of_decode_error hf hd, hregs, raise_statusLegal hstatus _ w, hbuf⟩
  · exact ⟨s, issue_of_faulted hf w, hs⟩

/-- So does every other transaction of the host. -/
theorem transact_keeps_inv {s : State} (hs : s.Inv) (t : Transaction) : ∃ u, transact t s = .next u ∧ u.Inv := by
  cases t with
  | issue w => exact issue_keeps_inv hs w
  | readStatus | readFcmd | bufRead => exact ⟨_, rfl, hs⟩
  | bufWrite a b =>
    obtain ⟨hregs, hstatus, hbuf⟩ := hs
    exact ⟨_, rfl, hregs, hstatus, write_wf _ _ b a.isLt hbuf⟩
  | reset =>
    obtain ⟨-, -, hbuf⟩ := hs
    exact ⟨_, rfl, fun r => resetUnit_reg s r ▸ isValid_zero, statusLegal_of_zero rfl rfl, hbuf⟩

/-! ## Settled obligations -/

/-- Settles O47: registers, STATUS and FCMD are 0 and no byte of the buffer is written. -/
theorem resetMeetsTheInvariant : Obligations.ResetMeetsTheInvariant :=
  ⟨fun r => reset_reg r ▸ isValid_zero, statusLegal_of_zero rfl rfl, rfl⟩

/-- Settles O48: a step is the next transaction on a state that meets the invariant, or it changes nothing. -/
theorem everyStepCompletesAndKeepsTheInvariant : Obligations.EveryStepCompletesAndKeepsTheInvariant := by
  intro s hs
  cases hp : s.pending with
  | nil => exact ⟨s, step_idle hp, hs⟩
  | cons t rest =>
    rw [step_cons hp]
    exact transact_keeps_inv (s := { s with pending := rest }) hs t

end Sys2Proof.Machine
end

section
/-! SUPPORT. MULTAB as a parameter: what any table gives (bilinearity, the inverse of Zero), and that every accepted table gives
the unit's product and so the laws of the field (R147, U4). -/

namespace Sys2Proof.Machine

/-! ## Bilinearity, whatever the table (R147) -/

theorem and_xor_distrib_left (a b c : Element) : a &&& (b ^^^ c) = (a &&& b) ^^^ (a &&& c) :=
  eq_of_bitAt_eq fun n => by simp only [bitAt_and, bitAt_xor, mul_add]

theorem and_xor_distrib_right (a b c : Element) : (a ^^^ b) &&& c = (a &&& c) ^^^ (b &&& c) :=
  eq_of_bitAt_eq fun n => by simp only [bitAt_and, bitAt_xor, add_mul]

theorem rotlBy_xor (k : Nat) (a b : Element) : rotlBy k (a ^^^ b) = rotlBy k a ^^^ rotlBy k b := by
  induction k with
  | zero => simp only [rotlBy_zero_count]
  | succ k ih => simp only [rotlBy_succ, ih, rotl113_xor]

theorem rotrBy_xor (k : Nat) (a b : Element) : rotrBy k (a ^^^ b) = rotrBy k a ^^^ rotrBy k b :=
  eq_of_bitAt_eq fun n => by simp only [bitAt_rotrBy, bitAt_xor]

/-- Two sums may be taken term by term. -/
theorem xor_xor_xor_comm (a b c d : Element) : (a ^^^ b) ^^^ (c ^^^ d) = (a ^^^ c) ^^^ (b ^^^ d) := by ac_rfl

theorem mulTerms_xor_left (a b c : Element) (i : Nat) (rows : List (Nat × Nat)) :
    mulTerms (a ^^^ b) c i rows = mulTerms a c i rows ^^^ mulTerms b c i rows := by
  induction rows generalizing i with
  | nil => exact BitVec.xor_self.symm
  | cons row rows ih => simp only [mulTerms, ih, rotlBy_xor, and_xor_distrib_right, xor_xor_xor_comm]

theorem mulTerms_xor_right (a b c : Element) (i : Nat) (rows : List (Nat × Nat)) :
    mulTerms a (b ^^^ c) i rows = mulTerms a b i rows ^^^ mulTerms a c i rows := by
  induction rows generalizing i with
  | nil => exact BitVec.xor_self.symm
  | cons row rows ih =>
    obtain ⟨t, u⟩ := row
    have hsum : rotrBy t (b ^^^ c) ^^^ rotrBy u (b ^^^ c) = (rotrBy t b ^^^ rotrBy u b) ^^^ (rotrBy t c ^^^ rotrBy u c) := by
      rw [rotrBy_xor, rotrBy_xor, xor_xor_xor_comm]
    simp only [mulTerms, ih]
    rw [hsum, and_xor_distrib_left, xor_xor_xor_comm]

section AnyTable
variable (tab : MulTable) (a b c : Element)

theorem gfMul_xor_left : gfMul tab (a ^^^ b) c = gfMul tab a c ^^^ gfMul tab b c := by
  simp only [gfMul, mulTerms_xor_left, and_xor_distrib_right, xor_xor_xor_comm]

theorem gfMul_xor_right : gfMul tab a (b ^^^ c) = gfMul tab a b ^^^ gfMul tab a c := by
  simp only [gfMul, mulTerms_xor_right, rotrBy_xor, and_xor_distrib_left, xor_xor_xor_comm]

/-- Zero is a sum of equal summands, and so is its product. -/
theorem gfMul_zero_left : gfMul tab gfZero a = gfZero := by
  calc gfMul tab gfZero a = gfMul tab (a ^^^ a) a := by rw [BitVec.xor_self]; rfl
    _ = gfZero := (gfMul_xor_left tab a a a).trans BitVec.xor_self

theorem gfMul_zero_right : gfMul tab a gfZero = gfZero := by
  calc gfMul tab a gfZero = gfMul tab a (a ^^^ a) := by rw [BitVec.xor_self]; rfl
    _ = gfZero := (gfMul_xor_right tab a a a).trans BitVec.xor_self

end AnyTable

/-! ## The inverse of Zero, whatever the table (R164) -/

theorem chainStep_gfZero (tab : MulTable) (k : Nat) (bit : Bool) :
    (chainStep tab gfZero (gfZero, k) bit).1 = gfZero := by
  cases bit
  · exact gfMul_zero_right tab _
  · exact gfMul_zero_right tab _

/-- From eta = Zero the chain's loop never leaves Zero. -/
theorem foldl_chainStep_gfZero (tab : MulTable) (bits : List Bool) (s : Element × Nat) (hs : s.1 = gfZero) :
    (bits.foldl (chainStep tab gfZero) s).1 = gfZero := by
  induction bits generalizing s with
  | nil => exact hs
  | cons bit bits ih =>
    obtain ⟨eta, k⟩ := s
    subst hs
    exact ih _ (chainStep_gfZero tab k bit)

theorem chainInv_zero (tab : MulTable) : chainInv tab gfZero = gfZero := by
  rw [chainInv, foldl_chainStep_gfZero tab chainBits _ rfl]
  exact rotl113_eq_self_iff.mpr (.inl rfl)

/-- INV_ZERO plays no part for an operand that is not Zero (R164). -/
theorem gfInv_of_ne_zero (tab : MulTable) (m : InvZero) (f : Element) {a : Element} (ha : a ≠ gfZero) :
    gfInv tab m f a = chainInv tab a := if_neg ha

theorem gfInv_chain_zero (tab : MulTable) (f : Element) : gfInv tab .chain f gfZero = gfZero :=
  (if_pos rfl).trans (chainInv_zero tab)

theorem gfInv_draw_zero (tab : MulTable) (f : Element) : gfInv tab .draw f gfZero = f := if_pos rfl

/-! ## Tables with the same rows -/

section SameProduct
variable {tab tab' : MulTable}

/-- Only the rows of a table enter the product (R142, R144). -/
theorem gfMul_of_sameRows (h : tab.SameRows tab') : gfMul tab = gfMul tab' := by
  obtain ⟨hfirst, hrows⟩ := h
  funext a b
  rw [gfMul_eq_tables, gfMul_eq_tables, hfirst, mulTerms_congr hrows]

theorem chainStep_congr (h : gfMul tab = gfMul tab') : chainStep tab = chainStep tab' := by
  funext a s bit
  simp only [chainStep, h]

theorem chainInv_congr (h : gfMul tab = gfMul tab') : chainInv tab = chainInv tab' := by
  funext a
  simp only [chainInv, chainStep_congr h]

theorem gfInv_congr (h : gfMul tab = gfMul tab') : gfInv tab = gfInv tab' := by
  funext m f a
  simp only [gfInv, chainInv_congr h]

theorem solveGeneral_congr (h : gfMul tab = gfMul tab') : solveGeneral tab = solveGeneral tab' := by
  funext z0 a b c
  simp only [solveGeneral, betaOf, h, chainInv_congr h]

end SameProduct

/-! ## Accepted tables (U4) -/

/-- An accepted table gives the unit's product. -/
theorem gfMul_of_accepted {tab : MulTable} (h : tab.Accepted) : gfMul tab = gfMul Config.multab :=
  (gfMul_of_sameRows h).trans gfMul_multab.symm

theorem chainInv_of_accepted {tab : MulTable} (h : tab.Accepted) : chainInv tab = chainInv Config.multab :=
  chainInv_congr (gfMul_of_accepted h)

/-- T0 and T1 of the default table, row by row, are its rows: no row is flipped (R145). -/
theorem zip_tableR145 : Config.tableR145.t0.tail.zip Config.tableR145.t1.tail = Config.tableR145.rows := by decide +kernel

/-- The unit's table is an accepted one, whatever its row order and sentinel. -/
theorem accepted_multab : Config.multab.Accepted := by
  refine ⟨rfl, ?_⟩
  rw [zip_tableR145]
  exact column_zip Config.rowOrder 1 Config.tableR145.rows

/-- The field has no zero divisors (R147). -/
theorem gfMul_eq_gfZero_iff (a b : Element) : gfMul Config.multab a b = gfZero ↔ a = gfZero ∨ b = gfZero :=
  letI := gfField
  mul_eq_zero (M₀ := Gf)

/-- The inverse of the inverse, of Zero too (R163). -/
theorem chainInv_chainInv (a : Element) : chainInv Config.multab (chainInv Config.multab a) = a :=
  letI := gfField
  inv_inv (G := Gf) a

/-! ## Settled obligations -/

/-- Settles O55: the product is a function of the rows, and inverse and roots are functions of the product. -/
theorem onlyTheRowsOfTheTableMatter : Obligations.OnlyTheRowsOfTheTableMatter := by
  refine ⟨fun tab tab' h z0 m a b c => ?_, accepted_multab, rfl⟩
  have hmul := gfMul_of_sameRows h
  rw [hmul, gfInv_congr hmul, solveGeneral_congr hmul]
  exact ⟨rfl, rfl, rfl⟩

/-- Settles O25: rotations and the table's sums of rotations are linear, and AND distributes over XOR. -/
theorem productIsBilinearForAnyTable : Obligations.ProductIsBilinearForAnyTable :=
  fun tab a b c => ⟨gfMul_xor_left tab a b c, gfMul_xor_right tab a b c, gfMul_zero_left tab a, gfMul_zero_right tab a⟩

/-- Settles O26: an accepted table gives the unit's product, and that is the product of the group algebra. -/
theorem productIsCommutative : Obligations.ProductIsCommutative := by
  intro tab h
  rw [gfMul_of_accepted h]
  exact gfMul_comm

/-- Settles O27: so is associativity that of the group algebra's product. -/
theorem productIsAssociative : Obligations.ProductIsAssociative := by
  intro tab h
  rw [gfMul_of_accepted h]
  exact gfMul_assoc

/-- Settles O28: the laws of the unit's product; in the group algebra the rotation is the square of a commutative ring. -/
theorem oneIsTheIdentityAndSquaringIsTheRotation : Obligations.OneIsTheIdentityAndSquaringIsTheRotation := by
  intro tab h a b
  rw [gfMul_of_accepted h]
  refine ⟨gfOne_gfMul a, gfMul_gfOne a, gfMul_self a, ?_⟩
  exact embed_injective (by rw [embed_gfMul, embed_rotl113, embed_rotl113, embed_rotl113, embed_gfMul, mul_pow])

/-- Settles O29: a field has no zero divisors. -/
theorem productHasNoZeroDivisors : Obligations.ProductHasNoZeroDivisors := by
  intro tab h a b
  rw [gfMul_of_accepted h]
  exact (gfMul_eq_gfZero_iff a b).mp

end Sys2Proof.Machine
end

section
/-! SUPPORT. Powers and inverses: the inversion chain as a power (R163), and what MUL, INV and DIV write on valid operands. -/

namespace Sys2Proof.Machine

/-! ## Powers -/

theorem gfPow_congr {tab tab' : MulTable} (h : gfMul tab = gfMul tab') : gfPow tab = gfPow tab' := by
  funext a n
  induction n with
  | zero => rfl
  | succ n ih => rw [gfPow, gfPow, ih, h]

section Powers
variable (a : Element)

theorem gfPow_one : gfPow Config.multab a 1 = a := gfOne_gfMul a

theorem gfPow_add (m n : Nat) :
    gfPow Config.multab a (m + n) = gfMul Config.multab (gfPow Config.multab a m) (gfPow Config.multab a n) := by
  induction n with
  | zero => exact (gfMul_gfOne _).symm
  | succ n ih => rw [← Nat.add_assoc, gfPow, gfPow, ih, gfMul_assoc]

theorem rotl113_gfPow (n : Nat) : rotl113 (gfPow Config.multab a n) = gfPow Config.multab a (2 * n) := by
  rw [← gfMul_self, ← gfPow_add, two_mul]

theorem rotlBy_gfPow (k n : Nat) : rotlBy k (gfPow Config.multab a n) = gfPow Config.multab a (2 ^ k * n) := by
  induction k with
  | zero => rw [rotlBy_zero_count, pow_zero, one_mul]
  | succ k ih => rw [rotlBy_succ, ih, rotl113_gfPow, ← mul_assoc, ← pow_succ']

end Powers

/-! ## The chain (R160, R163) -/

/-- The chain's loop invariant: eta is `a^(2^k - 1)` (R163). -/
def ChainPower (a : Element) (s : Element × Nat) : Prop := s.1 = gfPow Config.multab a (2 ^ s.2 - 1)

/-- Doubling and incrementing the exponent's length k. -/
theorem chain_exponents (k : Nat) :
    2 ^ k * (2 ^ k - 1) + (2 ^ k - 1) = 2 ^ (2 * k) - 1 ∧ 2 * (2 ^ k - 1) + 1 = 2 ^ (k + 1) - 1 := by
  obtain ⟨m, hm⟩ : ∃ m, 2 ^ k = m + 1 := Nat.exists_eq_succ_of_ne_zero (Nat.two_pow_pos k).ne'
  rw [two_mul k, pow_add, pow_succ, hm]
  refine ⟨?_, by omega⟩
  rw [Nat.add_sub_cancel, Nat.succ_mul m (m + 1)]
  have hcomm : m * (m + 1) = (m + 1) * m := Nat.mul_comm _ _
  omega

theorem chainStep_keeps_chainPower {a : Element} {s : Element × Nat} (h : ChainPower a s) (bit : Bool) :
    ChainPower a (chainStep Config.multab a s bit) := by
  have hdouble : gfMul Config.multab (rotlBy s.2 s.1) s.1 = gfPow Config.multab a (2 ^ (2 * s.2) - 1) := by
    rw [h, rotlBy_gfPow, ← gfPow_add, (chain_exponents s.2).1]
  cases bit with
  | false => exact hdouble
  | true =>
    calc gfMul Config.multab (rotl113 (gfMul Config.multab (rotlBy s.2 s.1) s.1)) a
        = gfPow Config.multab a (2 * (2 ^ (2 * s.2) - 1) + 1) := by rw [hdouble, rotl113_gfPow, gfPow]
      _ = gfPow Config.multab a (2 ^ (2 * s.2 + 1) - 1) := by rw [(chain_exponents (2 * s.2)).2]

/-- At the top of the loop k is 1 and eta is `a`. -/
theorem foldl_chainStep_chainPower (a : Element) (bits : List Bool) :
    ChainPower a (bits.foldl (chainStep Config.multab a) (a, 1)) := by
  have hkeeps (s : Element × Nat) (h : ChainPower a s) : ChainPower a (bits.foldl (chainStep Config.multab a) s) := by
    induction bits generalizing s with
    | nil => exact h
    | cons bit bits ih => exact ih _ (chainStep_keeps_chainPower h bit)
  exact hkeeps (a, 1) (gfPow_one a).symm

/-- The chain ends at k = 112 and squares once more. -/
theorem chainInv_eq_gfPow (a : Element) : chainInv Config.multab a = gfPow Config.multab a (2 ^ 113 - 2) := by
  have hend : (chainBits.foldl (chainStep Config.multab a) (a, 1)).1 = gfPow Config.multab a (2 ^ 112 - 1) :=
    foldl_chainStep_chainPower a chainBits
  have hexponent : 2 * (2 ^ 112 - 1) = 2 ^ 113 - 2 := by norm_num
  rw [chainInv, hend, rotl113_gfPow, hexponent]

theorem chainInv_gfOne : chainInv Config.multab gfOne = gfOne :=
  (gfOne_gfMul _).symm.trans (gfMul_chainInv gfZero_ne_gfOne.symm)

/-- Dividing and multiplying by the same non-zero element (R163). -/
theorem gfMul_chainInv_mul (a : Element) {b : Element} (hb : b ≠ gfZero) :
    gfMul Config.multab (gfMul Config.multab a (chainInv Config.multab b)) b = a := by
  rw [gfMul_assoc, gfMul_comm _ b, gfMul_chainInv hb, gfMul_gfOne]

/-! ## Inverses as INV and DIV take them -/

/-- `Inverse` of a non-zero element (R161). -/
theorem inverseOf_of_ne_zero (s : State) {a : Element} (ha : a ≠ gfZero) :
    (s.inverseOf a).1 = chainInv Config.multab a := gfInv_of_ne_zero _ _ _ ha

/-- `Inverse` of Zero uses up one draw (R164, log entry 1). -/
theorem inverseOf_zero_state (s : State) : (s.inverseOf gfZero).2 = s.drawn := by
  simp only [State.inverseOf, if_pos]

/-- A register write after a possible draw changes nothing else that a command's frame speaks of. -/
theorem onlyReg_setReg_of_eq_or_drawn {s u : State} (h : u = s ∨ u = s.drawn) (rd : Reg) (c : Container) :
    onlyReg rd s (u.setReg rd c) := by
  rcases h with rfl | rfl <;> exact setReg_frame _ rd c

section Commands
variable {s : State} {rs1 rs2 : Reg} (rd : Reg)

/-- INV of a valid register is one register write, of what `Inverse` gives (R161). -/
theorem exec_inv_of_valid (h : isValid (s.reg rs1) = true) :
    exec (.inv rd rs1) s = .next ((s.inverseOf (elementOf (s.reg rs1))).2.setReg rd
      (containerOf (s.inverseOf (elementOf (s.reg rs1))).1)) := by
  simp only [exec, execInv, element?_of_valid h]

/-- DIV of valid registers is one register write, of the dividend times what `Inverse` gives of the divisor (R162). -/
theorem exec_div_of_valid (h1 : isValid (s.reg rs1) = true) (h2 : isValid (s.reg rs2) = true) :
    exec (.div rd rs1 rs2) s = .next ((s.inverseOf (elementOf (s.reg rs2))).2.setReg rd
      (containerOf (gfMul Config.multab (elementOf (s.reg rs1)) (s.inverseOf (elementOf (s.reg rs2))).1))) := by
  simp only [exec, execDiv, element?_of_valid h1, element?_of_valid h2]

end Commands

/-! ## Settled obligations -/

/-- Settles O34: each iteration takes k to 2k or 2k + 1 and eta, a power of `a`, along with it. -/
theorem chainComputesThePower : Obligations.ChainComputesThePower := by
  intro tab h a
  have hmul := gfMul_of_accepted h
  rw [chainStep_congr hmul, chainInv_congr hmul, gfPow_congr hmul]
  exact ⟨fun n _ => foldl_chainStep_chainPower a (chainBits.take n), rfl, chainInv_eq_gfPow a⟩

/-- Settles O24: MUL writes the product, whose corner cases are the laws of Zero, of One and of the square. -/
theorem mulWritesTheProduct : Obligations.MulWritesTheProduct := by
  intro rd rs1 rs2 s h1 h2
  obtain ⟨t, ht, hreg, hframe⟩ := onlyReg_of_exec_apply2 (i := .mul rd rs1 rs2) (f := gfMul Config.multab) rfl h1 h2
  refine ⟨t, ht, hframe, hreg, fun hzero => ?_, fun hone => ?_, fun hone => ?_, fun heq => ?_⟩
  · rw [hreg, ← containerOf_zero]
    rcases hzero with hzero | hzero
    · rw [(elementOf_eq_zero_iff h1).mpr hzero, gfZero_gfMul]
    · rw [(elementOf_eq_zero_iff h2).mpr hzero, gfMul_gfZero]
  · rw [hreg, hone, elementOf_containerOf, gfOne_gfMul, containerOf_elementOf h2]
  · rw [hreg, hone, elementOf_containerOf, gfMul_gfOne, containerOf_elementOf h1]
  · rw [hreg, ← heq, gfMul_self]

/-- Settles O31: INV is one register write, after a draw when the operand is Zero; the inverse of One is One. -/
theorem invWritesTheInverse : Obligations.InvWritesTheInverse := by
  intro rd rs1 s h
  refine ⟨_, exec_inv_of_valid rd h, onlyReg_setReg_of_eq_or_drawn (inverseOf_state s _) rd _, fun hne => ?_, fun hone => ?_,
    fun hzero => ?_⟩ <;> rw [setReg_reg_same]
  · rw [inverseOf_of_ne_zero s ((elementOf_eq_zero_iff h).not.mpr hne)]
  · rw [hone, elementOf_containerOf, inverseOf_of_ne_zero s gfZero_ne_gfOne.symm, chainInv_gfOne]
  · rw [(elementOf_eq_zero_iff h).mpr hzero]
    rfl

/-- Settles O32: the chain makes Zero of Zero since every product with Zero is Zero; INV of Zero draws and writes an element. -/
theorem inverseOfZeroIsTheParameter : Obligations.InverseOfZeroIsTheParameter := by
  refine ⟨fun tab f => ⟨gfInv_chain_zero tab f, gfInv_draw_zero tab f⟩, fun tab f a => ?_,
    fun tab m f a ha => gfInv_of_ne_zero tab m f ha, fun rd rs1 s hzero => ?_⟩
  · rw [gfInv_chain_zero, gfMul_zero_right]
  · have hvalid : isValid (s.reg rs1) = true := hzero ▸ isValid_zero
    have hexec := exec_inv_of_valid rd hvalid
    rw [(elementOf_eq_zero_iff hvalid).mpr hzero, inverseOf_zero_state] at hexec
    exact ⟨_, hexec, rfl, by rw [setReg_reg_same, isValid_containerOf], rfl⟩

/-- Settles O33: the chain is the inverse of the field, and INV writes what it computes. -/
theorem elementTimesItsInverseIsOne : Obligations.ElementTimesItsInverseIsOne := by
  refine ⟨fun tab h a ha => ?_, fun rd rs1 s h hne => ?_⟩
  · rw [gfMul_of_accepted h, chainInv_of_accepted h]
    exact ⟨gfMul_chainInv ha, chainInv_chainInv a⟩
  · obtain ⟨t, ht, -, hreg, -⟩ := invWritesTheInverse rd rs1 s h
    exact ⟨t, _, ht, hreg hne, gfMul_chainInv ((elementOf_eq_zero_iff h).not.mpr hne)⟩

/-- Settles O35: DIV is one register write, after a draw when the divisor is Zero; its corner cases are laws of the field. -/
theorem divWritesTheQuotient : Obligations.DivWritesTheQuotient := by
  intro rd rs1 rs2 s h1 h2
  refine ⟨_, exec_div_of_valid rd h1 h2, onlyReg_setReg_of_eq_or_drawn (inverseOf_state s _) rd _, setReg_reg_same _ _ _,
    fun hone => ?_, fun hzero => ?_, fun heq hne => ?_⟩ <;> rw [setReg_reg_same]
  · rw [hone, elementOf_containerOf, inverseOf_of_ne_zero s gfZero_ne_gfOne.symm, chainInv_gfOne, gfMul_gfOne,
      containerOf_elementOf h1]
  · rw [(elementOf_eq_zero_iff h1).mpr hzero, gfZero_gfMul, containerOf_zero]
  · have ha : elementOf (s.reg rs1) ≠ gfZero := (elementOf_eq_zero_iff h1).not.mpr hne
    rw [← heq, inverseOf_of_ne_zero s ha, gfMul_chainInv ha]

/-- Settles O36: the quotient times the divisor is the dividend, and MUL multiplies by the divisor's register where DIV has
kept it. -/
theorem mulUndoesDiv : Obligations.MulUndoesDiv := by
  intro rd rs1 rs2 s h1 h2 hne
  have hb : elementOf (s.reg rs2) ≠ gfZero := (elementOf_eq_zero_iff h2).not.mpr hne
  obtain ⟨t, ht, ⟨hothers, -⟩, hreg, -⟩ := divWritesTheQuotient rd rs1 rs2 s h1 h2
  rw [gfInv_of_ne_zero _ _ _ hb] at hreg
  refine ⟨t, _, ht, hreg, gfMul_chainInv_mul _ hb, fun hrd => ?_⟩
  have hdivisor : t.reg rs2 = s.reg rs2 := hothers rs2 hrd.symm
  obtain ⟨u, hu, -, hproduct, -⟩ := mulWritesTheProduct rd rd rs2 t (hreg ▸ isValid_containerOf _) (hdivisor ▸ h2)
  refine ⟨u, hu, ?_⟩
  rw [hproduct, hreg, hdivisor, elementOf_containerOf, gfMul_chainInv_mul _ hb, containerOf_elementOf h1]

end Sys2Proof.Machine
end

section
/-! SUPPORT. Bits summed mod 2: the trace of a container and the product over the table; what an entry of the table means; and the
roots under both values of QS_Z0. -/

namespace Sys2Proof.Machine

/-! ## Sums of bits -/

/-- The XOR of `f 0`, …, `f (n - 1)`. -/
def xorSum (f : Nat → Bool) (n : Nat) : Bool := (List.range n).foldl (fun x i => x ^^ f i) false

theorem xorSum_succ (f : Nat → Bool) (n : Nat) : xorSum f (n + 1) = (xorSum f n ^^ f n) := by
  rw [xorSum, List.range_succ, List.foldl_append]
  rfl

theorem xorSum_succ' (f : Nat → Bool) (n : Nat) : xorSum f (n + 1) = (f 0 ^^ xorSum (fun i => f (i + 1)) n) := by
  induction n with
  | zero => exact Bool.xor_comm _ _
  | succ n ih => rw [xorSum_succ, ih, xorSum_succ, Bool.xor_assoc]

theorem xorSum_congr {f g : Nat → Bool} {n : Nat} (h : ∀ i < n, f i = g i) : xorSum f n = xorSum g n := by
  induction n with
  | zero => rfl
  | succ n ih => rw [xorSum_succ, xorSum_succ, ih fun i hi => h i (by omega), h n (by omega)]

theorem xorSum_eq_false {f : Nat → Bool} {n : Nat} (h : ∀ i < n, f i = false) : xorSum f n = false := by
  induction n with
  | zero => rfl
  | succ n ih => rw [xorSum_succ, ih fun i hi => h i (by omega), h n (by omega), Bool.xor_false]

/-- A sum in which one summand alone may be 1. -/
theorem xorSum_eq_single {f : Nat → Bool} {n m : Nat} (hm : m < n) (h : ∀ i < n, i ≠ m → f i = false) :
    xorSum f n = f m := by
  induction n with
  | zero => omega
  | succ n ih =>
    rw [xorSum_succ]
    by_cases hmn : m = n
    · subst hmn
      rw [xorSum_eq_false fun i hi => h i (by omega) (by omega), Bool.false_xor]
    · rw [ih (by omega) fun i hi => h i (by omega), h n (by omega) (Ne.symm hmn), Bool.xor_false]

/-- Summands that are 0 from `n` on add nothing. -/
theorem xorSum_add {f : Nat → Bool} {n : Nat} (h : ∀ i, n ≤ i → f i = false) (m : Nat) :
    xorSum f (n + m) = xorSum f n := by
  induction m with
  | zero => rfl
  | succ m ih => rw [← Nat.add_assoc, xorSum_succ, ih, h _ (by omega), Bool.xor_false]

/-- The trace is the sum of all container bits of an element, as the reserved ones are 0 (R172). -/
theorem gfTrace_eq_xorSum (a : Element) : gfTrace a = xorSum (fun i => (containerOf a).getLsbD i) 128 := by
  have hparity : ∀ n, parityBelow a n = xorSum (fun i => (containerOf a).getLsbD i) n := fun n => by
    induction n with
    | zero => rfl
    | succ n ih => rw [parityBelow, ih, xorSum_succ, getLsbD_containerOf]
  calc gfTrace a = xorSum (fun i => (containerOf a).getLsbD i) 113 := hparity 113
    _ = xorSum (fun i => (containerOf a).getLsbD i) 128 :=
      (xorSum_add (fun i hi => (isValid_iff_getLsbD _).mp (isValid_containerOf a) i hi) 15).symm

/-! ## The product bit by bit (R143) -/

/-- What a table row with entries `p` contributes as row `i` to bit `n` of the product. -/
def termBit (a b : Element) (n i : Nat) (p : Nat × Nat) : Bool :=
  a.getLsbD ((n + 113 - i) % 113) && (b.getLsbD ((n + p.1) % 113) ^^ b.getLsbD ((n + p.2) % 113))

/-- The terms of rows `i`, `i + 1`, … of a table of at most 113 rows. -/
theorem getLsbD_mulTerms (a b : Element) {n : Nat} (hn : n < 113) (rows : List (Nat × Nat)) (i : Nat)
    (hi : i + rows.length ≤ 113) :
    (mulTerms a b i rows).getLsbD n = xorSum (fun m => termBit a b n (i + m) (rows.getD m (0, 0))) rows.length := by
  induction rows generalizing i with
  | nil => exact BitVec.getLsbD_zero
  | cons row rows ih =>
    rw [List.length_cons] at hi
    have hindex : (n + (113 - i % 113)) % 113 = (n + 113 - i) % 113 := by omega
    have hterm : (rotlBy i a &&& (rotrBy row.1 b ^^^ rotrBy row.2 b)).getLsbD n = termBit a b n i row := by
      rw [BitVec.getLsbD_and, BitVec.getLsbD_xor, getLsbD_rotlBy _ _ _ hn, getLsbD_rotrBy _ _ _ hn, getLsbD_rotrBy _ _ _ hn,
        hindex, termBit]
    rw [mulTerms, BitVec.getLsbD_xor, hterm, ih (i + 1) (by omega), List.length_cons, xorSum_succ']
    simp only [List.getD_cons_zero, List.getD_cons_succ, Nat.add_zero, Nat.add_assoc, Nat.add_comm 1]

/-- Row `m + 1` of a table of 113 rows, from T0 and T1. -/
theorem zip_getD {tab : MulTable} (hrows : tab.rows.length = 112) {m : Nat} (hm : m < 112) :
    (tab.t0.tail.zip tab.t1.tail).getD m (0, 0) = (tab.t0.getD (m + 1) 0, tab.t1.getD (m + 1) 0) := by
  have h0 : tab.t0.length = 113 := by rw [length_t0, hrows]
  have h1 : tab.t1.length = 113 := by rw [length_t1, hrows]
  have hzip : m < (tab.t0.tail.zip tab.t1.tail).length := by simpa [hrows] using hm
  rw [List.getD_eq_getElem _ _ hzip, List.getD_eq_getElem _ _ (by omega), List.getD_eq_getElem _ _ (by omega), List.getElem_zip,
    List.getElem_tail, List.getElem_tail]

/-- Bit `n` of the product: the term of row 0, and the sum of those of rows 1 to 112 (R143). -/
theorem getLsbD_gfMul {tab : MulTable} (hrows : tab.rows.length = 112) (a b : Element) {n : Nat} (hn : n < 113) :
    (gfMul tab a b).getLsbD n = ((a.getLsbD n && b.getLsbD ((n + tab.t0.getD 0 0) % 113)) ^^
      xorSum (fun i => termBit a b n (i + 1) (tab.t0.getD (i + 1) 0, tab.t1.getD (i + 1) 0)) 112) := by
  have hlength : (tab.t0.tail.zip tab.t1.tail).length = 112 := by simp [hrows]
  rw [gfMul_eq_tables, BitVec.getLsbD_xor, BitVec.getLsbD_and, getLsbD_rotrBy _ _ _ hn,
    getLsbD_mulTerms a b hn _ 1 (by rw [hlength]), hlength]
  refine congrArg _ (xorSum_congr fun i hi => ?_)
  rw [zip_getD hrows hi, Nat.add_comm 1]

/-! ## What an entry means (R143, R144) -/

/-- The two indices of every row of the default table are different numbers below 113. -/
theorem rows_tableR145_rising : ∀ p ∈ Config.tableR145.rows, p.1 < p.2 ∧ p.2 < 113 := by decide +kernel

theorem length_rows_of_accepted {tab : MulTable} (h : tab.Accepted) : tab.rows.length = 112 := by
  obtain ⟨-, hrows⟩ := h
  have hlength := hrows.length_eq
  rw [zip_tableR145, show Config.tableR145.rows.length = 112 from length_rows_multab] at hlength
  simpa using hlength

/-- In an accepted table the two entries of a row are different and below 113. -/
theorem entries_of_accepted {tab : MulTable} (h : tab.Accepted) {m : Nat} (hm : m < 112) :
    tab.t0.getD (m + 1) 0 ≠ tab.t1.getD (m + 1) 0 ∧ tab.t0.getD (m + 1) 0 < 113 ∧ tab.t1.getD (m + 1) 0 < 113 := by
  have hlength := length_rows_of_accepted h
  obtain ⟨-, hrows⟩ := h
  rw [zip_tableR145] at hrows
  have hzip : m < (tab.t0.tail.zip tab.t1.tail).length := by simpa [hlength] using hm
  have hentry := hrows.get hzip hm
  obtain ⟨hlt, hbound⟩ := rows_tableR145_rising _ (List.get_mem Config.tableR145.rows ⟨m, hm⟩)
  have hgetD := zip_getD hlength hm
  rw [List.getD_eq_getElem _ _ hzip] at hgetD
  rw [List.get_eq_getElem, hgetD] at hentry
  rcases hentry with hentry | hentry
  · obtain ⟨h0, h1⟩ := Prod.mk.inj hentry
    rw [h0, h1]
    exact ⟨hlt.ne, hlt.trans hbound, hbound⟩
  · obtain ⟨h0, h1⟩ := Prod.mk.inj hentry
    rw [h0, h1]
    exact ⟨hlt.ne', hbound, hlt.trans hbound⟩

/-- Row 0 of an accepted table holds the index 1. -/
theorem first_of_accepted {tab : MulTable} (h : tab.Accepted) : tab.t0.getD 0 0 = 1 := h.1

/-- Being one of two different numbers, as a sum of bits. -/
theorem eq_or_eq_iff_beq_xor {x y t : Nat} (h : x ≠ y) : t = x ∨ t = y ↔ ((x == t) ^^ (y == t)) = true := by
  by_cases hx : x = t
  · subst hx
    simp [h.symm]
  · simpa [hx, Ne.symm hx] using eq_comm

section BasisProducts
variable {tab : MulTable} (h : tab.Accepted) (t : Nat)
include h

/-- Bit 0 of the product of basis vectors 0 and `t` tells whether `t` is the entry of row 0. -/
theorem gfMul_basis_zero_basis : (gfMul tab (basis 0) (basis t)).getLsbD 0 = (tab.t0.getD 0 0 == t) := by
  have hterm : ∀ k < 112, termBit (basis 0) (basis t) 0 (k + 1) (tab.t0.getD (k + 1) 0, tab.t1.getD (k + 1) 0) = false :=
    fun k hk => by
      rw [termBit, getLsbD_basis 0 (Nat.mod_lt _ (by decide)), beq_eq_false_iff_ne.mpr (by omega), Bool.false_and]
  rw [getLsbD_gfMul (length_rows_of_accepted h) _ _ (by decide), xorSum_eq_false hterm, first_of_accepted h, Bool.xor_false,
    getLsbD_basis 0 (by decide), getLsbD_basis t (by decide)]
  rfl

/-- Bit 0 of the product of basis vectors `-i` and `t` tells whether `t` is an entry of row `i = m + 1`. -/
theorem gfMul_basis_basis {m : Nat} (hm : m < 112) :
    (gfMul tab (basis (112 - m)) (basis t)).getLsbD 0 =
      (tab.t0.getD (m + 1) 0 == t ^^ tab.t1.getD (m + 1) 0 == t) := by
  obtain ⟨-, h0, h1⟩ := entries_of_accepted h hm
  have hother : ∀ k < 112, k ≠ m →
      termBit (basis (112 - m)) (basis t) 0 (k + 1) (tab.t0.getD (k + 1) 0, tab.t1.getD (k + 1) 0) = false := fun k hk hkm => by
    rw [termBit, getLsbD_basis _ (Nat.mod_lt _ (by decide)), beq_eq_false_iff_ne.mpr (by omega), Bool.false_and]
  have hfirst : (basis (112 - m)).getLsbD 0 = false := by
    rw [getLsbD_basis _ (by decide), beq_eq_false_iff_ne.mpr (by omega)]
  have hindex : (0 + 113 - (m + 1)) % 113 = 112 - m := by omega
  rw [getLsbD_gfMul (length_rows_of_accepted h) _ _ (by decide), hfirst, Bool.false_and, Bool.false_xor,
    xorSum_eq_single hm hother, termBit, hindex, getLsbD_basis _ (by omega), beq_self_eq_true, Bool.true_and, Nat.zero_add,
    Nat.zero_add, Nat.mod_eq_of_lt h0, Nat.mod_eq_of_lt h1, getLsbD_basis t h0, getLsbD_basis t h1]

end BasisProducts

/-! ## Both values of QS_Z0 (R184) -/

/-- QS_Z0 is added to every bit of the affine root. -/
theorem rootUpTo_true (β : Element) : rootUpTo true β 112 = rootUpTo false β 112 ^^^ gfOne := by
  refine BitVec.eq_of_getLsbD_eq fun n hn => ?_
  rw [BitVec.getLsbD_xor, getLsbD_rootUpTo true β hn, getLsbD_rootUpTo false β hn, gfOne, BitVec.getLsbD_allOnes,
    decide_eq_true hn, Bool.xor_false]

theorem solveAffine_true (β : Element) : solveAffine true β = (solveAffine false β).map (· ^^^ gfOne) := by
  cases h : gfTrace β with
  | true => rw [solveAffine_of_trace_one _ h, solveAffine_of_trace_one _ h]; rfl
  | false => rw [solveAffine_of_trace_zero _ h, solveAffine_of_trace_zero _ h, rootUpTo_true]; rfl

/-- The general solver's two roots come from the affine root and its complement, whatever the table (R185). -/
theorem solveGeneral_of_affine_root {tab : MulTable} {z0 : Bool} {a b c z : Element} (ha : a ≠ gfZero) (hb : b ≠ gfZero)
    (h : solveAffine z0 (betaOf tab a b c) = some z) :
    solveGeneral tab z0 a b c = .ok (.two (gfMul tab (gfMul tab b z) (chainInv tab a))
      (gfMul tab (gfMul tab b (z ^^^ gfOne)) (chainInv tab a))) := by
  rw [solveGeneral, if_neg ha, if_neg hb, h]

theorem solveGeneral_of_a_zero (tab : MulTable) (z0 : Bool) (b c : Element) :
    solveGeneral tab z0 gfZero b c = .error .invalidArgument := if_pos rfl

/-! ## What QSOLVE writes -/

/-- QSOLVE of a valid register writes the outcome of the affine solver (R183). -/
theorem exec_qsolve_of_valid {rd rs1 : Reg} {s : State} (h : isValid (s.reg rs1) = true) :
    exec (.qsolve rd rs1) s =
      .next (s.setRoot rd ((solveAffine Config.qsZ0 (elementOf (s.reg rs1))).map containerOf)) := by
  simp only [exec, execQsolve, apply1_of_valid _ h]

/-! ## Settled obligations -/

/-- Settles O38: squaring is the left rotation, which keeps the number of ones; the sum of 128 bits ends with 15 zeros. -/
theorem traceIsLinearAndKeptBySquaring : Obligations.TraceIsLinearAndKeptBySquaring := by
  refine fun tab h a b => ⟨gfTrace_xor a b, gfTrace_rotl113 a, gfTrace_rotr113 a, ?_, gfTrace_eq_xorSum a⟩
  rw [gfMul_of_accepted h, gfMul_self, gfTrace_rotl113]

/-- Settles O23: the product is a sum over the rows, and of basis vectors one term at most is left of it. -/
theorem productBitsFollowTheTable : Obligations.ProductBitsFollowTheTable := by
  refine ⟨fun tab a b n hrows hn => getLsbD_gfMul hrows a b hn, fun tab i t h hi _ => ?_⟩
  cases i with
  | zero =>
    rw [show (113 - 0) % 113 = 0 from rfl, gfMul_basis_zero_basis h t, beq_iff_eq]
    constructor
    · rintro (h0 | ⟨hle, -⟩)
      · exact h0.symm
      · omega
    · exact fun h0 => .inl h0.symm
  | succ m =>
    obtain ⟨hne, -, -⟩ := entries_of_accepted h (show m < 112 by omega)
    rw [show (113 - (m + 1)) % 113 = 112 - m by omega, gfMul_basis_basis h t (by omega)]
    simp only [Nat.le_add_left, true_and, eq_or_eq_iff_beq_xor hne]

/-- Settles O30: the printed lists and the construction of R144 are evaluated. -/
theorem tableIsTheConstructedOne : Obligations.TableIsTheConstructedOne :=
  ⟨by decide +kernel, by decide +kernel, by decide +kernel, by decide, by decide, by decide +kernel, by decide +kernel,
    by decide +kernel, by decide +kernel, rows_tableR145_rising, by decide +kernel, by decide +kernel, by decide +kernel⟩

/-- Settles O39: the trace decides whether the affine solver has a root to write. -/
theorem qsolveWritesARootOrNone : Obligations.QsolveWritesARootOrNone := by
  refine fun rd rs1 s h => ⟨fun htrace => ?_, fun htrace => ?_⟩
  · have hexec := exec_qsolve_of_valid (rd := rd) h
    rw [solveAffine_of_trace_one _ htrace] at hexec
    obtain ⟨-, hframe⟩ := setRoot_frame s rd none
    exact ⟨_, hexec, setRoot_fieldN s rd none, fun _ => rfl, hframe⟩
  · have hexec := exec_qsolve_of_valid (rd := rd) h
    rw [solveAffine_of_trace_zero _ htrace] at hexec
    obtain ⟨hothers, hframe⟩ := setRoot_frame s rd (some (containerOf (rootUpTo Config.qsZ0 (elementOf (s.reg rs1)) 112)))
    exact ⟨_, _, hexec, setRoot_fieldN s rd _, setReg_reg_same s rd _, gfAdd_rotl113_rootUpTo _ htrace, rootUpTo_zero _ _ _,
      hothers, hframe⟩

/-- Settles O41: complementing the affine root exchanges it with its complement, so the general solver's roots change places. -/
theorem theRootParameterOnlySwapsRoots : Obligations.TheRootParameterOnlySwapsRoots := by
  refine ⟨solveAffine_true, fun tab a b c => ?_⟩
  by_cases ha : a = gfZero
  · rw [ha, solveGeneral_of_a_zero, solveGeneral_of_a_zero]
  by_cases hb : b = gfZero
  · rw [hb, solveGeneral_of_b_zero ha, solveGeneral_of_b_zero ha]
  cases hz : solveAffine false (betaOf tab a b c) with
  | none =>
    have htrue : solveAffine true (betaOf tab a b c) = none := by rw [solveAffine_true, hz]; rfl
    simp only [solveGeneral, if_neg ha, if_neg hb, hz, htrue]
  | some z =>
    have htrue : solveAffine true (betaOf tab a b c) = some (z ^^^ gfOne) := by rw [solveAffine_true, hz]; rfl
    have hz' : z ^^^ gfOne ^^^ gfOne = z := by rw [BitVec.xor_assoc, BitVec.xor_self, BitVec.xor_zero]
    rw [solveGeneral_of_affine_root ha hb htrue, solveGeneral_of_affine_root ha hb hz, hz']

end Sys2Proof.Machine
end

section
/-! SUPPORT. Faults and frames: which command takes which fault, what an invalid operand leads to, and what every command writes
outside the registers, said once. -/

namespace Sys2Proof.Machine

/-! ## The commands' faults (R202, R203) -/

section Faults
variable {s : State}

/-- VERIFY of an invalid register raises InvalidElement (R104). -/
theorem exec_verify_of_invalid {r : Reg} (h : isValid (s.reg r) = false) :
    exec (.verify r) s = .next (s.raise .invalidElement (encode (.verify r))) := by
  simp [exec, execVerify, verifyContainer, h]

theorem isValid_eq_false_iff {c : Container} : isValid c = false ↔ c.extractLsb' 113 15 ≠ 0 := beq_eq_false_iff_ne

variable {rd rd2 rs1 rs2 rs3 : Reg}

theorem exec_qsolve3_of_equal_destinations (hd : rd = rd2) : exec (.qsolve3 rd rd2 rs1 rs2 rs3) s =
    .next (s.raise .illegalCommand (encode (.qsolve3 rd rd2 rs1 rs2 rs3))) :=
  congrArg _ (if_pos hd)

/-- A = Zero is looked at before B and C (R203). -/
theorem exec_qsolve3_of_zero (hd : rd ≠ rd2) (ha : s.reg rs1 = 0) : exec (.qsolve3 rd rd2 rs1 rs2 rs3) s =
    .next (s.raise .invalidArgument (encode (.qsolve3 rd rd2 rs1 rs2 rs3))) := by
  rw [← containerOf_zero] at ha
  simp only [exec, execQsolve3, if_neg hd, if_pos ha]

/-- A legal command under a condition of R202 takes the fault of that row. -/
theorem exec_of_faultCondition {i : Instr} {x : Cause} (hwf : i.wellFormed = true) (h : faultCondition s i x) :
    exec i s = .next (s.raise x (encode i)) := by
  cases i with
  | verify r =>
    cases x with
    | invalidElement => exact exec_verify_of_invalid (isValid_eq_false_iff.mpr h)
    | _ => exact h.elim
  | ser r addr len =>
    cases x with
    | bufferTooSmall => exact exec_ser_of_short h
    | addressRange =>
      obtain ⟨hlen, hout⟩ := h
      exact exec_ser_of_outside hlen hout
    | _ => exact h.elim
  | deser r addr len =>
    cases x with
    | lengthMismatch => exact exec_deser_of_wrong_length h
    | addressRange =>
      obtain ⟨hlen, hout⟩ := h
      exact exec_deser_of_outside hlen hout
    | invalidElement =>
      obtain ⟨hlen, hin, hbad⟩ := h
      exact (exec_deser_of_inside hlen hin).trans (congrArg _ (if_neg hbad))
    | _ => exact h.elim
  | qsolve3 rd rd2 rs1 rs2 rs3 =>
    cases x with
    | invalidArgument => exact exec_qsolve3_of_zero (bne_iff_ne.mp hwf) h
    | _ => exact h.elim
  | _ => exact h.elim

/-- A command that raises a fault takes one, and the same one whatever STATUS holds. -/
theorem exec_of_raisesFault {i : Instr} (h : raisesFault s i) :
    ∃ x, ∀ st : Word, exec i { s with status := st } = .next (State.raise { s with status := st } x (encode i)) := by
  cases hwf : i.wellFormed with
  | false =>
    obtain ⟨rd, rs1, rs2, rs3, rfl⟩ := wellFormed_eq_false_iff.mp hwf
    exact ⟨_, fun st => exec_qsolve3_of_equal_destinations rfl⟩
  | true =>
    obtain ⟨x, hx⟩ := h.resolve_left (by rw [hwf]; decide)
    exact ⟨x, fun st => exec_of_faultCondition (s := { s with status := st }) hwf hx⟩

end Faults

/-! ## Invalid operands (log entry 7) -/

section InvalidOperands
variable {α : Type} {s : State} {rd rd2 rs1 rs2 rs3 : Reg}

theorem apply1_of_invalid (f : Element → α) (h : isValid (s.reg rs1) = false) : s.apply1 f rs1 = none := by
  rw [State.apply1, element?_of_invalid h, Option.map_none]

theorem apply2_of_invalid (f : Element → Element → α) (h : isValid (s.reg rs1) = false ∨ isValid (s.reg rs2) = false) :
    s.apply2 f rs1 rs2 = none := by
  rcases h with h | h <;> simp [State.apply2, element?_of_invalid h]

theorem apply3_of_invalid (f : Element → Element → Element → α)
    (h : isValid (s.reg rs1) = false ∨ isValid (s.reg rs2) = false ∨ isValid (s.reg rs3) = false) :
    s.apply3 f rs1 rs2 rs3 = none := by
  rcases h with h | h | h <;> simp [State.apply3, element?_of_invalid h]

theorem exec_inv_of_invalid (h : isValid (s.reg rs1) = false) : exec (.inv rd rs1) s = .next (s.setResult rd none) := by
  simp only [exec, execInv, element?_of_invalid h]

theorem exec_div_of_invalid (h : isValid (s.reg rs1) = false ∨ isValid (s.reg rs2) = false) :
    exec (.div rd rs1 rs2) s = .next (s.setResult rd none) := by
  rcases h with h | h <;> simp [exec, execDiv, element?_of_invalid h]

theorem exec_qsolve_of_invalid (h : isValid (s.reg rs1) = false) :
    exec (.qsolve rd rs1) s = .next (s.drawn.setRoot rd (Config.freeRoot s.draws)) := by
  simp only [exec, execQsolve, apply1_of_invalid _ h]

theorem exec_qsolve3_of_invalid (hd : rd ≠ rd2) (ha : s.reg rs1 ≠ 0)
    (h : isValid (s.reg rs1) = false ∨ isValid (s.reg rs2) = false ∨ isValid (s.reg rs3) = false) :
    exec (.qsolve3 rd rd2 rs1 rs2 rs3) s = .next (s.drawn.setRoots rd rd2 (Config.freeRoots s.draws)) := by
  rw [← containerOf_zero] at ha
  simp only [exec, execQsolve3, if_neg hd, if_neg ha, apply3_of_invalid _ h]

/-- A free container as a result: the destination and the draw counter change, and nothing else. -/
theorem setResult_none_effect {i : Instr} {v : Option Element} (h : exec i s = .next (s.setResult rd v)) (hv : v = none) :
    ∃ t, exec i s = .next t ∧ t.reg rd = Config.freeContainer s.draws ∧ t.draws = s.draws + 1 ∧ onlyReg rd s t := by
  subst hv
  exact ⟨_, h, setReg_reg_same _ _ _, rfl, setResult_frame s rd none⟩

end InvalidOperands

/-! ## What a command that takes no fault does, valid operands or not -/

section Outcomes
variable {s : State} {r rd rd2 rs1 rs2 rs3 : Reg} {addr len : Byte}

theorem exec_inv_frame {t : State} (h : exec (.inv rd rs1) s = .next t) : onlyReg rd s t := by
  cases hr : isValid (s.reg rs1) with
  | true =>
    obtain rfl := Host.Outcome.next.inj ((exec_inv_of_valid rd hr).symm.trans h)
    exact onlyReg_setReg_of_eq_or_drawn (inverseOf_state s _) rd _
  | false =>
    obtain rfl := Host.Outcome.next.inj ((exec_inv_of_invalid hr).symm.trans h)
    exact setResult_frame s rd none

theorem exec_div_frame {t : State} (h : exec (.div rd rs1 rs2) s = .next t) : onlyReg rd s t := by
  by_cases hr : isValid (s.reg rs1) = true ∧ isValid (s.reg rs2) = true
  · obtain ⟨h1, h2⟩ := hr
    obtain rfl := Host.Outcome.next.inj ((exec_div_of_valid rd h1 h2).symm.trans h)
    exact onlyReg_setReg_of_eq_or_drawn (inverseOf_state s _) rd _
  · rw [not_and_or, Bool.not_eq_true, Bool.not_eq_true] at hr
    obtain rfl := Host.Outcome.next.inj ((exec_div_of_invalid hr).symm.trans h)
    exact setResult_frame s rd none

/-- SER past its two tests stores 15 bytes, whatever the register holds (R105). -/
theorem exec_ser_of_region (hlen : 15 ≤ len.toNat) (hin : addr.toNat + len.toNat ≤ 256) :
    exec (.ser r addr len) s = .next ((s.afterRead r).memWrite addr.toNat (s.wireOfReg r)) := by
  simp only [exec, execSer, if_neg (show ¬ len.toNat < wireBytes from Nat.not_lt.mpr hlen),
    if_pos (insideBuffer_iff.mpr hin)]

/-- The frame of that store. -/
theorem afterRead_memWrite_frame (s : State) (r : Reg) (a : Nat) :
    (∀ a', ¬ (a ≤ a' ∧ a' < a + 15) → ((s.afterRead r).memWrite a (s.wireOfReg r)).byte a' = s.byte a') ∧
      sameRegs s ((s.afterRead r).memWrite a (s.wireOfReg r)) ∧ sameStatus s ((s.afterRead r).memWrite a (s.wireOfReg r)) ∧
      samePort s ((s.afterRead r).memWrite a (s.wireOfReg r)) := by
  obtain ⟨hregs, hstatus, hfcmd, -, hpending, hreplies⟩ := memWrite_frame (s.afterRead r) a (s.wireOfReg r)
  have hlength : (s.wireOfReg r).length = 15 := length_wireOfReg s r
  have hbyte : ∀ a', ¬ (a ≤ a' ∧ a' < a + 15) →
      ((s.afterRead r).memWrite a (s.wireOfReg r)).byte a' = (s.afterRead r).byte a' := fun a' h => by
    rw [memWrite_byte, hlength, if_neg h]
  generalize (s.afterRead r).memWrite a (s.wireOfReg r) = t at hregs hstatus hfcmd hpending hreplies hbyte ⊢
  rcases afterRead_state s r with hu | hu <;> rw [hu] at hregs hstatus hfcmd hpending hreplies hbyte <;>
    exact ⟨hbyte, reg_congr hregs, ⟨hstatus, hfcmd⟩, hpending, hreplies⟩

/-- TRACE writes T after a possible draw. -/
theorem afterRead_setT_frame (s : State) (r : Reg) (b : Bool) :
    statusButT s ((s.afterRead r).setT b) ∧ sameRegs s ((s.afterRead r).setT b) ∧ sameBuf s ((s.afterRead r).setT b) ∧
      samePort s ((s.afterRead r).setT b) := by
  rcases afterRead_state s r with hu | hu <;> rw [hu] <;>
    exact ⟨setT_statusButT _ b, fun _ => rfl, fun _ => rfl, rfl, rfl⟩

/-- N tells whether the affine solver's outcome left the registers alone (R183). -/
theorem setRoot_by_fieldN (s : State) (rd : Reg) (o : Option Container) :
    ((s.setRoot rd o).fieldN = 0 → sameRegs s (s.setRoot rd o)) ∧
      ((s.setRoot rd o).fieldN = 0 ∨ (s.setRoot rd o).fieldN = 1) := by
  rw [setRoot_fieldN]
  cases o with
  | none => exact ⟨fun _ _ => rfl, .inl rfl⟩
  | some x1 => exact ⟨fun h => absurd h (by simp), .inr rfl⟩

/-- N tells which destinations the general solver's outcome left alone (R186). -/
theorem setRoots_by_fieldN (s : State) {rd rd2 : Reg} (hd : rd ≠ rd2) (o : Roots Container) :
    ((s.setRoots rd rd2 o).fieldN = 0 → sameRegs s (s.setRoots rd rd2 o)) ∧
      ((s.setRoots rd rd2 o).fieldN ≠ 2 → (s.setRoots rd rd2 o).reg rd2 = s.reg rd2) := by
  rw [setRoots_fieldN]
  cases o with
  | none => exact ⟨fun _ _ => rfl, fun _ => rfl⟩
  | one x1 => exact ⟨fun h => absurd h (by simp [rootCount]), fun _ => setReg_reg_ne s rd x1 hd.symm⟩
  | two x1 x2 => exact ⟨fun h => absurd h (by simp [rootCount]), fun h => absurd rfl h⟩

/-- QSOLVE writes an outcome of the affine solver, the same whatever STATUS holds. -/
theorem exec_qsolve_outcome (s : State) (rd rs1 : Reg) :
    ∃ draw o, ∀ st : Word, exec (.qsolve rd rs1) { s with status := st } = .next ((State.drawnIf { s with status := st } draw).setRoot rd o) := by
  cases hr : isValid (s.reg rs1) with
  | true => exact ⟨false, (solveAffine Config.qsZ0 (elementOf (s.reg rs1))).map containerOf,
      fun st => exec_qsolve_of_valid (s := { s with status := st }) hr⟩
  | false => exact ⟨true, Config.freeRoot s.draws, fun st => exec_qsolve_of_invalid (s := { s with status := st }) hr⟩

/-- The general solver refuses A = Zero only (R185). -/
theorem solveGeneral_ok (tab : MulTable) (z0 : Bool) {a : Element} (ha : a ≠ gfZero) (b c : Element) :
    ∃ roots, solveGeneral tab z0 a b c = .ok roots := by
  rw [solveGeneral, if_neg ha]
  split
  · exact ⟨_, rfl⟩
  · split <;> exact ⟨_, rfl⟩

/-- QSOLVE3 past its tests writes an outcome of the general solver, the same whatever STATUS holds. -/
theorem exec_qsolve3_outcome (hd : rd ≠ rd2) (ha : s.reg rs1 ≠ 0) :
    ∃ draw o, ∀ st : Word, exec (.qsolve3 rd rd2 rs1 rs2 rs3) { s with status := st } =
      .next ((State.drawnIf { s with status := st } draw).setRoots rd rd2 o) := by
  by_cases hr : isValid (s.reg rs1) = true ∧ isValid (s.reg rs2) = true ∧ isValid (s.reg rs3) = true
  · obtain ⟨h1, h2, h3⟩ := hr
    obtain ⟨roots, hroots⟩ := solveGeneral_ok Config.multab Config.qsZ0 ((elementOf_eq_zero_iff h1).not.mpr ha)
      (elementOf (s.reg rs2)) (elementOf (s.reg rs3))
    exact ⟨false, rootContainers roots, fun st => exec_qsolve3_of_roots (s := { s with status := st }) hd h1 h2 h3 ha hroots⟩
  · simp only [not_and_or, Bool.not_eq_true] at hr
    exact ⟨true, Config.freeRoots s.draws, fun st => exec_qsolve3_of_invalid (s := { s with status := st }) hd ha hr⟩

end Outcomes

/-! ## What a command does outside the registers, said once -/

/-- Command `i` takes `s` to `t`: a fault, or outside the registers nothing, one field of STATUS, or bytes of the buffer. -/
inductive Writes (i : Instr) (s t : State) : Prop where
  | fault (x : Cause) (h : raisesFault s i) (ht : t = s.raise x (encode i))
  | registers (hstatus : sameStatus s t) (hbuf : sameBuf s t) (hport : samePort s t)
  | traceFlag (h : writesT i) (hstatus : statusButT s t) (hbuf : sameBuf s t) (hport : samePort s t)
  | predicate (h : writesP i) (hstatus : statusButP s t) (hbuf : sameBuf s t) (hport : samePort s t)
  | rootCount (h : writesN i ∧ ¬ raisesFault s i) (hstatus : statusButN s t) (hbuf : sameBuf s t) (hport : samePort s t)
  | bytes (h : ∃ r addr len, i = .ser r addr len) (hstatus : sameStatus s t) (hport : samePort s t)

theorem writes_of_onlyReg {i : Instr} {s t : State} {rd : Reg} (h : onlyReg rd s t) : Writes i s t := by
  obtain ⟨-, hstatus, hbuf, hport⟩ := h
  exact .registers hstatus hbuf hport

/-- A draw is seen by none of the frames. -/
theorem onlyRegsAndN_of_drawnIf {s t : State} {draw : Bool} (h : onlyRegsAndN (s.drawnIf draw) t) : onlyRegsAndN s t := by
  cases draw <;> exact h

/-- Every command that raises no fault does what `Writes` says. -/
theorem writes_of_no_fault {i : Instr} {s t : State} (hf : ¬ raisesFault s i) (h : exec i s = .next t) : Writes i s t := by
  have hno (x : Cause) : ¬ faultCondition s i x := fun hx => hf (.inr ⟨x, hx⟩)
  have hwf : i.wellFormed ≠ false := fun hwf => hf (.inl hwf)
  cases i with
  | zero rd | one rd | mov rd | neg rd =>
    obtain rfl := Host.Outcome.next.inj h
    exact writes_of_onlyReg (setReg_frame s rd _)
  | add rd | sub rd | addone rd | subone rd | sqr rd | sqrt rd | mul rd =>
    obtain rfl := Host.Outcome.next.inj h
    exact writes_of_onlyReg (setResult_frame s rd _)
  | inv rd rs1 => exact writes_of_onlyReg (exec_inv_frame h)
  | div rd rs1 rs2 => exact writes_of_onlyReg (exec_div_frame h)
  | verify r =>
    have hvalid : isValid (s.reg r) = true := by
      rw [← Bool.not_eq_false, isValid_eq_false_iff]
      exact hno .invalidElement
    obtain rfl := Host.Outcome.next.inj ((exec_verify_of_valid hvalid).symm.trans h)
    exact .registers ⟨rfl, rfl⟩ (fun _ => rfl) ⟨rfl, rfl⟩
  | ser r addr len =>
    have hlen : ¬ len.toNat < 15 := hno .bufferTooSmall
    have hout : ¬ (15 ≤ len.toNat ∧ 256 < addr.toNat + len.toNat) := hno .addressRange
    obtain rfl := Host.Outcome.next.inj ((exec_ser_of_region (by omega) (by omega)).symm.trans h)
    obtain ⟨-, -, hstatus, hport⟩ := afterRead_memWrite_frame s r addr.toNat
    exact .bytes ⟨r, addr, len, rfl⟩ hstatus hport
  | deser r addr len =>
    have hlen : len.toNat = 15 := not_not.mp (hno .lengthMismatch)
    have hout : ¬ (len.toNat = 15 ∧ 256 < addr.toNat + 15) := hno .addressRange
    have hin : addr.toNat + 15 ≤ 256 := by omega
    have hgood : s.byte (addr.toNat + 14) &&& 0xFE = 0 := not_not.mp fun hbad => hno .invalidElement ⟨hlen, hin, hbad⟩
    have hexec := (exec_deser_of_inside (r := r) (s := s) hlen hin).trans (congrArg _ (if_pos hgood))
    obtain rfl := Host.Outcome.next.inj (hexec.symm.trans h)
    exact writes_of_onlyReg (setReg_frame s r _)
  | eq rs1 rs2 =>
    obtain rfl := Host.Outcome.next.inj h
    exact .predicate (.inl ⟨rs1, rs2, rfl⟩) (setP_statusButP s _) (fun _ => rfl) ⟨rfl, rfl⟩
  | iszero rs1 =>
    obtain rfl := Host.Outcome.next.inj h
    exact .predicate (.inr (.inl ⟨rs1, rfl⟩)) (setP_statusButP s _) (fun _ => rfl) ⟨rfl, rfl⟩
  | isone rs1 =>
    obtain rfl := Host.Outcome.next.inj h
    exact .predicate (.inr (.inr ⟨rs1, rfl⟩)) (setP_statusButP s _) (fun _ => rfl) ⟨rfl, rfl⟩
  | trace rs1 =>
    obtain rfl := Host.Outcome.next.inj h
    obtain ⟨hstatus, -, hbuf, hport⟩ := afterRead_setT_frame s rs1 (s.traceOfReg rs1)
    exact .traceFlag ⟨rs1, rfl⟩ hstatus hbuf hport
  | qsolve rd rs1 =>
    obtain ⟨draw, o, ho⟩ := exec_qsolve_outcome s rd rs1
    obtain rfl := Host.Outcome.next.inj ((ho s.status).symm.trans h)
    obtain ⟨-, hframe⟩ := setRoot_frame (s.drawnIf draw) rd o
    obtain ⟨hstatus, hbuf, hport⟩ := onlyRegsAndN_of_drawnIf hframe
    exact .rootCount ⟨.inl ⟨rd, rs1, rfl⟩, hf⟩ hstatus hbuf hport
  | qsolve3 rd rd2 rs1 rs2 rs3 =>
    have hd : rd ≠ rd2 := bne_iff_ne.mp (Bool.ne_false_iff.mp hwf)
    obtain ⟨draw, o, ho⟩ := exec_qsolve3_outcome (rs2 := rs2) (rs3 := rs3) hd (hno .invalidArgument)
    obtain rfl := Host.Outcome.next.inj ((ho s.status).symm.trans h)
    obtain ⟨-, hframe⟩ := setRoots_frame (s.drawnIf draw) rd rd2 o
    obtain ⟨hstatus, hbuf, hport⟩ := onlyRegsAndN_of_drawnIf hframe
    exact .rootCount ⟨.inr ⟨rd, rd2, rs1, rs2, rs3, rfl⟩, hf⟩ hstatus hbuf hport

/-- Every command does what `Writes` says. -/
theorem exec_writes {i : Instr} {s t : State} (h : exec i s = .next t) : Writes i s t := by
  by_cases hf : raisesFault s i
  · obtain ⟨x, hx⟩ := exec_of_raisesFault hf
    exact .fault x hf (Host.Outcome.next.inj (h.symm.trans (hx s.status)))
  · exact writes_of_no_fault hf h

section Kept
variable {i : Instr} {s t : State} (h : Writes i s t)
include h

theorem Writes.samePort : samePort s t := by
  cases h with
  | fault x _ ht => exact ht ▸ ⟨rfl, rfl⟩
  | registers _ _ hport | traceFlag _ _ _ hport | predicate _ _ _ hport | rootCount _ _ _ hport | bytes _ _ hport =>
    exact hport

theorem Writes.sameBuf (hser : ∀ r addr len, i ≠ .ser r addr len) : sameBuf s t := by
  cases h with
  | fault x _ ht => exact ht ▸ fun _ => rfl
  | registers _ hbuf _ | traceFlag _ _ hbuf _ | predicate _ _ hbuf _ | rootCount _ _ hbuf _ => exact hbuf
  | bytes h _ _ =>
    obtain ⟨r, addr, len, hi⟩ := h
    exact absurd hi (hser r addr len)

theorem Writes.keeps_flagT (hT : ¬ writesT i) : t.flagT = s.flagT := by
  cases h with
  | fault x _ ht => exact ht ▸ raise_flagT s x _
  | registers hstatus _ _ | bytes _ hstatus _ => exact (field_congr hstatus.1).1
  | traceFlag h _ _ _ => exact absurd h hT
  | predicate _ hstatus _ _ | rootCount _ hstatus _ _ => exact hstatus.1

theorem Writes.keeps_flagP (hP : ¬ writesP i) : t.flagP = s.flagP := by
  cases h with
  | fault x _ ht => exact ht ▸ raise_flagP s x _
  | registers hstatus _ _ | bytes _ hstatus _ =>
    obtain ⟨-, hflag, -⟩ := field_congr hstatus.1
    exact hflag
  | traceFlag _ hstatus _ _ => exact hstatus.1
  | predicate h _ _ _ => exact absurd h hP
  | rootCount _ hstatus _ _ =>
    obtain ⟨-, hflag, -⟩ := hstatus
    exact hflag

/-- N is kept by a command that is no solver, and by one that raises a fault. -/
theorem Writes.keeps_fieldN (hN : ¬ (writesN i ∧ ¬ raisesFault s i)) : t.fieldN = s.fieldN := by
  cases h with
  | fault x _ ht => exact ht ▸ raise_fieldN s x _
  | registers hstatus _ _ | bytes _ hstatus _ =>
    obtain ⟨-, -, hfield, -⟩ := field_congr hstatus.1
    exact hfield
  | traceFlag _ hstatus _ _ | predicate _ hstatus _ _ =>
    obtain ⟨-, hfield, -⟩ := hstatus
    exact hfield
  | rootCount h _ _ _ => exact absurd h hN

/-- A command that raises no fault keeps the fault record and the upper bits of STATUS. -/
theorem Writes.keeps_record (hf : ¬ raisesFault s i) :
    t.flagFault = s.flagFault ∧ t.fieldCause = s.fieldCause ∧ t.statusRest = s.statusRest ∧ t.fcmd = s.fcmd := by
  cases h with
  | fault x h _ => exact absurd h hf
  | registers hstatus _ _ | bytes _ hstatus _ =>
    obtain ⟨hstatus, hfcmd⟩ := hstatus
    obtain ⟨-, -, -, hfault, hcause, hrest⟩ := field_congr hstatus
    exact ⟨hfault, hcause, hrest, hfcmd⟩
  | traceFlag _ hstatus _ _ | predicate _ hstatus _ _ | rootCount _ hstatus _ _ =>
    obtain ⟨-, -, hrecord⟩ := hstatus
    exact hrecord

theorem Writes.keeps_flagFault (hf : ¬ raisesFault s i) : t.flagFault = s.flagFault := (h.keeps_record hf).1

theorem Writes.keeps_fieldCause (hf : ¬ raisesFault s i) : t.fieldCause = s.fieldCause := by
  obtain ⟨-, hcause, -⟩ := h.keeps_record hf
  exact hcause

theorem Writes.keeps_statusRest : t.statusRest = s.statusRest := by
  cases h with
  | fault x _ ht => exact ht ▸ raise_statusRest s x _
  | registers hstatus _ _ | bytes _ hstatus _ =>
    obtain ⟨-, -, -, -, -, hrest⟩ := field_congr hstatus.1
    exact hrest
  | traceFlag _ hstatus _ _ | predicate _ hstatus _ _ | rootCount _ hstatus _ _ =>
    obtain ⟨-, -, -, -, hrest, -⟩ := hstatus
    exact hrest

end Kept

end Sys2Proof.Machine
end

section
/-! SUPPORT. Runs that differ in STATUS only, the round trip of the wire form, and the statements on faults and frames. -/

namespace Sys2Proof.Machine

/-! ## Two states that differ in STATUS only -/

/-- `s'` is `s` with another STATUS. -/
def sameButStatus (s s' : State) : Prop := ∃ st, s' = { s with status := st }

section StatusOnly
variable {s s' : State} (h : sameButStatus s s')
include h

theorem sameButStatus_drawnIf (b : Bool) : sameButStatus (s.drawnIf b) (s'.drawnIf b) := by
  obtain ⟨st, rfl⟩ := h
  cases b <;> exact ⟨st, rfl⟩

theorem sameButStatus_writeRegs (ws : List (Reg × Container)) : sameButStatus (s.writeRegs ws) (s'.writeRegs ws) := by
  induction ws generalizing s s' with
  | nil => exact h
  | cons p ws ih =>
    obtain ⟨st, rfl⟩ := h
    exact ih ⟨st, rfl⟩

theorem sameButStatus_memWrite (a : Nat) (bs : List Byte) : sameButStatus (s.memWrite a bs) (s'.memWrite a bs) := by
  induction bs generalizing s s' a with
  | nil => exact h
  | cons b bs ih =>
    obtain ⟨st, rfl⟩ := h
    exact ih ⟨st, rfl⟩ (a + 1)

/-- An update takes two states that differ in STATUS only to two such states. -/
theorem sameButStatus_update (e : Update) : sameButStatus (e.apply s) (e.apply s') := by
  have hregs := sameButStatus_writeRegs (sameButStatus_drawnIf h e.draw) e.writes
  obtain ⟨draw, writes, aside⟩ := e
  cases aside with
  | bytes a bs => exact sameButStatus_memWrite hregs a bs
  | keep => exact hregs
  | fault | flagT | flagP | rootCount =>
    obtain ⟨st, hst⟩ := hregs
    exact ⟨_, by rw [Update.apply, hst]; rfl⟩

end StatusOnly

section SameWrites
variable {i : Instr} {s t t' : State} {st : Word}

/-- So does a command: it reads the same in both states. -/
theorem exec_sameButStatus (h : exec i s = .next t) (h' : exec i { s with status := st } = .next t') : sameButStatus t t' := by
  obtain ⟨e, he⟩ := exec_performs i s
  obtain rfl := he.eq_apply (.refl i s) h
  obtain rfl := he.eq_apply (s' := { s with status := st }) ⟨fun _ _ => rfl, rfl, rfl⟩ h'
  exact sameButStatus_update ⟨st, rfl⟩ e

variable (h : exec i s = .next t) (h' : exec i { s with status := st } = .next t')
include h h'

theorem flagT_same_of_writesT (hT : writesT i) : t'.flagT = t.flagT := by
  obtain ⟨a, rfl⟩ := hT
  obtain rfl := Host.Outcome.next.inj h
  obtain rfl := Host.Outcome.next.inj h'
  rw [setT_flagT, setT_flagT]
  rfl

theorem flagP_same_of_writesP (hP : writesP i) : t'.flagP = t.flagP := by
  rcases hP with ⟨a, b, rfl⟩ | ⟨a, rfl⟩ | ⟨a, rfl⟩ <;>
  · obtain rfl := Host.Outcome.next.inj h
    obtain rfl := Host.Outcome.next.inj h'
    rw [setP_flagP, setP_flagP]
    rfl

theorem fieldN_same_of_writesN (hN : writesN i) (hf : ¬ raisesFault s i) : t'.fieldN = t.fieldN := by
  rcases hN with ⟨d, a, rfl⟩ | ⟨d, d2, a, b, c, rfl⟩
  · obtain ⟨draw, o, ho⟩ := exec_qsolve_outcome s d a
    obtain rfl := Host.Outcome.next.inj ((ho s.status).symm.trans h)
    obtain rfl := Host.Outcome.next.inj ((ho st).symm.trans h')
    rw [setRoot_fieldN, setRoot_fieldN]
  · have hd : d ≠ d2 := fun hd => hf (.inl (wellFormed_eq_false_iff.mpr ⟨d, a, b, c, by rw [hd]⟩))
    have ha : s.reg a ≠ 0 := fun ha => hf (.inr ⟨.invalidArgument, ha⟩)
    obtain ⟨draw, o, ho⟩ := exec_qsolve3_outcome (rs2 := b) (rs3 := c) hd ha
    obtain rfl := Host.Outcome.next.inj ((ho s.status).symm.trans h)
    obtain rfl := Host.Outcome.next.inj ((ho st).symm.trans h')
    rw [setRoots_fieldN, setRoots_fieldN]

/-- A fault raised in one run is raised in the other. -/
theorem exists_raise_both (hf : raisesFault s i) :
    ∃ x, t = s.raise x (encode i) ∧ t' = State.raise { s with status := st } x (encode i) := by
  obtain ⟨x, hx⟩ := exec_of_raisesFault hf
  exact ⟨x, Host.Outcome.next.inj (h.symm.trans (hx s.status)), Host.Outcome.next.inj (h'.symm.trans (hx st))⟩

theorem flagFault_same_of_raisesFault (hf : raisesFault s i) : t'.flagFault = t.flagFault := by
  obtain ⟨x, rfl, rfl⟩ := exists_raise_both h h' hf
  rw [raise_flagFault, raise_flagFault]

theorem fieldCause_same_of_raisesFault (hf : raisesFault s i) : t'.fieldCause = t.fieldCause := by
  obtain ⟨x, rfl, rfl⟩ := exists_raise_both h h' hf
  rw [raise_fieldCause, raise_fieldCause]

end SameWrites

/-! ## The wire form there and back -/

/-- What a valid container's wire form leaves in the buffer assembles to that container (R52, R103). -/
theorem assemble_memRead_memWrite (s : State) (a : Nat) {c : Container} (hc : isValid c = true) :
    assemble ((s.memWrite a (serialize (elementOf c))).memRead a wireBytes) = c := by
  refine BitVec.eq_of_getLsbD_eq fun n _ => ?_
  by_cases hn : n < 120
  · have hj : n / 8 < 15 := by omega
    have hk : n % 8 < 8 := Nat.mod_lt _ (by decide)
    rw [← Nat.div_add_mod n 8, getLsbD_assemble_memRead _ _ hj hk, memWrite_serialize_byte _ _ _ hj,
      getLsbD_serialize hc hj hk]
  · rw [getLsbD_assemble_memRead_of_ge _ _ (by omega), (isValid_iff_getLsbD c).mp hc n (by omega)]

/-! ## Settled obligations -/

/-- Settles O13: VERIFY is the test of the reserved bits. -/
theorem verifyTestsTheReservedBits : Obligations.VerifyTestsTheReservedBits :=
  fun _ _ => ⟨fun h => exec_verify_of_valid (beq_iff_eq.mpr h),
    fun h => ⟨_, exec_verify_of_invalid (isValid_eq_false_iff.mpr h), tookFault_raise _ _ _⟩⟩

/-- Settles O42: the two tests that QSOLVE3 makes before it looks at B and C. -/
theorem qsolveThreeFaults : Obligations.QsolveThreeFaults :=
  fun _ _ _ _ _ _ => ⟨fun hd ha => ⟨_, exec_qsolve3_of_zero hd ha, tookFault_raise _ _ _⟩,
    fun hd => ⟨_, exec_qsolve3_of_equal_destinations hd, tookFault_raise _ _ _⟩⟩

/-- Settles O46: a command under a condition of R202 takes that fault, and one under none keeps the record. -/
theorem commandsFaultExactlyWhenTheTableSays : Obligations.CommandsFaultExactlyWhenTheTableSays := by
  refine fun i s hwf => ⟨fun x hx => ⟨_, exec_of_faultCondition hwf hx, tookFault_raise _ _ _⟩, fun hno => ?_⟩
  obtain ⟨t, ht⟩ := exec_next i s
  have hf : ¬ raisesFault s i := by
    rintro (hill | ⟨x, hx⟩)
    · rw [hwf] at hill
      exact Bool.noConfusion hill
    · exact hno x hx
  obtain ⟨hfault, hcause, -, hfcmd⟩ := (exec_writes ht).keeps_record hf
  exact ⟨t, ht, hfault, hcause, hfcmd⟩

/-- Settles O51: outside the registers every command but SER writes at most STATUS and FCMD. -/
theorem onlySerChangesTheBuffer : Obligations.OnlySerChangesTheBuffer :=
  fun _ _ _ h => ⟨(exec_writes h).sameBuf, (exec_writes h).samePort⟩

/-- Settles O52: the two runs perform one update; a field that the command does not write is kept in each run. -/
theorem noCommandReadsStatus : Obligations.NoCommandReadsStatus := by
  intro i s s' t t' hs h h'
  have hw := exec_writes h
  have hw' := exec_writes h'
  rw [hs] at h' hw' ⊢
  generalize s'.status = st at h' hw' ⊢
  obtain ⟨st', ht'⟩ := exec_sameButStatus h h'
  refine ⟨by rw [ht']; exact ⟨rfl, rfl, rfl, rfl, rfl, rfl⟩,
    ⟨flagT_same_of_writesT h h', fun hT => ⟨hw.keeps_flagT hT, hw'.keeps_flagT hT⟩⟩,
    ⟨flagP_same_of_writesP h h', fun hP => ⟨hw.keeps_flagP hP, hw'.keeps_flagP hP⟩⟩,
    ⟨fun ⟨hN, hf⟩ => fieldN_same_of_writesN h h' hN hf, fun hN => ⟨hw.keeps_fieldN hN, hw'.keeps_fieldN hN⟩⟩,
    ⟨flagFault_same_of_raisesFault h h', fun hf => ⟨hw.keeps_flagFault hf, hw'.keeps_flagFault hf⟩⟩,
    ⟨fieldCause_same_of_raisesFault h h', fun hf => ⟨hw.keeps_fieldCause hf, hw'.keeps_fieldCause hf⟩⟩,
    ⟨False.elim, fun _ => ⟨hw.keeps_statusRest, hw'.keeps_statusRest⟩⟩⟩

/-- Settles O53: each of these commands writes a field function of its sources, which an invalid one leaves without a value. -/
theorem invalidOperandsGiveFreeResults : Obligations.InvalidOperandsGiveFreeResults := by
  refine ⟨fun rd rs1 s h i hi => ?_, fun rd rs1 rs2 s h i hi => ?_⟩ <;>
    simp only [List.mem_cons, List.not_mem_nil, or_false] at hi
  · rcases hi with rfl | rfl | rfl | rfl | rfl
    case inr.inr.inr.inr => exact setResult_none_effect (exec_inv_of_invalid h) rfl
    all_goals exact setResult_none_effect rfl (apply1_of_invalid _ h)
  · rcases hi with rfl | rfl | rfl | rfl
    case inr.inr.inr => exact setResult_none_effect (exec_div_of_invalid h) rfl
    all_goals exact setResult_none_effect rfl (apply2_of_invalid _ h)

/-- Settles O54: the frames of the store, of T and of the two solvers' outcomes do not depend on the values written. -/
theorem invalidOperandsKeepTheFrame : Obligations.InvalidOperandsKeepTheFrame := by
  refine ⟨fun r addr len s _ hlen hin => ⟨_, exec_ser_of_region hlen hin, afterRead_memWrite_frame s r _⟩,
    fun rs1 s _ => ⟨_, rfl, afterRead_setT_frame s rs1 _⟩, fun rd rs1 s h => ?_, fun rd rd2 rs1 rs2 rs3 s hd ha h => ?_⟩
  · obtain ⟨hothers, hframe⟩ := setRoot_frame s.drawn rd (Config.freeRoot s.draws)
    obtain ⟨hkeeps, hcount⟩ := setRoot_by_fieldN s.drawn rd (Config.freeRoot s.draws)
    exact ⟨_, exec_qsolve_of_invalid h, hothers, hframe, hkeeps, hcount⟩
  · obtain ⟨hothers, hframe⟩ := setRoots_frame s.drawn rd rd2 (Config.freeRoots s.draws)
    obtain ⟨hkeeps, hkeeps2⟩ := setRoots_by_fieldN s.drawn hd (Config.freeRoots s.draws)
    exact ⟨_, exec_qsolve3_of_invalid hd ha h, hothers, hframe, setRoots_fieldN s.drawn rd rd2 _ ▸ rootCount_ne_three _,
      hkeeps, hkeeps2⟩

/-- Settles O16: the stored bytes assemble to the register's container, which passes DESER's last test as it is valid. -/
theorem deserAfterSerRestoresTheElement : Obligations.DeserAfterSerRestoresTheElement := by
  intro r r' addr len s hlen hin hr
  have hvalid : isValid (s.reg r) = true := beq_iff_eq.mpr hr
  have hassemble := assemble_memRead_memWrite s addr.toNat hvalid
  have hgood := (isValid_assemble_memRead_iff _ _).mp (hassemble.symm ▸ hvalid)
  have hdeser := (exec_deser_of_inside (r := r') (len := 15) rfl (by omega)).trans (congrArg _ (if_pos hgood))
  exact ⟨_, _, exec_ser_of_inside hlen hin hvalid, hdeser, (setReg_reg_same _ _ _).trans hassemble⟩

end Sys2Proof.Machine
end
